-- ==== Sys2Proof/Word.lean ====
section
/-! DEFINITION. The word types of RFDecodeCore (rule R6, parameter W; rule R81) and the shape in which
the buffer space is held. -/

namespace Sys2Proof

/-- Every register, position, count and duration is 32 bits wide (R6, parameter W). -/
abbrev Word := BitVec 32

/-- One cell of buffer space (R81), one character of the MessageInfo record (R41). -/
abbrev Byte := BitVec 8

/-- The bytes of one bit buffer: (byte index, byte) pairs, indexes rising, no byte 0x00 listed.
An unlisted byte reads 0x00, its reset value (R45). -/
abbrev Memory := List Host.Cell

/-- The index of a bit buffer, BUF0 to BUF3 (R35, R111). -/
abbrev BufIx := Fin 4

/-- The index of a pattern register, PAT0 to PAT7 (R34, R111). -/
abbrev PatIx := Fin 8

/-- The index of an argument register, ARG0 to ARG3 (R32). -/
abbrev ArgIx := Fin 4

end Sys2Proof
end

