-- ==== Sys2Proof/Config.lean ====
section
/-! DEFINITION. The implementation parameters of RFDecodeCore (R6, R42) and the one thing they leave
uninterpreted: the functions of registered decoders other than Toyota TPMS (R5 (g), R14). -/

namespace Sys2Proof

/-- The sentinel result of a failed search or dispatch (R6, NOT_FOUND). -/
def notFound : Word := 0xFFFFFFFF#32

/-- One action of the differential Manchester decode table (R230). -/
inductive DmAction where
  | emit0
  | emit1
  | stop
deriving DecidableEq, Repr

/-- DM_TABLE, a total map from (pv, b0, b1) to an action (R230): row 4*pv + 2*b0 + b1. -/
structure DmTable where
  rows : Vector DmAction 8
deriving DecidableEq, Repr

/-- The default DM_TABLE (R231), its rows in the order the rule lists them. -/
def DmTable.default : DmTable :=
  ⟨#v[.stop, .stop, .emit0, .emit1, .emit1, .emit0, .stop, .stop]⟩

/-- A MessageInfo value (R300): a name, a raw text and four info texts, as lists of characters, and the bit
length consumed from the source buffer. What its characters may be is `MessageInfo.textsLegal`. -/
structure MessageInfo where
  name : List Byte
  raw : List Byte
  info1 : List Byte
  info2 : List Byte
  info3 : List Byte
  info4 : List Byte
  bitlen : Word
deriving DecidableEq, Repr

/-- Each character of each text is 1 to 255 (R300): none is 0x00, with which a field is padded (R301). -/
def MessageInfo.textsLegal (m : MessageInfo) : Bool :=
  (m.name ++ m.raw ++ m.info1 ++ m.info2 ++ m.info3 ++ m.info4).all (· != 0#8)

/-- Which function a registered decoder runs: the Toyota TPMS decoder of R310 to R317, or the `k`-th
function of the configuration (R14). A name, so that the configuration is plain data. -/
inductive DecoderFn where
  | toyotaTpms
  | configured (k : Nat)
deriving DecidableEq, Repr

/-- DEC[k] = (name, function) (R302). No rule reads the registry's name: a decoder's display name is what
it returns (R302). DEDUCED, safe: assumption log 20. -/
structure DecoderEntry where
  name : String
  fn : DecoderFn
deriving DecidableEq, Repr

/-- The configuration record (R6), fixed for a model instance and written by no rule (R42). The field
defaults are the rule's own; a field without one is OPEN there. -/
structure Config where
  /-- CAP_BYTES[b], the capacity of buffer b in bytes (I1). -/
  capBytes : Vector Nat 4
  /-- RING_SIZE, the entries of the producer's pulse ring (I2). -/
  ringSize : Nat
  /-- NCLASS, the duration classes per level (I3). -/
  nclass : Nat := 3
  /-- TOL_DIV, the tolerance divisor (I3). -/
  tolDiv : Nat := 8
  /-- DUR_MIN, the shortest duration accepted into a run (I3). -/
  durMin : Nat := 1
  /-- DUR_MAX, the longest duration accepted into a run (I3). -/
  durMax : Nat := 0xFFFFFFFF
  /-- MIN_RUN, the shortest run that may become the detected signal (I4). -/
  minRun : Nat
  /-- MAX_RUN, the longest run the scanner measures (I4). -/
  maxRun : Nat
  /-- DM_TABLE (I5). -/
  dmTable : DmTable := DmTable.default
  /-- DEC, the registered decoders in order (I6). -/
  decoders : List DecoderEntry := [⟨"Toyota TPMS", .toyotaTpms⟩]
  /-- NAME_MAX, the characters of MI_NAME (I7). -/
  nameMax : Nat
  /-- RAW_MAX, the characters of MI_RAW (I7). -/
  rawMax : Nat
  /-- INFO_MAX, the characters of each MI_INFOn (I7). -/
  infoMax : Nat
deriving DecidableEq, Repr

/-- CAP_BYTES[b]. -/
def Config.cap (c : Config) (b : BufIx) : Nat := c.capBytes[b]

/-- capbits(b) = 8 * CAP_BYTES[b] (R6, R160). -/
def Config.capBits (c : Config) (b : BufIx) : Nat := 8 * c.cap b

/-- The spec's test configuration TC (R7). `State.reset` uses it; no statement rests on it.
DESIGN CHOICE, unsafe: assumption log 1. -/
def Config.tc : Config where
  capBytes := #v[32, 16, 16, 16]
  ringSize := 256
  durMax := 10000
  minRun := 4
  maxRun := 256
  nameMax := 32
  rawMax := 32
  infoMax := 32

/-- The function of the `k`-th configured decoder: from (bytes of the source buffer, its capacity in
bytes, its numbits) to FAIL (`none`) or a MessageInfo value with the characters R300 allows (R14, R302,
R5 (g)). It has no body, so a statement holds whatever a configuration puts here. DESIGN CHOICE, safe:
assumption log 5. -/
opaque Config.configuredDecoder : Nat → Memory → Nat → Nat → Option { m : MessageInfo // m.textsLegal = true }

end Sys2Proof
end

