-- ==== Sys2Proof/Syntax.lean ====
section
/-! DEFINITION. The commands of RFDecodeCore: one constructor for each row of the opcode table (R114). -/

namespace Sys2Proof

/-- A command with its used fields, in the order BA, BB, PA, PB (R114, R118). Word-sized operands stand in
ARG0 to ARG3, not in the command word (R113). -/
inductive Instr where
  /-- `NOP` (R144). -/
  | nop
  /-- `GETBIT bA` (R161). -/
  | getbit (ba : BufIx)
  /-- `SETBIT bA` (R162). -/
  | setbit (ba : BufIx)
  /-- `FILL bA, pP` (R163). -/
  | fill (ba : BufIx) (pa : PatIx)
  /-- `REVB bA` (R164). -/
  | revb (ba : BufIx)
  /-- `SETLEN bA` (R165). -/
  | setlen (ba : BufIx)
  /-- `RDBYTE bA` (R166). -/
  | rdbyte (ba : BufIx)
  /-- `WRBYTE bA` (R167). -/
  | wrbyte (ba : BufIx)
  /-- `MATCH bA, pP` (R191). -/
  | matchp (ba : BufIx) (pa : PatIx)
  /-- `SEEK bA, pP` (R193). -/
  | seek (ba : BufIx) (pa : PatIx)
  /-- `LCDEC bS, bD, pZ, pO`: source, destination, zero template, one template (R211). -/
  | lcdec (ba bb : BufIx) (pa pb : PatIx)
  /-- `DMDEC bS, bD`: source, destination (R233). -/
  | dmdec (ba bb : BufIx)
  /-- `CRC8 bA` (R251). -/
  | crc8 (ba : BufIx)
  /-- `SCAN` (R284). -/
  | scan
  /-- `SRESET` (R285). -/
  | sreset
  /-- `DISPATCH bA` (R303). -/
  | dispatch (ba : BufIx)
deriving DecidableEq, Repr

/-- The sixteen opcodes of R114, without their fields. -/
inductive Opcode where
  | nop | getbit | setbit | fill | revb | setlen | rdbyte | wrbyte | matchp | seek | lcdec | dmdec
  | crc8 | scan | sreset | dispatch
deriving DecidableEq, Repr

end Sys2Proof
end

