-- ==== Sys2Proof/WellFormed.lean ====
section
/-! DEFINITION. What is well formed: a command's operands (R111) and a configuration (R6). Whether a
command WORD is legal (R112) is the decoder's, in Decode.lean. -/

namespace Sys2Proof

/-- A buffer operand names one of NB = 4 buffers (R6, R111). -/
def bufOk (b : Nat) : Bool := b < 4

/-- A pattern operand names one of NP = 8 pattern registers (R6, R111). -/
def patOk (p : Nat) : Bool := p < 8

/-- Every operand of the command exists. By R111 no field value is illegal in itself, and the operand
types say so: every `Instr` is well formed (`Laws.instr_wellFormed`). -/
def Instr.wellFormed : Instr → Bool
  | .nop | .scan | .sreset => true
  | .getbit ba | .setbit ba | .revb ba | .setlen ba | .rdbyte ba | .wrbyte ba | .crc8 ba | .dispatch ba =>
    bufOk ba
  | .fill ba pa | .matchp ba pa | .seek ba pa => bufOk ba && patOk pa
  | .lcdec ba bb pa pb => bufOk ba && bufOk bb && patOk pa && patOk pb
  | .dmdec ba bb => bufOk ba && bufOk bb

/-- The constraints R6 puts on a configuration. -/
def Config.wf (c : Config) : Bool :=
  decide (∀ b : BufIx, 1 ≤ c.cap b ∧ c.cap b ≤ 2 ^ 28) &&
  decide (∃ k : Fin 32, c.ringSize = 2 ^ k.val) &&
  decide (1 ≤ c.nclass) && decide (1 ≤ c.tolDiv) &&
  decide (1 ≤ c.durMin) && decide (c.durMin ≤ c.durMax) &&
  decide (1 ≤ c.minRun) && decide (1 ≤ c.maxRun) &&
  decide (c.decoders.length ≤ 2 ^ 31) &&
  decide (1 ≤ c.nameMax ∧ c.nameMax ≤ 1024) &&
  decide (1 ≤ c.rawMax ∧ c.rawMax ≤ 1024) &&
  decide (1 ≤ c.infoMax ∧ c.infoMax ≤ 256)

end Sys2Proof
end

