-- ==== Sys2Proof/Decode.lean ====
section
/-! DEFINITION. Command words: the one format C (R110), the opcode map (R114, R115), strict decoding
(R112) and the encoder (R118). -/

namespace Sys2Proof

/-! ### The fields of format C (R110) -/

/-- OP, bits [7:0]. -/
def opField (w : Word) : BitVec 8 := w.extractLsb' 0 8

/-- BA, bits [9:8]. -/
def baField (w : Word) : BitVec 2 := w.extractLsb' 8 2

/-- BB, bits [11:10]. -/
def bbField (w : Word) : BitVec 2 := w.extractLsb' 10 2

/-- PA, bits [14:12]. -/
def paField (w : Word) : BitVec 3 := w.extractLsb' 12 3

/-- PB, bits [17:15]. -/
def pbField (w : Word) : BitVec 3 := w.extractLsb' 15 3

/-- RSVD, bits [31:18]. -/
def rsvdField (w : Word) : BitVec 14 := w.extractLsb' 18 14

/-! ### The opcode map (R114) -/

/-- The opcodes in the order of the table. -/
def Opcode.all : List Opcode :=
  [.nop, .getbit, .setbit, .fill, .revb, .setlen, .rdbyte, .wrbyte, .matchp, .seek, .lcdec, .dmdec,
   .crc8, .scan, .sreset, .dispatch]

/-- Column OP of R114. -/
def Opcode.code : Opcode → BitVec 8
  | .nop => 0x00#8
  | .getbit => 0x10#8
  | .setbit => 0x11#8
  | .fill => 0x12#8
  | .revb => 0x13#8
  | .setlen => 0x14#8
  | .rdbyte => 0x15#8
  | .wrbyte => 0x16#8
  | .matchp => 0x20#8
  | .seek => 0x21#8
  | .lcdec => 0x30#8
  | .dmdec => 0x40#8
  | .crc8 => 0x50#8
  | .scan => 0x60#8
  | .sreset => 0x61#8
  | .dispatch => 0x70#8

/-- The opcode of a value of OP; none for the 240 reserved values (R116). -/
def Opcode.ofCode (c : BitVec 8) : Option Opcode := Opcode.all.find? (fun o => o.code == c)

/-- Which of BA, BB, PA, PB the opcode uses (column "fields" of R114). -/
structure UsedFields where
  ba : Bool
  bb : Bool
  pa : Bool
  pb : Bool
deriving DecidableEq, Repr

/-- Column "fields" of R114. -/
def Opcode.uses : Opcode → UsedFields
  | .nop | .scan | .sreset => ⟨false, false, false, false⟩
  | .getbit | .setbit | .revb | .setlen | .rdbyte | .wrbyte | .crc8 | .dispatch => ⟨true, false, false, false⟩
  | .fill | .matchp | .seek => ⟨true, false, true, false⟩
  | .lcdec => ⟨true, true, true, true⟩
  | .dmdec => ⟨true, true, false, false⟩

/-- R112 (c): every field the opcode does not use is 0. -/
def Opcode.unusedZero (o : Opcode) (w : Word) : Bool :=
  (o.uses.ba || baField w == 0) && (o.uses.bb || bbField w == 0) &&
  (o.uses.pa || paField w == 0) && (o.uses.pb || pbField w == 0)

/-- The command of an opcode and a word's fields (R111, R141). -/
def Opcode.build (o : Opcode) (w : Word) : Instr :=
  let ba := (baField w).toFin
  let bb := (bbField w).toFin
  let pa := (paField w).toFin
  let pb := (pbField w).toFin
  match o with
  | .nop => .nop
  | .getbit => .getbit ba
  | .setbit => .setbit ba
  | .fill => .fill ba pa
  | .revb => .revb ba
  | .setlen => .setlen ba
  | .rdbyte => .rdbyte ba
  | .wrbyte => .wrbyte ba
  | .matchp => .matchp ba pa
  | .seek => .seek ba pa
  | .lcdec => .lcdec ba bb pa pb
  | .dmdec => .dmdec ba bb
  | .crc8 => .crc8 ba
  | .scan => .scan
  | .sreset => .sreset
  | .dispatch => .dispatch ba

/-! ### Decoding -/

/-- Why a command word is illegal (R112, R145). All three end in the same ILLEGAL outcome. -/
inductive DecodeError where
  /-- R112 (a): OP is none of the sixteen opcodes (R116). -/
  | reservedOpcode (op : BitVec 8)
  /-- R112 (b): RSVD is not 0. -/
  | reservedBits (rsvd : BitVec 14)
  /-- R112 (c): a field the opcode does not use is not 0. -/
  | unusedField (o : Opcode)
deriving DecidableEq, Repr

/-- Strict decoding of a command word (R112, R141). -/
def decode (w : Word) : Except DecodeError Instr :=
  match Opcode.ofCode (opField w) with
  | none => .error (.reservedOpcode (opField w))
  | some o =>
    if rsvdField w ≠ 0 then .error (.reservedBits (rsvdField w))
    else if o.unusedZero w then .ok (o.build w)
    else .error (.unusedField o)

/-- A legal command word (R112). -/
def legal (w : Word) : Bool :=
  match decode w with
  | .ok _ => true
  | .error _ => false

/-! ### The match and mask table (R115) -/

/-- A row of R115: a word is this opcode iff `w and mask = mtch`. -/
structure OpcodeRow where
  op : Opcode
  mtch : Word
  mask : Word
deriving DecidableEq, Repr

/-- The table of R115. -/
def opcodeTable : List OpcodeRow :=
  [⟨.nop, 0x00000000#32, 0xFFFFFFFF#32⟩,
   ⟨.getbit, 0x00000010#32, 0xFFFFFCFF#32⟩,
   ⟨.setbit, 0x00000011#32, 0xFFFFFCFF#32⟩,
   ⟨.fill, 0x00000012#32, 0xFFFF8CFF#32⟩,
   ⟨.revb, 0x00000013#32, 0xFFFFFCFF#32⟩,
   ⟨.setlen, 0x00000014#32, 0xFFFFFCFF#32⟩,
   ⟨.rdbyte, 0x00000015#32, 0xFFFFFCFF#32⟩,
   ⟨.wrbyte, 0x00000016#32, 0xFFFFFCFF#32⟩,
   ⟨.matchp, 0x00000020#32, 0xFFFF8CFF#32⟩,
   ⟨.seek, 0x00000021#32, 0xFFFF8CFF#32⟩,
   ⟨.lcdec, 0x00000030#32, 0xFFFC00FF#32⟩,
   ⟨.dmdec, 0x00000040#32, 0xFFFFF0FF#32⟩,
   ⟨.crc8, 0x00000050#32, 0xFFFFFCFF#32⟩,
   ⟨.scan, 0x00000060#32, 0xFFFFFFFF#32⟩,
   ⟨.sreset, 0x00000061#32, 0xFFFFFFFF#32⟩,
   ⟨.dispatch, 0x00000070#32, 0xFFFFFCFF#32⟩]

/-- The opcode of a command. -/
def Instr.opcode : Instr → Opcode
  | .nop => .nop
  | .getbit _ => .getbit
  | .setbit _ => .setbit
  | .fill _ _ => .fill
  | .revb _ => .revb
  | .setlen _ => .setlen
  | .rdbyte _ => .rdbyte
  | .wrbyte _ => .wrbyte
  | .matchp _ _ => .matchp
  | .seek _ _ => .seek
  | .lcdec _ _ _ _ => .lcdec
  | .dmdec _ _ => .dmdec
  | .crc8 _ => .crc8
  | .scan => .scan
  | .sreset => .sreset
  | .dispatch _ => .dispatch

/-! ### Encoding -/

/-- OP + (BA << 8) + (BB << 10) + (PA << 12) + (PB << 15) (R118). -/
def encodeFields (o : Opcode) (ba bb : BufIx) (pa pb : PatIx) : Word :=
  BitVec.ofNat 32 (o.code.toNat + ba.val * 2 ^ 8 + bb.val * 2 ^ 10 + pa.val * 2 ^ 12 + pb.val * 2 ^ 15)

/-- The command word of a command; an unused field is 0 (R112, R118). -/
def encode : Instr → Word
  | .nop => encodeFields .nop 0 0 0 0
  | .getbit ba => encodeFields .getbit ba 0 0 0
  | .setbit ba => encodeFields .setbit ba 0 0 0
  | .fill ba pa => encodeFields .fill ba 0 pa 0
  | .revb ba => encodeFields .revb ba 0 0 0
  | .setlen ba => encodeFields .setlen ba 0 0 0
  | .rdbyte ba => encodeFields .rdbyte ba 0 0 0
  | .wrbyte ba => encodeFields .wrbyte ba 0 0 0
  | .matchp ba pa => encodeFields .matchp ba 0 pa 0
  | .seek ba pa => encodeFields .seek ba 0 pa 0
  | .lcdec ba bb pa pb => encodeFields .lcdec ba bb pa pb
  | .dmdec ba bb => encodeFields .dmdec ba bb 0 0
  | .crc8 ba => encodeFields .crc8 ba 0 0 0
  | .scan => encodeFields .scan 0 0 0 0
  | .sreset => encodeFields .sreset 0 0 0 0
  | .dispatch ba => encodeFields .dispatch ba 0 0 0

/-! ### Assembler syntax (R118) -/

/-- The mnemonic of an opcode (R114). -/
def Opcode.mnemonic : Opcode → String
  | .nop => "NOP"
  | .getbit => "GETBIT"
  | .setbit => "SETBIT"
  | .fill => "FILL"
  | .revb => "REVB"
  | .setlen => "SETLEN"
  | .rdbyte => "RDBYTE"
  | .wrbyte => "WRBYTE"
  | .matchp => "MATCH"
  | .seek => "SEEK"
  | .lcdec => "LCDEC"
  | .dmdec => "DMDEC"
  | .crc8 => "CRC8"
  | .scan => "SCAN"
  | .sreset => "SRESET"
  | .dispatch => "DISPATCH"

/-- The used fields as text, in the order BA, BB, PA, PB (R118). -/
def Instr.asmFields : Instr → List String
  | .nop | .scan | .sreset => []
  | .getbit ba | .setbit ba | .revb ba | .setlen ba | .rdbyte ba | .wrbyte ba | .crc8 ba | .dispatch ba =>
    ["b" ++ toString ba.val]
  | .fill ba pa | .matchp ba pa | .seek ba pa => ["b" ++ toString ba.val, "p" ++ toString pa.val]
  | .lcdec ba bb pa pb =>
    ["b" ++ toString ba.val, "b" ++ toString bb.val, "p" ++ toString pa.val, "p" ++ toString pb.val]
  | .dmdec ba bb => ["b" ++ toString ba.val, "b" ++ toString bb.val]

/-- A command as assembler text: the mnemonic, then its fields separated by commas (R118). -/
def Instr.asm (i : Instr) : String :=
  match i.asmFields with
  | [] => i.opcode.mnemonic
  | fs => i.opcode.mnemonic ++ " " ++ String.intercalate ", " fs

/-! ### The host's question about a table row -/

/-- The command the decoder reads from an instruction of `nbits` bits whose bits are `w`. The one form is
one 32-bit word (R110, R117): a longer word is no command, and the bits a shorter one lacks are 0.
Assumption log 21. -/
def decodeTableWord (nbits w : Nat) : Option Instr :=
  let bits := w % 2 ^ nbits
  if bits < 2 ^ 32 then
    match decode (BitVec.ofNat 32 bits) with
    | .ok i => some i
    | .error _ => none
  else none

end Sys2Proof
end

