-- ==== Sys2Proof/Machine/State.lean ====
section
/-! DEFINITION. The state of RFDecodeCore (R30 to R45), the events its environment offers it (R351), why
a step can stop, and the state after reset. -/

namespace Sys2Proof.Machine

/-! ### Why a step stops -/

/-- Why the machine stops with a fault: never. RFDecodeCore has no trap and "nothing fatal occurs inside
the core itself" (R340, R348); every error is a status code and a next state (R341, R342). So there is no
constructor, and no step can answer with a fault. Safe. -/
inductive Fault
deriving DecidableEq, Repr

/-- Why a step has no meaning. -/
inductive Refusal where
  /-- Raised by `exec`'s arm of a command that has no meaning yet; none is left. Safe. -/
  | notModelled (mnemonic : String)
  /-- Raised by a host access that is not an aligned 32-bit access inside 0x0000 to 0x3FFC: "a model
  refuses such an access" (R88, I8). Safe: assumption log 6. -/
  | hostContract (widthBits : Nat) (offset : Nat)
  /-- Raised by a producer that advances WIDX before it has written the entry: "refuse: such a run is
  outside the contract" (R97, I13). Safe: assumption log 7. -/
  | producerContract
deriving DecidableEq, Repr

/-! ### The parts of the state -/

/-- A pattern register PATk (R34). -/
structure PatReg where
  /-- PATBITSk. -/
  bits : Word
  /-- PATLENk, a 6-bit field. -/
  len : BitVec 6
deriving DecidableEq, Repr

/-- A bit buffer BUF b (R35). Its capacity is configuration. -/
structure BitBuffer where
  /-- The byte array; an unlisted byte is 0x00. -/
  data : Memory
  /-- The count of valid bits, NUMBITSb. -/
  numbits : Word
deriving DecidableEq, Repr

/-- A pulse of the producer's ring (R270): a line level and a duration in microseconds. -/
structure Pulse where
  level : Bool
  duration : Word
deriving DecidableEq, Repr

/-- The MessageInfo record MI (R41). -/
structure MiRecord where
  /-- MI_STAT.VALID. -/
  valid : Bool
  /-- MI_DEC. -/
  dec : Word
  /-- MI_BITLEN. -/
  bitlen : Word
  /-- MI_NAME, NAME_MAX bytes. -/
  name : List Byte
  /-- MI_RAW, RAW_MAX bytes. -/
  raw : List Byte
  /-- MI_INFO1, INFO_MAX bytes. -/
  info1 : List Byte
  /-- MI_INFO2, INFO_MAX bytes. -/
  info2 : List Byte
  /-- MI_INFO3, INFO_MAX bytes. -/
  info3 : List Byte
  /-- MI_INFO4, INFO_MAX bytes. -/
  info4 : List Byte
deriving DecidableEq, Repr

/-- One step of the environment (R351). A host access names its width in bits and its offset from the
block's base address (R86, R88), so that an access outside the contract can be written down. -/
inductive Event where
  /-- The host reads a register. -/
  | hostRead (widthBits : Nat) (offset : Nat)
  /-- The host writes a register; a write to CMD issues a command (R140). -/
  | hostWrite (widthBits : Nat) (offset : Nat) (value : Word)
  /-- The producer writes a pulse and then publishes it (R272). -/
  | produce (level : Bool) (duration : Word)
  /-- The producer publishes an entry it has not written: outside its contract (R97, I13). -/
  | publishUnwritten
  /-- The block's reset input is asserted (R370). -/
  | reset
deriving DecidableEq, Repr

/-! ### The state -/

/-- The whole state: the core's own (R30), the producer's that it reads (R40), the configuration of this
model instance, which nothing writes (R42), and two fields of the model's own for the environment. -/
structure State where
  /-- The configuration (R6, R42): read by rules, written by none. Assumption log 1. -/
  cfg : Config
  /-- ARG0 to ARG3 (R32). -/
  args : Vector Word 4
  /-- RES (R33). -/
  res : Word
  /-- STATUS (R38): ERR in bits [3:0], FAULT in bit 8. -/
  status : Word
  /-- PAT0 to PAT7 (R34). -/
  pats : Vector PatReg 8
  /-- BUF0 to BUF3 (R35). -/
  bufs : Vector BitBuffer 4
  /-- DMPREV (R37). -/
  dmprev : Bool
  /-- SCAN_LAST (R39). -/
  scanLast : Word
  /-- SCAN_BEST (R39). -/
  scanBest : Word
  /-- SCAN_STAT.SIG_READY (R39). -/
  sigReady : Bool
  /-- SIG_START (R39). -/
  sigStart : Word
  /-- SIG_UNIT (R39). -/
  sigUnit : Word
  /-- The MessageInfo record (R41). -/
  mi : MiRecord
  /-- The producer's RING (R40, R270): (slot, pulse) pairs in canonical form; an unlisted slot holds
  `Pulse.zero`. -/
  ring : List (Nat × Pulse)
  /-- The producer's WIDX (R40, R271). -/
  widx : Word
  /-- The model's own: the events the environment has yet to perform, the next one first. Assumption log 3. -/
  pending : List Event
  /-- The model's own: the word the last host read returned to the host. Assumption log 4. -/
  readData : Option Word
deriving DecidableEq, Repr

/-- What an unlisted ring slot holds: level 0, duration 0. -/
def Pulse.zero : Pulse := ⟨false, 0#32⟩

/-! ### Reset (R45, R370) -/

/-- The cleared MessageInfo record (R45, R300). -/
def MiRecord.cleared (c : Config) : MiRecord where
  valid := false
  dec := notFound
  bitlen := 0#32
  name := List.replicate c.nameMax 0#8
  raw := List.replicate c.rawMax 0#8
  info1 := List.replicate c.infoMax 0#8
  info2 := List.replicate c.infoMax 0#8
  info3 := List.replicate c.infoMax 0#8
  info4 := List.replicate c.infoMax 0#8

/-- A core right after reset, for the configuration `c` and the producer state given (R45, R371: the core
does not reset the ring or WIDX). -/
def State.afterReset (c : Config) (ring : List (Nat × Pulse)) (widx : Word) : State where
  cfg := c
  args := Vector.replicate 4 0#32
  res := 0#32
  status := 0#32
  pats := Vector.replicate 8 ⟨0#32, 0#6⟩
  bufs := Vector.replicate 4 ⟨[], 0#32⟩
  dmprev := false
  scanLast := 0#32
  scanBest := 0#32
  sigReady := false
  sigStart := 0#32
  sigUnit := 0#32
  mi := MiRecord.cleared c
  ring := ring
  widx := widx
  pending := []
  readData := none

/-- The machine right after reset (R45). The spec leaves the configuration OPEN and gives the producer's
ring and WIDX no reset value: here they are the test configuration TC, an empty ring and 0.
DESIGN CHOICE, unsafe: assumption log 1 and 2. -/
def State.reset : State := State.afterReset Config.tc [] 0#32

end Sys2Proof.Machine
end

