-- ==== Sys2Proof/Machine/Flags.lean ====
section
/-! DEFINITION. STATUS and its fields: the status codes, ERR and the sticky FAULT bit (R38, R341 to R343). -/

namespace Sys2Proof.Machine

/-- The status codes (R341). -/
inductive Err where
  | ok
  | outOfBounds
  | notFound
  | noMatch
  | illegal
deriving DecidableEq, Repr

/-- The value of STATUS.ERR for a code (R38, R341). -/
def Err.code : Err → BitVec 4
  | .ok => 0#4
  | .outOfBounds => 1#4
  | .notFound => 2#4
  | .noMatch => 3#4
  | .illegal => 4#4

/-- STATUS.ERR, bits [3:0] (R38). -/
def statusErr (st : Word) : BitVec 4 := st.extractLsb' 0 4

/-- STATUS.FAULT, bit 8 (R38). -/
def statusFault (st : Word) : Bool := st.getLsbD 8

/-- STATUS with ERR replaced and every other bit kept (R142, R343: `finish` never changes FAULT). -/
def setErr (st : Word) (e : Err) : Word := (st &&& 0xFFFFFFF0#32) ||| e.code.setWidth 32

/-- STATUS with FAULT set (R343). -/
def setFault (st : Word) : Word := st ||| 0x00000100#32

/-- The bits of STATUS that R38 leaves without a field, [7:4] and [31:9], are 0, and ERR is one of the
five codes. -/
def statusLegal (st : Word) : Bool :=
  (st &&& 0xFFFFFEF0#32) == 0#32 && decide ((statusErr st).toNat ≤ 4)

/-- A 1-bit field as the low bit of a 32-bit register, the other bits reading 0 (R37, R39, R41). -/
def bitWord (b : Bool) : Word := if b then 1#32 else 0#32

end Sys2Proof.Machine
end

