-- ==== Sys2Proof/Machine/Operands.lean ====
section
/-! DEFINITION. Operands: argument registers (R113), pattern elements (R34, R84) and pattern literals
(R12). -/

namespace Sys2Proof.Machine

/-- ARGk as the natural number it spells (R113: no sign, no scaling). -/
def State.argNat (s : State) (k : ArgIx) : Nat := (s.args[k]).toNat

/-- Bit 0 of ARGk (R162: bits [31:1] are ignored). -/
def State.argBit (s : State) (k : ArgIx) : Bool := (s.args[k]).getLsbD 0

/-- Bits [7:0] of ARGk (R167, R251: bits [31:8] are ignored). -/
def State.argByte (s : State) (k : ArgIx) : Byte := (s.args[k]).setWidth 8

/-- plen(k), the length of a pattern (R10, R34). -/
def PatReg.plen (p : PatReg) : Nat := p.len.toNat

/-- Pat(k, i), element i of a pattern: bit i of PATBITSk (R34, R84). -/
def PatReg.elem (p : PatReg) (i : Nat) : Bool := p.bits.getLsbD i

/-- The elements of a pattern register, first element first (R34). -/
def PatReg.elems (p : PatReg) : List Bool := (List.range p.plen).map p.elem

/-- The pattern register that the host's write of the 32-bit value `v` to PATLENk leaves: min(v, 32) is
stored (R34). -/
def PatReg.setLen (p : PatReg) (v : Word) : PatReg := { p with len := BitVec.ofNat 6 (min v.toNat 32) }

/-- The elements of the pattern register named by a field. -/
def State.patElems (s : State) (p : PatIx) : List Bool := (s.pats[p]).elems

/-- A pattern literal: a list of the digits 0 and 1, first element first (R12). -/
def bits (l : List Nat) : List Bool := l.map (· == 1)

end Sys2Proof.Machine
end

