-- ==== Sys2Proof/Machine/Ops.lean ====
section
/-! DEFINITION. The shared operations: sparse storage, buffer bytes and bits (R81, R82), the pulse ring
(R85, R272), the two ways a command ends (R142) and the record clears. -/

namespace Sys2Proof.Machine

/-! ### Sparse storage in one canonical form -/

/-- What a list of (key, value) pairs holds at a key; an unlisted key holds `d`. -/
def sparseRead {β : Type} (d : β) : List (Nat × β) → Nat → β
  | [], _ => d
  | c :: m, a => if c.1 = a then c.2 else sparseRead d m a

/-- Replace the value at a key, keeping the keys rising and listing no value equal to `d`. -/
def sparseWrite {β : Type} [DecidableEq β] (d : β) : List (Nat × β) → Nat → β → List (Nat × β)
  | [], a, v => if v = d then [] else [(a, v)]
  | c :: m, a, v =>
    if a < c.1 then (if v = d then c :: m else (a, v) :: c :: m)
    else if a = c.1 then (if v = d then m else (a, v) :: m)
    else c :: sparseWrite d m a v

/-- The canonical form: keys strictly rising, no value equal to what an unlisted key holds. -/
abbrev sparseWf {β : Type} (d : β) (m : List (Nat × β)) : Prop :=
  m.Pairwise (fun x y => x.1 < y.1) ∧ ∀ c ∈ m, c.2 ≠ d

/-- The canonical list of the first `n` values of `f`. -/
def sparseOfFn {β : Type} [DecidableEq β] (d : β) (f : Nat → β) (n : Nat) : List (Nat × β) :=
  ((List.range n).map (fun j => (j, f j))).filter (fun c => decide (c.2 ≠ d))

/-! ### Buffer bytes and bits -/

/-- The canonical form of a buffer's bytes: indexes strictly rising, no byte 0x00 listed. -/
abbrev Memory.wf (m : Memory) : Prop := sparseWf (0#8) m

/-- `MemRead(BUF b, i, 1)` (R10, R81). An unlisted byte is 0x00, its reset value (R45). -/
def memRead (m : Memory) (i : Nat) : Byte := sparseRead 0#8 m i

/-- `MemWrite(BUF b, i, 1, v)` (R10, R81). -/
def memWrite (m : Memory) (i : Nat) (v : Byte) : Memory := sparseWrite 0#8 m i v

/-- `BitRead(b, p)`: bit 7 - (p mod 8) of byte p div 8 (R82). -/
def bitRead (m : Memory) (p : Nat) : Bool := (memRead m (p / 8)).getLsbD (7 - p % 8)

/-- The mask of a bit position within its byte (R82). -/
def bitMask (p : Nat) : Byte := 1#8 <<< (7 - p % 8)

/-- `BitWrite(b, p, v)` (R82). -/
def bitWrite (m : Memory) (p : Nat) (v : Bool) : Memory :=
  let byte := memRead m (p / 8)
  memWrite m (p / 8) (if v then byte ||| bitMask p else byte &&& (0xFF#8 ^^^ bitMask p))

/-- The bytes `lo`, …, `lo + n - 1` of a buffer, in increasing byte index (R250, R251). -/
def memBytes (m : Memory) (lo n : Nat) : List Byte := (List.range n).map (fun j => memRead m (lo + j))

/-- BUF b. -/
def State.buf (s : State) (b : BufIx) : BitBuffer := s.bufs[b]

/-- The state with BUF b replaced. -/
def State.setBuf (s : State) (b : BufIx) (x : BitBuffer) : State :=
  { s with bufs := s.bufs.set b.val x b.isLt }

/-- The state with the bytes of BUF b replaced. -/
def State.setData (s : State) (b : BufIx) (m : Memory) : State :=
  s.setBuf b { s.buf b with data := m }

/-- numbits(b) <- n. Every n that a rule stores fits 32 bits (R9). -/
def State.setNumbits (s : State) (b : BufIx) (n : Nat) : State :=
  s.setBuf b { s.buf b with numbits := BitVec.ofNat 32 n }

/-- Byte i of BUF b. -/
def State.readByte (s : State) (b : BufIx) (i : Nat) : Byte := memRead (s.buf b).data i

/-- Bit position p of BUF b (R82). -/
def State.readBit (s : State) (b : BufIx) (p : Nat) : Bool := bitRead (s.buf b).data p

/-- `BitWrite(b, p, v)` on the state (R82). -/
def State.writeBit (s : State) (b : BufIx) (p : Nat) (v : Bool) : State :=
  s.setData b (bitWrite (s.buf b).data p v)

/-- numbits(b). -/
def State.numbits (s : State) (b : BufIx) : Nat := (s.buf b).numbits.toNat

/-- CAP_BYTES[b]. -/
def State.cap (s : State) (b : BufIx) : Nat := s.cfg.cap b

/-- capbits(b) = 8 * CAP_BYTES[b] (R160). -/
def State.capBits (s : State) (b : BufIx) : Nat := s.cfg.capBits b

/-- x[RES] <- v. Every v that a rule stores fits 32 bits (R9). -/
def State.setRes (s : State) (v : Nat) : State := { s with res := BitVec.ofNat 32 v }

/-- x[DMPREV] <- v (R233). -/
def State.setDmprev (s : State) (v : Bool) : State := { s with dmprev := v }

/-- x[STATUS] <- v (R142, R343). -/
def State.setStatus (s : State) (v : Word) : State := { s with status := v }

/-! ### The producer's ring -/

/-- The canonical form of the ring: slots strictly rising, no `Pulse.zero` listed. -/
abbrev ringWf (r : List (Nat × Pulse)) : Prop := sparseWf Pulse.zero r

/-- `Ring(j)`: the pulse at logical index j, in slot j mod RING_SIZE (R85, R270). -/
def State.ringAt (s : State) (j : Word) : Pulse := sparseRead Pulse.zero s.ring (j.toNat % s.cfg.ringSize)

/-- `produce(level, duration)` (R272): the entry is written first, then WIDX advances, mod 2^32. -/
def State.produce (s : State) (level : Bool) (duration : Word) : State :=
  { s with
    ring := sparseWrite Pulse.zero s.ring (s.widx.toNat % s.cfg.ringSize) ⟨level, duration⟩
    widx := s.widx + 1#32 }

/-! ### The record clears and the reset input -/

/-- `clear_MI()` (R300). -/
def State.clearMi (s : State) : State := { s with mi := MiRecord.cleared s.cfg }

/-- The reset input (R370): every piece of core state takes its reset value, and the producer's ring and
WIDX are kept (R371). The configuration, the environment's list and the word the host last read are no
core state and are kept (R30, R42). Assumption log 8. -/
def State.coreReset (s : State) : State :=
  { State.afterReset s.cfg s.ring s.widx with pending := s.pending, readData := s.readData }

/-! ### How a command ends -/

/-- The answer of a command. -/
abbrev Answer := Host.Outcome State Fault Refusal

/-- `finish(code)`: the writes made stand, STATUS.ERR <- code, FAULT unchanged (R10, R142, R343). -/
def State.finish (s : State) (e : Err) : Answer := .next (s.setStatus (setErr s.status e))

/-- `raise Error(code)`: STATUS.ERR <- code, STATUS.FAULT <- 1, nothing else changes (R10, R142, R342,
R343). This is all there is to taking an exception: no state is saved, no mode changes and nothing is
vectored (R340, R348), so there is no return from one. -/
def State.raise (s : State) (e : Err) : Answer := .next (s.setStatus (setFault (setErr s.status e)))

end Sys2Proof.Machine
end

