-- ==== Sys2Proof/Machine/BitBuffer.lean ====
section
/-! DEFINITION. The BitBuffer commands (R160 to R167). Every bound is the capacity, not numbits (R160). -/

namespace Sys2Proof.Machine

/-- `GETBIT bA` (R161): RES <- bit ARG0 of BUF[BA]. -/
def execGetbit (ba : BufIx) (s : State) : Answer :=
  let p := s.argNat 0
  if s.capBits ba ≤ p then s.raise .outOfBounds
  else (s.setRes (s.readBit ba p).toNat).finish .ok

/-- `SETBIT bA` (R162): bit ARG0 of BUF[BA] <- ARG1[0]. -/
def execSetbit (ba : BufIx) (s : State) : Answer :=
  let p := s.argNat 0
  if s.capBits ba ≤ p then s.raise .outOfBounds
  else (s.writeBit ba p (s.argBit 1)).finish .ok

/-- Bit positions 0, …, m - 1, in that order, receive `f 0`, …, `f (m - 1)` (R163). -/
def fillBits (f : Nat → Bool) : Nat → Memory → Memory
  | 0, mem => mem
  | m + 1, mem => bitWrite (fillBits f m mem) m (f m)

/-- The count of positions FILL writes: 0 for the empty pattern, else min(n, capbits) (R163). -/
def fillCount (n capBits plen : Nat) : Nat := if plen = 0 then 0 else min n capBits

/-- `FILL bA, pP` (R163): positions 0 to m-1 receive the pattern repeated, RES <- m. -/
def execFill (ba : BufIx) (pa : PatIx) (s : State) : Answer :=
  let pat := s.pats[pa]
  let m := fillCount (s.argNat 0) (s.capBits ba) pat.plen
  let filled := fillBits (fun i => pat.elem (i % pat.plen)) m (s.buf ba).data
  ((s.setData ba filled).setRes m).finish .ok

/-- The byte array of `n` bytes in reversed byte order: byte j takes byte n-1-j, all reads before any
write (R164). -/
def reverseBytes (n : Nat) (mem : Memory) : Memory := sparseOfFn 0#8 (fun j => memRead mem (n - 1 - j)) n

/-- `REVB bA` (R164): the byte order of the whole capacity is reversed. -/
def execRevb (ba : BufIx) (s : State) : Answer :=
  (s.setData ba (reverseBytes (s.cap ba) (s.buf ba).data)).finish .ok

/-- `SETLEN bA` (R165): numbits(BA) <- ARG0. -/
def execSetlen (ba : BufIx) (s : State) : Answer :=
  let n := s.argNat 0
  if s.capBits ba < n then s.raise .outOfBounds
  else (s.setNumbits ba n).finish .ok

/-- `RDBYTE bA` (R166): RES <- byte ARG0 of BUF[BA], zero-extended. -/
def execRdbyte (ba : BufIx) (s : State) : Answer :=
  let i := s.argNat 0
  if s.cap ba ≤ i then s.raise .outOfBounds
  else (s.setRes (s.readByte ba i).toNat).finish .ok

/-- `WRBYTE bA` (R167): byte ARG0 of BUF[BA] <- ARG1[7:0]. -/
def execWrbyte (ba : BufIx) (s : State) : Answer :=
  let i := s.argNat 0
  if s.cap ba ≤ i then s.raise .outOfBounds
  else (s.setData ba (memWrite (s.buf ba).data i (s.argByte 1))).finish .ok

end Sys2Proof.Machine
end

