-- ==== Sys2Proof/Machine/Control.lean ====
section
/-! DEFINITION. NOP (R144). Illegal words are `issue`'s, in Issue.lean (R145). -/

namespace Sys2Proof.Machine

/-- `NOP`: `finish(OK)` and nothing else (R144). -/
def execNop (s : State) : Answer := s.finish .ok

end Sys2Proof.Machine
end

