-- ==== Sys2Proof/Machine/Crc8.lean ====
section
/-! DEFINITION. The CRC function and CRC8 (R250, R251). -/

namespace Sys2Proof.Machine

/-- One shift of the remainder: when the bit shifted out is 1, the polynomial is XORed in (R250). -/
def crcShift (poly crc : Byte) : Byte := if crc.getLsbD 7 then (crc <<< 1) ^^^ poly else crc <<< 1

/-- `n` shifts. -/
def crcShifts (poly : Byte) : Nat → Byte → Byte
  | 0, crc => crc
  | n + 1, crc => crcShifts poly n (crcShift poly crc)

/-- One byte: XORed into the remainder, then eight shifts (R250). -/
def crcByte (poly crc byte : Byte) : Byte := crcShifts poly 8 (crc ^^^ byte)

/-- The CRC function: bytes in increasing index from `init`, no final XOR, no reflection (R250). -/
def crc8 (bytes : List Byte) (init poly : Byte) : Byte := bytes.foldl (crcByte poly) init

/-- `CRC8 bA` (R251): RES <- the CRC of bytes ARG0 to ARG0+ARG1-1, init ARG2[7:0], poly ARG3[7:0]. -/
def execCrc8 (ba : BufIx) (s : State) : Answer :=
  let off := s.argNat 0
  let len := s.argNat 1
  if s.cap ba < off + len then s.raise .outOfBounds
  else (s.setRes (crc8 (memBytes (s.buf ba).data off len) (s.argByte 2) (s.argByte 3)).toNat).finish .ok

end Sys2Proof.Machine
end

