-- ==== Sys2Proof/Machine/DiffManchester.lean ====
section
/-! DEFINITION. The decode table, the decode function and DMDEC (R230 to R234), and the matching encoder
(R235). -/

namespace Sys2Proof.Machine

/-- DM_TABLE(pv, b0, b1) (R230). -/
def dmAction (t : DmTable) (pv b0 b1 : Bool) : DmAction :=
  t.rows[4 * pv.toNat + 2 * b0.toNat + b1.toNat]'(by
    have := pv.toNat_lt; have := b0.toNat_lt; have := b1.toNat_lt; omega)

/-- What the decode function leaves (R232): where the output went, the count and the last level. -/
structure DmResult (σ : Type) where
  out : σ
  count : Nat
  level : Bool
deriving DecidableEq, Repr

/-- The loop of the decode function (R232). The symbols are read by `rd` and the output bits written by
`wr` on a value `o` that holds the output (and, for an in-place decode, the input too, R234). `room` is
the output capacity less `cnt`. -/
def dmLoop {σ : Type} (t : DmTable) (rd : σ → Nat → Bool) (wr : σ → Nat → Bool → σ) (numbits : Nat) :
    Nat → σ → Nat → Nat → Bool → DmResult σ
  | 0, o, _, cnt, pv => ⟨o, cnt, pv⟩
  | room + 1, o, cur, cnt, pv =>
    if numbits < cur + 2 then ⟨o, cnt, pv⟩
    else
      let b0 := rd o cur
      let b1 := rd o (cur + 1)
      match dmAction t pv b0 b1 with
      | .stop => ⟨o, cnt, pv⟩
      | .emit0 => dmLoop t rd wr numbits room (wr o cnt false) (cur + 2) (cnt + 1) b1
      | .emit1 => dmLoop t rd wr numbits room (wr o cnt true) (cur + 2) (cnt + 1) b1

/-- The decode function on the state's buffers, which may be one buffer (R232, R234). -/
def dmState (s : State) (src dst : BufIx) (off : Nat) (pv : Bool) : DmResult State :=
  dmLoop s.cfg.dmTable (fun t p => t.readBit src p) (fun t p v => t.writeBit dst p v) (s.numbits src)
    (s.capBits dst) s off 0 pv

/-- The decode function from a bit buffer into a fresh zeroed array of `outBits` bits (R232, R314). -/
def dmPure (t : DmTable) (b : BitBuffer) (outBits off : Nat) (pv : Bool) : DmResult Memory :=
  dmLoop t (fun _ p => bitRead b.data p) bitWrite b.numbits.toNat outBits [] off 0 pv

/-- `DMDEC bS, bD` (R233): numbits(BB) and RES receive the count, DMPREV the final level. -/
def execDmdec (ba bb : BufIx) (s : State) : Answer :=
  let r := dmState s ba bb (s.argNat 0) s.dmprev
  (((r.out.setNumbits bb r.count).setRes r.count).setDmprev r.level).finish .ok

/-- The matching encoder (R235): data bits to symbols, from the level `pv`. -/
def dmEncode : Bool → List Bool → List Bool
  | _, [] => []
  | pv, v :: vs =>
    let b0 := !pv
    let b1 := if v then b0 else !b0
    b0 :: b1 :: dmEncode b1 vs

end Sys2Proof.Machine
end

