-- ==== Sys2Proof/Machine/PatternSearch.lean ====
section
/-! DEFINITION. The match and seek functions and their commands (R190 to R193). The functions take a bit
buffer and a pattern's elements, so that the decoders use them too (R190). -/

namespace Sys2Proof.Machine

/-- The match function (R190): false when the comparison would run past `numbits`; the sum is exact. -/
def matchAt (b : BitBuffer) (pos : Nat) (pat : List Bool) : Bool :=
  decide (pos + pat.length ≤ b.numbits.toNat) &&
  (List.range pat.length).all (fun i => bitRead b.data (pos + i) == pat.getD i false)

/-- The first of the positions `p`, `p + 1`, …, `p + n - 1` at which the pattern matches. -/
def firstMatch (b : BitBuffer) (pat : List Bool) : Nat → Nat → Option Nat
  | 0, _ => none
  | n + 1, p => if matchAt b p pat then some p else firstMatch b pat n (p + 1)

/-- The seek function (R192): the lowest p with start <= p < start + max_bits and p <= numbits at which the
pattern matches. `none` is the rule's NOT_FOUND, which no position equals while numbits <= 2^31.
DEDUCED, safe: assumption log 12. -/
def seekFrom (b : BitBuffer) (start maxBits : Nat) (pat : List Bool) : Option Nat :=
  firstMatch b pat (min maxBits (b.numbits.toNat + 1 - start)) start

/-- `MATCH bA, pP` (R191): RES <- 1 when the pattern matches at ARG0, else 0; never an error. -/
def execMatchp (ba : BufIx) (pa : PatIx) (s : State) : Answer :=
  (s.setRes (matchAt (s.buf ba) (s.argNat 0) (s.patElems pa)).toNat).finish .ok

/-- `SEEK bA, pP` (R193): RES <- the position found, or NOT_FOUND with ERR = NOT_FOUND. -/
def execSeek (ba : BufIx) (pa : PatIx) (s : State) : Answer :=
  match seekFrom (s.buf ba) (s.argNat 0) (s.argNat 1) (s.patElems pa) with
  | some p => (s.setRes p).finish .ok
  | none => (s.setRes notFound.toNat).finish .notFound

end Sys2Proof.Machine
end

