-- ==== Sys2Proof/Machine/LineCode.lean ====
section
/-! DEFINITION. The line-code function and LCDEC (R210 to R212). -/

namespace Sys2Proof.Machine

/-- The loop of the line-code function (R210) on the state's buffers, source `src` and destination `dst`
(which may be one buffer, R212), with `room` = capbits(dst) - cnt positions left to write. numbits is read
as it stands, and the loop does not write it. Answers the state and the count. -/
def lcLoop (src dst : BufIx) (zero one : List Bool) : Nat → State → Nat → Nat → State × Nat
  | 0, s, _, cnt => (s, cnt)
  | room + 1, s, cur, cnt =>
    if matchAt (s.buf src) cur zero then
      lcLoop src dst zero one room (s.writeBit dst cnt false) (cur + zero.length) (cnt + 1)
    else if matchAt (s.buf src) cur one then
      lcLoop src dst zero one room (s.writeBit dst cnt true) (cur + one.length) (cnt + 1)
    else (s, cnt)

/-- `LCDEC bS, bD, pZ, pO` (R211): numbits(BB) and RES receive the count of bits decoded. -/
def execLcdec (ba bb : BufIx) (pa pb : PatIx) (s : State) : Answer :=
  let r := lcLoop ba bb (s.patElems pa) (s.patElems pb) (s.capBits bb) s (s.argNat 0) 0
  ((r.1.setNumbits bb r.2).setRes r.2).finish .ok

/-- The encoder the round-trip law is about (R213): each data bit as its template's elements. -/
def lcEncode (zero one : List Bool) (data : List Bool) : List Bool :=
  data.flatMap (fun v => if v then one else zero)

end Sys2Proof.Machine
end

