-- ==== Sys2Proof/Machine/Toyota.lean ====
section
/-! DEFINITION. The Toyota TPMS decoder, the default content of the registry (R310 to R317). -/

namespace Sys2Proof.Machine

/-- The ASCII codes of a text, given as its characters (R300). -/
def ascii (l : List Char) : List Byte := l.map (fun c => BitVec.ofNat 8 c.toNat)

/-- The sync variants S1 to S4, in the order they are tried (R311). -/
def toyotaSyncs : List (List Bool) :=
  [bits [0, 0, 1, 1, 1, 1, 0, 0],
   bits [0, 0, 1, 1, 1, 1, 1, 0, 0],
   bits [0, 0, 1, 1, 1, 1, 0, 1],
   bits [0, 0, 1, 1, 1, 1, 1, 0, 1]]

/-- The data offset of the first variant found anywhere in the valid bits: p + len(S) - 2; none when no
variant is found (R312, R313). -/
def findSync (b : BitBuffer) : List (List Bool) → Option Nat
  | [] => none
  | sync :: rest =>
    match seekFrom b 0 b.numbits.toNat sync with
    | some p => some (p + sync.length - 2)
    | none => findSync b rest

/-- One hexadecimal digit, uppercase (R317). -/
def hexDigit (n : Nat) : Byte := if n < 10 then BitVec.ofNat 8 (0x30 + n) else BitVec.ofNat 8 (0x41 + (n - 10))

/-- Bytes as uppercase hexadecimal characters, 2 per byte, high nibble first, no separators (R317). -/
def hexUpper (bytes : List Byte) : List Byte :=
  bytes.flatMap (fun x => [hexDigit (x.toNat / 16), hexDigit (x.toNat % 16)])

/-- A natural number below 1000 in decimal, no leading zeros (R317). -/
def decimalNat (n : Nat) : List Byte :=
  let digit (d : Nat) : Byte := BitVec.ofNat 8 (0x30 + d)
  if n < 10 then [digit n]
  else if n < 100 then [digit (n / 10), digit (n % 10)]
  else [digit (n / 100), digit (n / 10 % 10), digit (n % 10)]

/-- An integer in decimal, a leading "-" for a negative value, no "+" (R317). -/
def decimalInt (z : Int) : List Byte :=
  if z < 0 then ascii ['-'] ++ decimalNat z.natAbs else decimalNat z.natAbs

/-- The temperature of a message: a signed integer in -40 to 215 (R316). -/
def toyotaTemp (raw : List Byte) : Int :=
  ((((raw.getD 5 0#8 &&& 0x7F#8) <<< 1) ||| (raw.getD 6 0#8 >>> 7)).toNat : Int) - 40

/-- "Toyota TPMS" (R310). -/
def toyotaName : List Byte := ascii ['T', 'o', 'y', 'o', 't', 'a', ' ', 'T', 'P', 'M', 'S']

/-- "Temperature " ++ DEC(temp) ++ " C" (R317). -/
def toyotaInfo2 (raw : List Byte) : List Byte :=
  ascii ['T', 'e', 'm', 'p', 'e', 'r', 'a', 't', 'u', 'r', 'e', ' '] ++ decimalInt (toyotaTemp raw) ++
    ascii [' ', 'C']

/-- The result of a decode whose data starts at `off` and whose nine bytes are `raw` (R317). -/
def toyotaResult (raw : List Byte) (off : Nat) : MessageInfo where
  name := toyotaName
  raw := hexUpper raw
  info1 := []
  info2 := toyotaInfo2 raw
  info3 := []
  info4 := []
  bitlen := BitVec.ofNat 32 (off + 144)

/-- The decoder (R310 to R317), on its read-only input buffer and the configured DM_TABLE (R314). `none`
is FAIL: no sync, fewer than 72 bits, or a wrong check byte (R346: which one is not observable). The
scratch array is nine zeroed bytes, the previous level is 1 and DMPREV is neither read nor written
(R314). -/
def toyotaDecode (t : DmTable) (b : BitBuffer) : Option MessageInfo :=
  match findSync b toyotaSyncs with
  | none => none
  | some off =>
    let r := dmPure t b 72 off true
    if r.count < 72 then none
    else
      let raw := memBytes r.out 0 9
      if crc8 (raw.take 8) 0x80#8 0x07#8 ≠ raw.getD 8 0#8 then none
      else some (toyotaResult raw off)

end Sys2Proof.Machine
end

