-- ==== Sys2Proof/Machine/Registry.lean ====
section
/-! DEFINITION. The decoder registry and DISPATCH (R300 to R305). -/

namespace Sys2Proof.Machine

/-- A text in a field of `n` bytes: its first `n` characters, then 0x00 bytes (R301). -/
def fieldBytes (n : Nat) (text : List Byte) : List Byte :=
  text.take n ++ List.replicate (n - text.length) 0#8

/-- `publish(k, m)` (R301). -/
def State.publish (s : State) (k : Nat) (m : MessageInfo) : State :=
  { s with
    mi := {
      valid := true
      dec := BitVec.ofNat 32 k
      bitlen := m.bitlen
      name := fieldBytes s.cfg.nameMax m.name
      raw := fieldBytes s.cfg.rawMax m.raw
      info1 := fieldBytes s.cfg.infoMax m.info1
      info2 := fieldBytes s.cfg.infoMax m.info2
      info3 := fieldBytes s.cfg.infoMax m.info3
      info4 := fieldBytes s.cfg.infoMax m.info4 } }

/-- A registered decoder's function on a source buffer of `numbytes` bytes (R302). -/
def runDecoder (c : Config) (f : DecoderFn) (b : BitBuffer) (numbytes : Nat) : Option MessageInfo :=
  match f with
  | .toyotaTpms => toyotaDecode c.dmTable b
  | .configured k => (Config.configuredDecoder k b.data numbytes b.numbits.toNat).map Subtype.val

/-- The first decoder, from index `k` on, whose result is not FAIL, and its result (R302, R303). -/
def firstDecoded (c : Config) (b : BitBuffer) (numbytes : Nat) :
    List DecoderEntry → Nat → Option (Nat × MessageInfo)
  | [], _ => none
  | d :: ds, k =>
    match runDecoder c d.fn b numbytes with
    | some m => some (k, m)
    | none => firstDecoded c b numbytes ds (k + 1)

/-- MI cleared, and the detected signal consumed when the source is BUF0 (R303). -/
def State.beginDispatch (s : State) (ba : BufIx) : State :=
  { s.clearMi with sigReady := if ba = 0 then false else s.sigReady }

/-- `DISPATCH bA` (R303): the first decoder that claims the buffer publishes and RES <- its index; else
RES <- NOT_FOUND with ERR = NO_MATCH. -/
def execDispatch (ba : BufIx) (s : State) : Answer :=
  let s1 := s.beginDispatch ba
  match firstDecoded s.cfg (s.buf ba) (s.cap ba) s.cfg.decoders 0 with
  | some (k, m) => ((s1.publish k m).setRes k).finish .ok
  | none => (s1.setRes notFound.toNat).finish .noMatch

end Sys2Proof.Machine
end

