-- ==== Sys2Proof/Machine/Scanner.lean ====
section
/-! DEFINITION. The coherence measure (R273 to R278), the scan (R279 to R284) and SRESET (R285). The
measure and the copy read pulses through a function `ring` from logical indexes to pulses: the ring as it
stands when SCAN starts (R98). -/

namespace Sys2Proof.Machine

/-! ### The coherence measure -/

/-- duration_delta(a, b) = |a - b| (R273). -/
def durationDelta (a b : Nat) : Nat := if a ≤ b then b - a else a - b

/-- One timing class: the pulses it has taken and their floored running average (R274). -/
structure TimingClass where
  avg : Nat
  cnt : Nat
deriving DecidableEq, Repr

/-- Whether a class accepts a duration: an empty class always does, another within the tolerance, the
product exact (R275). -/
def TimingClass.accepts (tolDiv : Nat) (c : TimingClass) (d : Nat) : Bool :=
  c.cnt == 0 || decide (durationDelta d c.avg * tolDiv < c.avg)

/-- The class after it has taken a duration (R276). -/
def TimingClass.take (c : TimingClass) (d : Nat) : TimingClass :=
  ⟨(c.avg * c.cnt + d) / (c.cnt + 1), c.cnt + 1⟩

/-- The classes of one level after the first that accepts has taken the duration; none when no class
accepts (R275). -/
def joinClass (tolDiv : Nat) : List TimingClass → Nat → Option (List TimingClass)
  | [], _ => none
  | c :: cs, d =>
    if c.accepts tolDiv d then some (c.take d :: cs) else (joinClass tolDiv cs d).map (c :: ·)

/-- The class table: NCLASS classes for each level (R274). -/
structure ClassTable where
  low : List TimingClass
  high : List TimingClass
deriving DecidableEq, Repr

/-- The table at the start of a run: every class empty (R274). -/
def ClassTable.empty (nclass : Nat) : ClassTable :=
  ⟨List.replicate nclass ⟨0, 0⟩, List.replicate nclass ⟨0, 0⟩⟩

/-- The classes of a level. -/
def ClassTable.level (t : ClassTable) (lv : Bool) : List TimingClass := if lv then t.high else t.low

/-- The table with the classes of a level replaced. -/
def ClassTable.setLevel (t : ClassTable) (lv : Bool) (cs : List TimingClass) : ClassTable :=
  if lv then { t with high := cs } else { t with low := cs }

/-- The table after a pulse has joined the run; none when the pulse ends it, its duration out of range or
no class accepting it (R275, R277 (c) and (d)). -/
def joinRun (c : Config) (t : ClassTable) (p : Pulse) : Option ClassTable :=
  let d := p.duration.toNat
  if d < c.durMin ∨ c.durMax < d then none
  else (joinClass c.tolDiv (t.level p.level) d).map (t.setLevel p.level)

/-- The loop of the run function (R277): at most `n` more pulses, `len` taken so far. -/
def runLoop (c : Config) (ring : Word → Pulse) (k0 : Word) : Nat → Nat → ClassTable → Nat × ClassTable
  | 0, len, t => (len, t)
  | n + 1, len, t =>
    match joinRun c t (ring (k0 + BitVec.ofNat 32 len)) with
    | none => (len, t)
    | some t' => runLoop c ring k0 n (len + 1) t'

/-- The unit: the smallest average among the populated classes of either level, 0 when there is none
(R277, R278). -/
def ClassTable.unit (t : ClassTable) : Nat :=
  (((t.low ++ t.high).filter (fun x => decide (1 ≤ x.cnt))).map TimingClass.avg).min?.getD 0

/-- What the run function returns (R277). -/
structure Run where
  len : Nat
  unit : Nat
deriving DecidableEq, Repr

/-- `run(k0, maxn)` (R277). -/
def measureRun (c : Config) (ring : Word → Pulse) (k0 : Word) (maxn : Nat) : Run :=
  let r := runLoop c ring k0 (min maxn c.maxRun) 0 (ClassTable.empty c.nclass)
  ⟨r.1, r.2.unit⟩

/-! ### The copy (R283) -/

/-- The symbol bits of a pulse: d / unit rounded half up, and at least 1 (R283 (2)). -/
def symbolCount (unit d : Nat) : Nat := max 1 ((d + unit / 2) / unit)

/-- `n` bits of level `lv` at positions pos, pos + 1, … (R283 (2)). -/
def writeLevel (lv : Bool) (pos : Nat) : Nat → Memory → Memory
  | 0, mem => mem
  | n + 1, mem => bitWrite (writeLevel lv pos n mem) (pos + n) lv

/-- The pulses of the copy: `n` more pulses from logical index `k`, writing from position `pos` and
stopping at the capacity (R283 (3)). Answers the bytes and the count of bits written. -/
def copyLoop (ring : Word → Pulse) (unit capBits : Nat) : Nat → Word → Memory → Nat → Memory × Nat
  | 0, _, mem, pos => (mem, pos)
  | n + 1, k, mem, pos =>
    let p := ring k
    let m := min (symbolCount unit p.duration.toNat) (capBits - pos)
    copyLoop ring unit capBits n (k + 1#32) (writeLevel p.level pos m mem) (pos + m)

/-- `copy(k0, L, unit)`: the buffer that the run's conversion leaves, its bytes zeroed first (R283). -/
def convertRun (ring : Word → Pulse) (capBits : Nat) (k0 : Word) (r : Run) : BitBuffer :=
  let m := copyLoop ring r.unit capBits r.len k0 [] 0
  ⟨m.1, BitVec.ofNat 32 m.2⟩

/-! ### The scan -/

/-- The scan window (R279): where it starts and how many pulses it holds. -/
structure ScanWindow where
  base : Word
  avail : Nat
deriving DecidableEq, Repr

/-- The pulses written since the last scan, clipped to the RING_SIZE newest (R279). -/
def State.scanWindow (s : State) : ScanWindow :=
  let avail := (s.widx - s.scanLast).toNat
  if s.cfg.ringSize < avail then ⟨s.widx - BitVec.ofNat 32 s.cfg.ringSize, s.cfg.ringSize⟩
  else ⟨s.scanLast, avail⟩

/-- The copy condition (R281). -/
def copyCondition (s : State) (k0 : Word) (len : Nat) : Bool :=
  decide (s.cfg.minRun ≤ len) && decide (s.scanBest.toNat ≤ len) &&
  !(decide (0 < s.scanBest.toNat) && k0 == s.sigStart && len == s.scanBest.toNat)

/-- The state after a run has been copied into BUF0 and recorded (R281, R283). -/
def State.takeSignal (s : State) (ring : Word → Pulse) (k0 : Word) (r : Run) : State :=
  { s.setBuf 0 (convertRun ring (s.capBits 0) k0 r) with
    scanBest := BitVec.ofNat 32 r.len
    sigStart := k0
    sigUnit := BitVec.ofNat 32 r.unit
    sigReady := true }

/-- What the walk carries: the state, the SCAN_LAST to come (R282) and whether a run was copied (R284). -/
structure ScanAcc where
  st : State
  newLast : Word
  copied : Bool
deriving DecidableEq, Repr

/-- What the walk does with one measured run: the copy condition (R281) and the SCAN_LAST test (R282). -/
def scanVisit (ring : Word → Pulse) (k0 : Word) (r : Run) (atEnd : Bool) (a : ScanAcc) : ScanAcc :=
  let copies := copyCondition a.st k0 r.len
  { st := if copies then a.st.takeSignal ring k0 r else a.st
    newLast := if decide (0 < r.len) && atEnd then k0 else a.newLast
    copied := a.copied || copies }

/-- The walk (R280) from window offset `i`, with at most `n` runs left to measure. -/
def scanWalk (c : Config) (ring : Word → Pulse) (w : ScanWindow) : Nat → Nat → ScanAcc → ScanAcc
  | 0, _, a => a
  | n + 1, i, a =>
    if w.avail ≤ i then a
    else
      let k0 := w.base + BitVec.ofNat 32 i
      let r := measureRun c ring k0 (w.avail - i)
      scanWalk c ring w n (i + max r.len 1) (scanVisit ring k0 r (i + r.len == w.avail) a)

/-- x[SCAN_LAST] <- v (R282). -/
def State.setScanLast (s : State) (v : Word) : State := { s with scanLast := v }

/-- `SCAN` (R284): RES <- 1 when a run was copied in this SCAN, and 0 otherwise. -/
def execScan (s : State) : Answer :=
  let w := s.scanWindow
  let a := scanWalk s.cfg s.ringAt w w.avail 0 ⟨s, s.widx, false⟩
  ((a.st.setScanLast a.newLast).setRes a.copied.toNat).finish .ok

/-- The scanner registers and BUF0 cleared, and the pulses already in the ring skipped (R285). -/
def State.clearScanner (s : State) : State :=
  { s.setBuf 0 ⟨[], 0#32⟩ with
    scanBest := 0#32
    sigReady := false
    sigStart := 0#32
    sigUnit := 0#32
    scanLast := s.widx }

/-- `SRESET` (R285). -/
def execSreset (s : State) : Answer := (s.clearScanner.clearMi).finish .ok

end Sys2Proof.Machine
end

