-- ==== Sys2Proof/Machine/Dispatch.lean ====
section
/-! DEFINITION. One arm for each command: the rule of its opcode (R114, R141). -/

namespace Sys2Proof.Machine

def exec (i : Instr) (s : State) : Host.Outcome State Fault Refusal :=
  match i with
  | .nop => Sys2Proof.Machine.execNop s
  | .getbit ba => Sys2Proof.Machine.execGetbit ba s
  | .setbit ba => Sys2Proof.Machine.execSetbit ba s
  | .fill ba pa => Sys2Proof.Machine.execFill ba pa s
  | .revb ba => Sys2Proof.Machine.execRevb ba s
  | .setlen ba => Sys2Proof.Machine.execSetlen ba s
  | .rdbyte ba => Sys2Proof.Machine.execRdbyte ba s
  | .wrbyte ba => Sys2Proof.Machine.execWrbyte ba s
  | .matchp ba pa => Sys2Proof.Machine.execMatchp ba pa s
  | .seek ba pa => Sys2Proof.Machine.execSeek ba pa s
  | .lcdec ba bb pa pb => Sys2Proof.Machine.execLcdec ba bb pa pb s
  | .dmdec ba bb => Sys2Proof.Machine.execDmdec ba bb s
  | .crc8 ba => Sys2Proof.Machine.execCrc8 ba s
  | .scan => Sys2Proof.Machine.execScan s
  | .sreset => Sys2Proof.Machine.execSreset s
  | .dispatch ba => Sys2Proof.Machine.execDispatch ba s

end Sys2Proof.Machine
end

