-- ==== Sys2Proof/Machine/HostBus.lean ====
section
/-! DEFINITION. The host register space: the register map (R87), access width and alignment (R88),
reserved offsets (R89) and what a read and a write do (R90). -/

namespace Sys2Proof.Machine

/-- The registers of the map (R87). -/
inductive HostReg where
  | cmd
  | status
  | res
  | arg (k : ArgIx)
  | dmprev
  | widx
  | scanLast
  | scanBest
  | scanStat
  | sigStart
  | sigUnit
  | patBits (k : PatIx)
  | patLen (k : PatIx)
  | numbits (b : BufIx)
  | capBytes (b : BufIx)
  | miStat
  | miDec
  | miBitlen
  | miName (j : Nat)
  | miRaw (j : Nat)
  /-- MI_INFOn[j], with n counted from 0. -/
  | miInfo (n : Fin 4) (j : Nat)
  | reserved
deriving DecidableEq, Repr

/-- A host access the contract defines: 32 bits wide, at a multiple of 4, within 0x0000 to 0x3FFC (R88). -/
def hostDefined (widthBits offset : Nat) : Bool :=
  widthBits == 32 && offset % 4 == 0 && decide (offset ≤ 0x3FFC)

/-- The register at an aligned offset (R87). Offsets in the string windows at or beyond the configured
length are reserved. -/
def hostReg (c : Config) (offset : Nat) : HostReg :=
  if offset < 0x040 then
    match offset with
    | 0x000 => .cmd
    | 0x004 => .status
    | 0x008 => .res
    | 0x010 => .arg 0
    | 0x014 => .arg 1
    | 0x018 => .arg 2
    | 0x01C => .arg 3
    | 0x020 => .dmprev
    | 0x024 => .widx
    | 0x028 => .scanLast
    | 0x02C => .scanBest
    | 0x030 => .scanStat
    | 0x034 => .sigStart
    | 0x038 => .sigUnit
    | _ => .reserved
  else if offset < 0x080 then
    let k := Fin.ofNat 8 ((offset - 0x040) / 8)
    if (offset - 0x040) % 8 = 0 then .patBits k else .patLen k
  else if offset < 0x090 then .numbits (Fin.ofNat 4 ((offset - 0x080) / 4))
  else if offset < 0x0A0 then .capBytes (Fin.ofNat 4 ((offset - 0x090) / 4))
  else if offset = 0x0A0 then .miStat
  else if offset = 0x0A4 then .miDec
  else if offset = 0x0A8 then .miBitlen
  else if offset < 0x1000 then .reserved
  else if offset < 0x2000 then
    let j := (offset - 0x1000) / 4
    if j < c.nameMax then .miName j else .reserved
  else if offset < 0x3000 then
    let j := (offset - 0x2000) / 4
    if j < c.rawMax then .miRaw j else .reserved
  else
    let n := Fin.ofNat 4 ((offset - 0x3000) / 0x400)
    let j := (offset - 0x3000) % 0x400 / 4
    if j < c.infoMax then .miInfo n j else .reserved

/-- Character j of a text field, in bits [7:0], the other bits reading 0 (R87). -/
def charWord (text : List Byte) (j : Nat) : Word := (text.getD j 0#8).setWidth 32

/-- The n-th info field, n counted from 0 (R87: MI_INFO1 to MI_INFO4). -/
def MiRecord.info (m : MiRecord) (n : Fin 4) : List Byte :=
  match n with
  | 0 => m.info1
  | 1 => m.info2
  | 2 => m.info3
  | 3 => m.info4

/-- What a host read of a register returns (column R of R87; R89: a reserved offset reads 0; R140: CMD
reads 0). -/
def hostReadReg (r : HostReg) (s : State) : Word :=
  match r with
  | .cmd => 0#32
  | .status => s.status
  | .res => s.res
  | .arg k => s.args[k]
  | .dmprev => bitWord s.dmprev
  | .widx => s.widx
  | .scanLast => s.scanLast
  | .scanBest => s.scanBest
  | .scanStat => bitWord s.sigReady
  | .sigStart => s.sigStart
  | .sigUnit => s.sigUnit
  | .patBits k => (s.pats[k]).bits
  | .patLen k => (s.pats[k]).len.setWidth 32
  | .numbits b => (s.buf b).numbits
  | .capBytes b => BitVec.ofNat 32 (s.cap b)
  | .miStat => bitWord s.mi.valid
  | .miDec => s.mi.dec
  | .miBitlen => s.mi.bitlen
  | .miName j => charWord s.mi.name j
  | .miRaw j => charWord s.mi.raw j
  | .miInfo n j => charWord (s.mi.info n) j
  | .reserved => 0#32

/-- The state with ARGk replaced (R32). -/
def State.setArg (s : State) (k : ArgIx) (v : Word) : State :=
  { s with args := s.args.set k.val v k.isLt }

/-- The state with PATk replaced (R34). -/
def State.setPat (s : State) (k : PatIx) (p : PatReg) : State :=
  { s with pats := s.pats.set k.val p k.isLt }

/-- What a host write of `v` to a register other than CMD leaves (column W of R87; R89, R90): a write to a
read-only or reserved offset changes nothing. CMD holds no state (R140); what a write to it runs is
`issue`. -/
def hostWriteReg (r : HostReg) (v : Word) (s : State) : State :=
  match r with
  | .arg k => s.setArg k v
  | .dmprev => { s with dmprev := v.getLsbD 0 }
  | .patBits k => s.setPat k { s.pats[k] with bits := v }
  | .patLen k => s.setPat k ((s.pats[k]).setLen v)
  | .cmd | .status | .res | .widx | .scanLast | .scanBest | .scanStat | .sigStart | .sigUnit
  | .numbits _ | .capBytes _ | .miStat | .miDec | .miBitlen | .miName _ | .miRaw _ | .miInfo _ _
  | .reserved => s

end Sys2Proof.Machine
end

