-- ==== Sys2Proof/Machine/Issue.lean ====
section
/-! DEFINITION. Command issue (R140, R141), host accesses (R88 to R90), the producer's step (R272), the
reset input (R370), and the machine's one step over the environment's next event (R351). -/

namespace Sys2Proof.Machine

/-- The step of a write of `w` to CMD: decode, then run the rule of the opcode; an illegal word raises
ILLEGAL before anything else (R140, R141, R145). -/
def issue (w : Word) (s : State) : Answer :=
  match decode w with
  | .ok i => exec i s
  | .error _ => s.raise .illegal

/-- A host read: the bus returns the register's value and no state of the machine changes (R90). An
access outside the contract is refused (R88). -/
def hostRead (widthBits offset : Nat) (s : State) : Answer :=
  if hostDefined widthBits offset then
    .next { s with readData := some (hostReadReg (hostReg s.cfg offset) s) }
  else .refused (.hostContract widthBits offset)

/-- A host write: to CMD it issues a command (R140); to any other register it is `hostWriteReg` (R90). An
access outside the contract is refused (R88). -/
def hostWrite (widthBits offset : Nat) (v : Word) (s : State) : Answer :=
  if hostDefined widthBits offset then
    match hostReg s.cfg offset with
    | .cmd => issue v s
    | r => .next (hostWriteReg r v s)
  else .refused (.hostContract widthBits offset)

/-- One event of the environment (R351). -/
def runEvent (e : Event) (s : State) : Answer :=
  match e with
  | .hostRead widthBits offset => hostRead widthBits offset s
  | .hostWrite widthBits offset v => hostWrite widthBits offset v s
  | .produce level duration => .next (s.produce level duration)
  | .publishUnwritten => .refused .producerContract
  | .reset => .next s.coreReset

/-- One step of the machine: the environment's next event, as one atomic step (R95, R351). With no event
left the machine is idle and all state persists (R354). -/
def runNext (s : State) : Answer :=
  match s.pending with
  | [] => .next s
  | e :: rest => runEvent e { s with pending := rest }

end Sys2Proof.Machine
end

