-- ==== Sys2Proof/Machine/Step.lean ====
section
/-! DEFINITION. The machine's step, and how a command word is placed for it. -/

namespace Sys2Proof.Machine

/-- One step (R351): `runNext`. -/
def step (s : State) : Host.Outcome State Fault Refusal := runNext s

/-- The state in which the host's next access writes to CMD the command word whose bits are `w`: RFDecodeCore
has no program counter and fetches nothing (R31, R100), and a command runs when the host writes it to CMD
(R140). Assumption log 3. -/
def State.withFetchWord (s : State) (nbits w : Nat) : State :=
  { s with pending := .hostWrite 32 0x000 (BitVec.ofNat 32 (w % 2 ^ nbits)) :: s.pending }

end Sys2Proof.Machine
end

