-- ==== Sys2Proof/Machine/HostMacros.lean ====
section
/-! DEFINITION. The host's statements and pseudo-instructions (R119, R120), as the register accesses they
expand to: "the core sees only the expansion". -/

namespace Sys2Proof.Machine

/-- `REG = value` for the register at an offset (R119). -/
def regWrite (offset : Nat) (v : Word) : Event := .hostWrite 32 offset v

/-- `read REG` for the register at an offset (R119). -/
def regRead (offset : Nat) : Event := .hostRead 32 offset

/-- The offset of ARGk (R87). -/
def argOffset (k : ArgIx) : Nat := 0x010 + 4 * k.val

/-- The offset of PATBITSk (R87). -/
def patBitsOffset (k : PatIx) : Nat := 0x040 + 8 * k.val

/-- The offset of PATLENk (R87). -/
def patLenOffset (k : PatIx) : Nat := 0x044 + 8 * k.val

/-- A command: its word is written to CMD (R118, R140). -/
def command (i : Instr) : Event := regWrite 0x000 (encode i)

/-- The number whose bit i is element i of a pattern literal (R120). -/
def literalNat : List Bool → Nat
  | [] => 0
  | v :: vs => v.toNat + 2 * literalNat vs

/-- `PAT k = "s"` (R120). -/
def macroPat (k : PatIx) (lit : List Bool) : List Event :=
  [regWrite (patLenOffset k) (BitVec.ofNat 32 lit.length),
   regWrite (patBitsOffset k) (BitVec.ofNat 32 (literalNat lit))]

/-- `MNEM fields, #a0` (R120). -/
def macroArg1 (i : Instr) (a0 : Word) : List Event := [regWrite (argOffset 0) a0, command i]

/-- `MNEM fields, #a0, #a1` (R120). -/
def macroArg2 (i : Instr) (a0 a1 : Word) : List Event :=
  [regWrite (argOffset 0) a0, regWrite (argOffset 1) a1, command i]

/-- `MNEM fields, #a0, #a1, #a2, #a3` (R120). -/
def macroArg4 (i : Instr) (a0 a1 a2 a3 : Word) : List Event :=
  [regWrite (argOffset 0) a0, regWrite (argOffset 1) a1, regWrite (argOffset 2) a2,
   regWrite (argOffset 3) a3, command i]

/-- `CLEAR bN, pK` (R120). -/
def macroClear (b : BufIx) (k : PatIx) : List Event :=
  macroPat k [false] ++ macroArg1 (.fill b k) 0xFFFFFFFF#32 ++ macroArg1 (.setlen b) 0#32

/-- The WRBYTE part of `LOAD`, from byte index `i` on (R120). -/
def macroLoadBytes (b : BufIx) : Nat → List Byte → List Event
  | _, [] => []
  | i, h :: hs => macroArg2 (.wrbyte b) (BitVec.ofNat 32 i) (h.setWidth 32) ++ macroLoadBytes b (i + 1) hs

/-- `LOAD bN, [h0, …, hm], nbits` (R120). -/
def macroLoad (b : BufIx) (bytes : List Byte) (nbits : Word) : List Event :=
  macroLoadBytes b 0 bytes ++ macroArg1 (.setlen b) nbits

/-- `DMPREV = v` (R120). -/
def macroDmprev (v : Word) : List Event := [regWrite 0x020 v]

end Sys2Proof.Machine
end

