-- ==== Sys2Proof/Safety.lean ====
section
/-! DEFINITION. What every reachable state looks like, and which environments keep to their contract: the
words in which the statements are written. -/

namespace Sys2Proof.Machine

/-- A bit buffer of `cap` bytes as R35 and R81 have it: its bytes canonical and within the capacity, its
numbits at most capbits. -/
structure BitBuffer.Wf (x : BitBuffer) (cap : Nat) : Prop where
  canonical : Memory.wf x.data
  bounded : ∀ c ∈ x.data, c.1 < cap
  numbits : x.numbits.toNat ≤ 8 * cap

/-- A text field as R41 and R301 have it: characters 1 to 255, then 0x00 bytes only. So "the host learns its
length by looking for the first 0x00 byte, or finds none" (R301). -/
def paddedText (field : List Byte) : Bool := (field.dropWhile (· != 0#8)).all (· == 0#8)

/-- The MessageInfo record as R41, R300 and R305 have it: every text field of its configured length and
padded with 0x00, no field left behind when no decoder succeeded, and the winner one of the registered
decoders. -/
structure MiRecord.Wf (m : MiRecord) (c : Config) : Prop where
  name : m.name.length = c.nameMax
  raw : m.raw.length = c.rawMax
  info1 : m.info1.length = c.infoMax
  info2 : m.info2.length = c.infoMax
  info3 : m.info3.length = c.infoMax
  info4 : m.info4.length = c.infoMax
  padded : ∀ field ∈ [m.name, m.raw, m.info1, m.info2, m.info3, m.info4], paddedText field = true
  unpublished : m.valid = false → m = MiRecord.cleared c
  winner : m.valid = true → m.dec.toNat < c.decoders.length

/-- The scanner registers agree: with no run held they are all 0; a held run has at least MIN_RUN pulses
and at most MAX_RUN and RING_SIZE of them, and its unit is at least DUR_MIN (R39, R278, R281, R285). -/
structure ScannerWf (s : State) : Prop where
  empty : s.scanBest = 0#32 → s.sigReady = false ∧ s.sigStart = 0#32 ∧ s.sigUnit = 0#32
  least : s.scanBest ≠ 0#32 → s.cfg.minRun ≤ s.scanBest.toNat
  most : s.scanBest.toNat ≤ s.cfg.maxRun ∧ s.scanBest.toNat ≤ s.cfg.ringSize
  unit : s.scanBest ≠ 0#32 → s.cfg.durMin ≤ s.sigUnit.toNat

/-- The invariant of the machine: a configuration R6 allows, and every piece of state within what 10_state.md
says of it. -/
structure State.Inv (s : State) : Prop where
  cfg : s.cfg.wf = true
  bufs : ∀ b : BufIx, (s.buf b).Wf (s.cap b)
  pats : ∀ k : PatIx, (s.pats[k]).plen ≤ 32
  status : statusLegal s.status = true
  mi : s.mi.Wf s.cfg
  scanner : ScannerWf s
  ringCanonical : ringWf s.ring
  ringBounded : ∀ c ∈ s.ring, c.1 < s.cfg.ringSize

/-- An event that keeps the host's and the producer's contract (R88, R97). -/
def Event.inContract : Event → Bool
  | .hostRead widthBits offset => hostDefined widthBits offset
  | .hostWrite widthBits offset _ => hostDefined widthBits offset
  | .produce _ _ => true
  | .publishUnwritten => false
  | .reset => true

/-- A run is safe when no step of it is refused: the environment keeps its contract throughout. -/
def State.envInContract (s : State) : Bool := s.pending.all Event.inContract

/-- The state a command leaves has only these differences from the one before: buffers, RES, STATUS.
Everything else, the argument and pattern registers, DMPREV, the scanner registers, the MessageInfo
record, the producer's state and the configuration, is as before. -/
def SameButBufsResStatus (s t : State) : Prop :=
  t = { s with bufs := t.bufs, res := t.res, status := t.status }

/-- Every byte and the numbits of every buffer but `b` are as before. -/
def OtherBufsSame (b : BufIx) (s t : State) : Prop := ∀ c : BufIx, c ≠ b → t.buf c = s.buf c

/-- What R190 says of a pattern register at a position: its elements lie within the valid bits and equal
the bits there. -/
def State.matchesAt (s : State) (b : BufIx) (k : PatIx) (pos : Nat) : Prop :=
  pos + (s.pats[k]).plen ≤ s.numbits b ∧
    ∀ i, i < (s.pats[k]).plen → s.readBit b (pos + i) = (s.pats[k]).elem i

/-- What R190 says of a pattern register at a position while a decode from BUF b into BUF d runs, `n` output
bits written: in place, the first `n` positions already hold the output, which `t` shows (R210, R212). -/
def MatchesDuring (s t : State) (b d : BufIx) (k : PatIx) (n pos : Nat) : Prop :=
  pos + (s.pats[k]).plen ≤ s.numbits b ∧
    ∀ i, i < (s.pats[k]).plen →
      (if b = d ∧ pos + i < n then t.readBit d (pos + i) else s.readBit b (pos + i)) = (s.pats[k]).elem i

/-- R275's acceptance of a duration by a timing class: an empty class always accepts, another when
`duration_delta(d, avg) * TOL_DIV < avg`, with duration_delta as R273 has it. -/
def ClassAccepts (c : Config) (x : TimingClass) (d : Nat) : Prop :=
  x.cnt = 0 ∨ |(d : Int) - (x.avg : Int)| * (c.tolDiv : Int) < (x.avg : Int)

/-- The class table after the first `n` pulses from logical index `k0` have joined a run; none when one of
them does not (R275 to R277). -/
def runTable (c : Config) (ring : Word → Pulse) (k0 : Word) : Nat → Option ClassTable
  | 0 => some (ClassTable.empty c.nclass)
  | n + 1 => (runTable c ring k0 n).bind (fun t => joinRun c t (ring (k0 + BitVec.ofNat 32 n)))

/-- The level waveform of a run, sampled once per unit: each pulse contributes d / unit bits, rounded half up
and at least 1, of its level (R283 (2)). -/
def runSymbols (ring : Word → Pulse) (k0 : Word) (r : Run) : List Bool :=
  (List.range r.len).flatMap (fun n =>
    let p := ring (k0 + BitVec.ofNat 32 n)
    List.replicate (max 1 ((p.duration.toNat + r.unit / 2) / r.unit)) p.level)

/-- The window offset at which SCAN's walk measures its run number `k`, counted from 0 (R280). -/
def State.walkOffset (s : State) : Nat → Nat
  | 0 => 0
  | k + 1 =>
    let i := s.walkOffset k
    i + max (measureRun s.cfg s.ringAt (s.scanWindow.base + BitVec.ofNat 32 i) (s.scanWindow.avail - i)).len 1

/-- The logical index at which run number `k` of the walk starts (R280, R281). -/
def State.walkStart (s : State) (k : Nat) : Word := s.scanWindow.base + BitVec.ofNat 32 (s.walkOffset k)

/-- Run number `k` of the walk (R280). -/
def State.walkRun (s : State) (k : Nat) : Run :=
  measureRun s.cfg s.ringAt (s.walkStart k) (s.scanWindow.avail - s.walkOffset k)

/-- The walk measures a run number `k`: the window is not used up before it (R280). -/
def State.walkVisits (s : State) (k : Nat) : Prop := s.walkOffset k < s.scanWindow.avail

/-- Run number `k` reaches the end of the window and is no empty run, so it may continue (R282). -/
def State.walkRunOpen (s : State) (k : Nat) : Prop :=
  0 < (s.walkRun k).len ∧ s.walkOffset k + (s.walkRun k).len = s.scanWindow.avail

/-- Run number `k` meets the three conditions of R281 with the signal held when SCAN starts. -/
def State.walkQualifies (s : State) (k : Nat) : Prop :=
  s.cfg.minRun ≤ (s.walkRun k).len ∧ s.scanBest.toNat ≤ (s.walkRun k).len ∧
    ¬ (0 < s.scanBest.toNat ∧ s.walkStart k = s.sigStart ∧ (s.walkRun k).len = s.scanBest.toNat)

/-- The bits of bytes in stream order: byte 0 first, each most significant bit first (R82). -/
def streamBits (bytes : List Byte) : List Bool :=
  bytes.flatMap (fun x => (List.range 8).map (fun k => x.getLsbD (7 - k)))

/-- The outcomes R344 lists for a command, with the condition it gives for OUT_OF_BOUNDS. -/
def possibleErrs (i : Instr) (s : State) : List Err :=
  match i with
  | .nop | .fill _ _ | .revb _ | .matchp _ _ | .lcdec _ _ _ _ | .dmdec _ _ | .scan | .sreset => [.ok]
  | .getbit b | .setbit b => if s.capBits b ≤ s.argNat 0 then [.outOfBounds] else [.ok]
  | .setlen b => if s.capBits b < s.argNat 0 then [.outOfBounds] else [.ok]
  | .rdbyte b | .wrbyte b => if s.cap b ≤ s.argNat 0 then [.outOfBounds] else [.ok]
  | .crc8 b => if s.cap b < s.argNat 0 + s.argNat 1 then [.outOfBounds] else [.ok]
  | .seek _ _ => [.ok, .notFound]
  | .dispatch _ => [.ok, .noMatch]

/-- STATUS after `finish(code)` (R142, R343). -/
def finishedStatus (s : State) (e : Err) : Word := setErr s.status e

/-- The state after `raise Error(code)` (R342): STATUS alone changes. -/
def State.raised (s : State) (e : Err) : State := s.setStatus (setFault (setErr s.status e))

end Sys2Proof.Machine
end

