-- ==== Sys2Proof/Certificates/Slice0/Obligations.lean ====
section
/-! DEFINITION. The statements about RFDecodeCore, for the provers. Each is about every state, and so
about every configuration (assumption log 1); `State.Inv` is a premise only where a state that no run
reaches would make the statement false. -/

open Sys2Proof Sys2Proof.Machine

/-! ### Command words -/

/-- Decoding an encoded command gives it back, with every operand at every value (R110, R112, R114). -/
def Obligations.DecodeOfEncode : Prop :=
  ∀ i : Instr, decode (encode i) = .ok i

/-- A legal word is the encoding of the command it decodes to: no bit of it goes unread (R110, R112). -/
def Obligations.EncodeOfDecode : Prop :=
  ∀ (w : Word) (i : Instr), decode w = .ok i → encode i = w

/-- R112: a word is legal exactly when OP is an opcode, RSVD is 0 and the unused fields are 0; that is the
match and mask test of the table; and issuing any other word raises ILLEGAL. -/
def Obligations.StrictDecodingIsTheMaskTest : Prop :=
  ∀ w : Word,
    (legal w = true ↔ ∃ o : Opcode, opField w = o.code ∧ rsvdField w = 0 ∧
        (o.uses.ba = false → baField w = 0) ∧ (o.uses.bb = false → bbField w = 0) ∧
        (o.uses.pa = false → paField w = 0) ∧ (o.uses.pb = false → pbField w = 0)) ∧
    (∀ row ∈ opcodeTable,
        w &&& row.mask = row.mtch ↔ ∃ i : Instr, decode w = .ok i ∧ i.opcode = row.op) ∧
    (legal w = true ↔ ∃ row ∈ opcodeTable, w &&& row.mask = row.mtch) ∧
    (legal w = false → ∀ s : State, issue w s = .next (s.raised .illegal))

/-- No two rows of the table match the same word (R115). -/
def Obligations.OpcodeRowsNeverOverlap : Prop :=
  ∀ (w : Word) (r1 r2 : OpcodeRow), r1 ∈ opcodeTable → r2 ∈ opcodeTable →
    w &&& r1.mask = r1.mtch → w &&& r2.mask = r2.mtch → r1 = r2

/-- A few words of the spec's own table of decodings (95_test_vectors.md, V0.1 to V0.19). -/
def Obligations.SpecWordsDecode : Prop :=
  decode 0x00000000#32 = .ok .nop ∧
  decode 0x00000310#32 = .ok (.getbit 3) ∧
  decode 0x00007312#32 = .ok (.fill 3 7) ∧
  decode 0x00008E30#32 = .ok (.lcdec 2 3 0 1) ∧
  decode 0x00000F40#32 = .ok (.dmdec 3 3) ∧
  decode 0x00000060#32 = .ok .scan ∧
  decode 0x00000370#32 = .ok (.dispatch 3) ∧
  legal 0x00000100#32 = false ∧ legal 0x00000117#32 = false ∧ legal 0x00040030#32 = false

/-! ### The step -/

/-- When the host's next access writes a legal word to CMD, the step is the command's meaning at the state
with that access taken off the environment's list, and nothing else (R140, R141). That the environment is a
list of events is the model's choice: assumption log 3. -/
def Obligations.StepRunsTheDecodedCommand : Prop :=
  ∀ (s : State) (rest : List Event) (w : Word) (i : Instr),
    s.pending = .hostWrite 32 0x000 w :: rest → decode w = .ok i →
    step s = exec i { s with pending := rest }

/-- R145: an illegal word sets ERR = 4 and FAULT = 1 and changes nothing else, whichever of the three
reasons makes it illegal; with the rule's example. -/
def Obligations.IllegalWordRaisesIllegal : Prop :=
  (∀ (s : State) (w : Word),
    ((∀ o : Opcode, opField w ≠ o.code) ∨ rsvdField w ≠ 0 ∨
      (∃ o : Opcode, opField w = o.code ∧
        ((o.uses.ba = false ∧ baField w ≠ 0) ∨ (o.uses.bb = false ∧ bbField w ≠ 0) ∨
         (o.uses.pa = false ∧ paField w ≠ 0) ∨ (o.uses.pb = false ∧ pbField w ≠ 0)))) →
    ∃ t : State, issue w s = .next t ∧ statusErr t.status = 4#4 ∧ statusFault t.status = true ∧
      t = { s with status := t.status }) ∧
  (∀ s : State, s.status = 0#32 →
    ∃ t : State, issue 0x00000117#32 s = .next t ∧ t.status = 0x00000104#32 ∧ t.res = s.res)

/-- While its environment keeps its contract, the machine always has a next state: no command faults or is
refused (R142, R340), and only a host access outside R88 or a producer outside R97 is refused (assumption log
6 and 7). -/
def Obligations.OnlyBrokenContractsAreRefused : Prop :=
  ∀ s : State,
    (∃ t : State, step s = .next t) ↔ (s.pending.head?.all Event.inContract = true)

/-! ### Whole-machine rules -/

/-- Every step keeps the invariant of the machine: a configuration R6 allows, canonical bytes within the
capacity and numbits at most capbits in every buffer, pattern lengths at most 32, no reserved STATUS bit, a
record that is cleared unless a decoder won, scanner registers that agree, and a canonical ring. -/
def Obligations.StepKeepsInvariant : Prop :=
  ∀ s t : State, s.Inv → step s = .next t → t.Inv

/-- The state after reset meets the invariant. Its configuration, ring and WIDX are the model's choice:
assumption log 1 and 2. -/
def Obligations.ResetMeetsInvariant : Prop :=
  State.reset.Inv

/-- The configuration is fixed for a model instance: no step writes it (R42). -/
def Obligations.ConfigurationIsNeverWritten : Prop :=
  ∀ s t : State, step s = .next t → t.cfg = s.cfg

/-- R343: `raise Error` sets FAULT and `finish` keeps it; a step keeps a FAULT that is set unless it is the
reset, which clears it; and a step that sets FAULT leaves ERR = OUT_OF_BOUNDS or ILLEGAL. -/
def Obligations.FaultIsStickyUntilReset : Prop :=
  (∀ (s : State) (e : Err), ∃ t : State, s.raise e = .next t ∧ statusFault t.status = true) ∧
  (∀ (s : State) (e : Err), ∃ t : State, s.finish e = .next t ∧ statusFault t.status = statusFault s.status) ∧
  (∀ s t : State, step s = .next t →
    (s.pending.head? ≠ some .reset → statusFault s.status = true → statusFault t.status = true) ∧
    (s.pending.head? = some .reset → statusFault t.status = false) ∧
    (statusFault s.status = false → statusFault t.status = true →
      statusErr t.status = Err.outOfBounds.code ∨ statusErr t.status = Err.illegal.code))

/-- R344: the outcome of every command is one the table lists for it, and ILLEGAL for every illegal word. -/
def Obligations.OutcomesAreThoseOfTheTable : Prop :=
  (∀ (i : Instr) (s t : State), exec i s = .next t →
    ∃ e ∈ possibleErrs i s, statusErr t.status = e.code) ∧
  (∀ (w : Word) (s t : State), legal w = false → issue w s = .next t →
    statusErr t.status = Err.illegal.code)

/-- A command that ends OUT_OF_BOUNDS leaves every piece of state as it was, STATUS apart (R340, R342). -/
def Obligations.OutOfBoundsChangesOnlyStatus : Prop :=
  ∀ (i : Instr) (s t : State), exec i s = .next t → statusErr t.status = Err.outOfBounds.code →
    t = s.raised .outOfBounds

/-- No command writes the argument or pattern registers, the producer's ring and WIDX, or what belongs to
the environment (R32, R34, R40, R113). -/
def Obligations.CommandsNeverWriteTheirOperands : Prop :=
  ∀ (i : Instr) (s t : State), exec i s = .next t →
    t.args = s.args ∧ t.pats = s.pats ∧ t.ring = s.ring ∧ t.widx = s.widx ∧ t.cfg = s.cfg ∧
    t.pending = s.pending ∧ t.readData = s.readData

/-- Which commands write which registers: RES only the ten R33 lists, DMPREV only DMDEC (R37), the scanner
registers only SCAN, SRESET and, for SIG_READY, DISPATCH of BUF0 (R39, R44), the MessageInfo record only
DISPATCH and SRESET (R41). -/
def Obligations.RegistersAreWrittenOnlyByTheirCommands : Prop :=
  ∀ (i : Instr) (s t : State), exec i s = .next t →
    (i.opcode ∉ [.getbit, .fill, .rdbyte, .matchp, .seek, .lcdec, .dmdec, .crc8, .scan, .dispatch] →
      t.res = s.res) ∧
    (i.opcode ≠ .dmdec → t.dmprev = s.dmprev) ∧
    (i ≠ .scan → i ≠ .sreset →
      t.scanLast = s.scanLast ∧ t.scanBest = s.scanBest ∧ t.sigStart = s.sigStart ∧ t.sigUnit = s.sigUnit) ∧
    (i ≠ .scan → i ≠ .sreset → i ≠ .dispatch 0 → t.sigReady = s.sigReady) ∧
    (i ≠ .sreset → i.opcode ≠ .dispatch → t.mi = s.mi)

/-- A command changes a buffer only where R35, R92 and R94 let it: the bytes only SETBIT, FILL, REVB and
WRBYTE (their buffer), LCDEC and DMDEC (their destination), SCAN and SRESET (BUF0); numbits only SETLEN
(its buffer), LCDEC and DMDEC (their destination), SCAN and SRESET (BUF0). -/
def Obligations.BuffersAreWrittenOnlyByTheirCommands : Prop :=
  ∀ (i : Instr) (s t : State) (b : BufIx), exec i s = .next t →
    ((s.buf b).data ≠ (t.buf b).data →
      i = .setbit b ∨ (∃ p, i = .fill b p) ∨ i = .revb b ∨ i = .wrbyte b ∨
      (∃ c p q, i = .lcdec c b p q) ∨ (∃ c, i = .dmdec c b) ∨ ((i = .scan ∨ i = .sreset) ∧ b = 0)) ∧
    ((s.buf b).numbits ≠ (t.buf b).numbits →
      i = .setlen b ∨ (∃ c p q, i = .lcdec c b p q) ∨ (∃ c, i = .dmdec c b) ∨
      ((i = .scan ∨ i = .sreset) ∧ b = 0))

/-! ### NOP and the BitBuffer commands -/

/-- NOP sets ERR to OK and changes nothing else (R144); with the rule's example. -/
def Obligations.NopOnlyClearsErr : Prop :=
  (∀ s : State, ∃ t : State, exec .nop s = .next t ∧ statusErr t.status = 0#4 ∧
    statusFault t.status = statusFault s.status ∧ t = { s with status := t.status }) ∧
  (∀ s : State, s.status = 0x00000102#32 → exec .nop s = .next { s with status := 0x00000100#32 })

/-- GETBIT, RDBYTE, SETLEN within bounds: the register or numbits they write, ERR = OK, and nothing else
changes (R161, R165, R166). -/
def Obligations.GetbitRdbyteSetlenComplete : Prop :=
  ∀ (s : State) (b : BufIx),
    (s.argNat 0 < s.capBits b →
      exec (.getbit b) s = .next { s with
        res := if s.readBit b (s.argNat 0) then 1#32 else 0#32
        status := finishedStatus s .ok }) ∧
    (s.argNat 0 < s.cap b →
      exec (.rdbyte b) s = .next { s with
        res := (s.readByte b (s.argNat 0)).setWidth 32
        status := finishedStatus s .ok }) ∧
    (s.argNat 0 ≤ s.capBits b →
      ∃ t : State, exec (.setlen b) s = .next t ∧
        (t.buf b).numbits = s.args[0] ∧ (t.buf b).data = (s.buf b).data ∧ OtherBufsSame b s t ∧
        t.res = s.res ∧ t.status = finishedStatus s .ok ∧ SameButBufsResStatus s t)

/-- The six bounded commands at an operand out of bounds: OUT_OF_BOUNDS, and STATUS alone changes (R160 to
R167, R251, R342). The sum of CRC8 is exact. -/
def Obligations.OperandsOutOfBoundsRaise : Prop :=
  ∀ (s : State) (b : BufIx),
    (s.capBits b ≤ s.argNat 0 →
      exec (.getbit b) s = .next (s.raised .outOfBounds) ∧
      exec (.setbit b) s = .next (s.raised .outOfBounds)) ∧
    (s.capBits b < s.argNat 0 → exec (.setlen b) s = .next (s.raised .outOfBounds)) ∧
    (s.cap b ≤ s.argNat 0 →
      exec (.rdbyte b) s = .next (s.raised .outOfBounds) ∧
      exec (.wrbyte b) s = .next (s.raised .outOfBounds)) ∧
    (s.cap b < s.argNat 0 + s.argNat 1 → exec (.crc8 b) s = .next (s.raised .outOfBounds))

/-- SETBIT within bounds: the bit at ARG0 becomes ARG1[0], every other bit position of every buffer is as
before, and numbits, RES and everything else are unchanged (R162). -/
def Obligations.SetbitWritesOneBit : Prop :=
  ∀ (s : State) (b : BufIx), s.Inv → s.argNat 0 < s.capBits b →
    ∃ t : State, exec (.setbit b) s = .next t ∧
      t.readBit b (s.argNat 0) = (s.args[1]).getLsbD 0 ∧
      (∀ p, p ≠ s.argNat 0 → t.readBit b p = s.readBit b p) ∧
      (t.buf b).numbits = (s.buf b).numbits ∧ OtherBufsSame b s t ∧
      t.res = s.res ∧ t.status = finishedStatus s .ok ∧ SameButBufsResStatus s t

/-- R168: GETBIT and SETBIT at a position beyond the capacity end with OUT_OF_BOUNDS; within it, SETBIT
then GETBIT at one position gives the bit written; SETBIT changes no other position. -/
def Obligations.SetbitThenGetbitReturnsTheBit : Prop :=
  ∀ (s : State) (b : BufIx) (v : Bool), s.Inv → s.argBit 1 = v →
    (s.capBits b ≤ s.argNat 0 →
      ∃ t u : State, exec (.getbit b) s = .next t ∧ statusErr t.status = Err.outOfBounds.code ∧
        exec (.setbit b) s = .next u ∧ statusErr u.status = Err.outOfBounds.code) ∧
    (s.argNat 0 < s.capBits b →
      ∃ t u : State, exec (.setbit b) s = .next t ∧ exec (.getbit b) t = .next u ∧
        u.res = bitWord v ∧
        ∀ (c : BufIx) (p : Nat), (c, p) ≠ (b, s.argNat 0) → t.readBit c p = s.readBit c p)

/-- FILL: positions below m = min(n, capbits) (0 for the empty pattern) receive the pattern repeated from
element 0, later positions and every other buffer keep their bits, RES is m, numbits is unchanged (R163). -/
def Obligations.FillRepeatsThePattern : Prop :=
  ∀ (s : State) (b : BufIx) (k : PatIx), s.Inv →
    ∃ (t : State) (m : Nat), exec (.fill b k) s = .next t ∧
      m = (if (s.pats[k]).plen = 0 then 0 else min (s.argNat 0) (s.capBits b)) ∧
      (∀ p, p < m → t.readBit b p = (s.pats[k]).elem (p % (s.pats[k]).plen)) ∧
      (∀ p, m ≤ p → t.readBit b p = s.readBit b p) ∧
      t.res.toNat = m ∧ (t.buf b).numbits = (s.buf b).numbits ∧ OtherBufsSame b s t ∧
      t.status = finishedStatus s .ok ∧ SameButBufsResStatus s t

/-- REVB: byte j takes the old byte CAP_BYTES-1-j over the whole capacity, numbits and every other buffer
are unchanged, and REVB twice restores the buffer (R164). -/
def Obligations.RevbReversesTheByteOrder : Prop :=
  ∀ (s : State) (b : BufIx), s.Inv →
    ∃ t u : State, exec (.revb b) s = .next t ∧
      (∀ j, j < s.cap b → t.readByte b j = s.readByte b (s.cap b - 1 - j)) ∧
      (t.buf b).numbits = (s.buf b).numbits ∧ OtherBufsSame b s t ∧
      t.res = s.res ∧ t.status = finishedStatus s .ok ∧ SameButBufsResStatus s t ∧
      exec (.revb b) t = .next u ∧ u.bufs = s.bufs

/-- WRBYTE within bounds: byte ARG0 becomes ARG1[7:0], read as bits most significant first (R82), every
other byte of every buffer is as before, and nothing else changes (R167). -/
def Obligations.WrbyteWritesOneByte : Prop :=
  ∀ (s : State) (b : BufIx), s.Inv → s.argNat 0 < s.cap b →
    ∃ t : State, exec (.wrbyte b) s = .next t ∧
      t.readByte b (s.argNat 0) = (s.args[1]).extractLsb' 0 8 ∧
      (∀ k, k < 8 → t.readBit b (8 * s.argNat 0 + k) = (s.args[1]).getLsbD (7 - k)) ∧
      (∀ i, i ≠ s.argNat 0 → t.readByte b i = s.readByte b i) ∧
      (t.buf b).numbits = (s.buf b).numbits ∧ OtherBufsSame b s t ∧
      t.res = s.res ∧ t.status = finishedStatus s .ok ∧ SameButBufsResStatus s t

/-! ### PatternSearch -/

/-- MATCH: RES is 1 exactly when the pattern's elements lie within the valid bits and equal the bits there;
never an error, and RES and STATUS alone change (R190, R191). -/
def Obligations.MatchComparesWithinNumbits : Prop :=
  ∀ (s : State) (b : BufIx) (k : PatIx),
    ∃ t : State, exec (.matchp b k) s = .next t ∧
      (s.matchesAt b k (s.argNat 0) → t.res = 1#32) ∧
      (¬ s.matchesAt b k (s.argNat 0) → t.res = 0#32) ∧
      t = { s with res := t.res, status := finishedStatus s .ok }

/-- SEEK: RES is the lowest matching position of the range with ERR = OK, or NOT_FOUND with ERR = NOT_FOUND
when there is none; RES and STATUS alone change (R192, R193; assumption log 12). -/
def Obligations.SeekFindsTheLowestMatch : Prop :=
  ∀ (s : State) (b : BufIx) (k : PatIx), s.Inv →
    (∀ r, s.argNat 0 ≤ r → r < s.argNat 0 + s.argNat 1 → s.matchesAt b k r →
      (∀ p, s.argNat 0 ≤ p → p < r → ¬ s.matchesAt b k p) →
      exec (.seek b k) s = .next { s with res := BitVec.ofNat 32 r, status := finishedStatus s .ok }) ∧
    ((∀ p, s.argNat 0 ≤ p → p < s.argNat 0 + s.argNat 1 → ¬ s.matchesAt b k p) →
      exec (.seek b k) s = .next { s with res := notFound, status := finishedStatus s .notFound })

/-- R194, the laws of the search commands. -/
def Obligations.SearchLaws : Prop :=
  ∀ (s : State) (b : BufIx) (k : PatIx), s.Inv →
    ∃ t u : State, exec (.matchp b k) s = .next t ∧ exec (.seek b k) s = .next u ∧
      (s.numbits b < s.argNat 0 + (s.pats[k]).plen → t.res = 0#32) ∧
      (u.res ≠ notFound →
        s.argNat 0 ≤ u.res.toNat ∧ u.res.toNat < s.argNat 0 + s.argNat 1 ∧
        s.matchesAt b k u.res.toNat ∧
        ∀ p, s.argNat 0 ≤ p → p < u.res.toNat → ¬ s.matchesAt b k p) ∧
      (u.res = notFound ↔
        ∀ p, s.argNat 0 ≤ p → p < s.argNat 0 + s.argNat 1 → ¬ s.matchesAt b k p) ∧
      t.bufs = s.bufs ∧ u.bufs = s.bufs

/-! ### LineCodeDecoder -/

/-- LCDEC, in place or not, does what the line-code function says, written as a chain of source positions:
at each the zero template matches and 0 is emitted, or only the one template does and 1 is; it ends when
the destination is full or neither matches. Step k reads the source as it then stands: in place, with the
first k output bits already written (R212). Later positions, the other buffers and everything else keep
their values (R210, R211). -/
def Obligations.LcdecFollowsTheLineCode : Prop :=
  ∀ (s : State) (b d : BufIx) (z o : PatIx), s.Inv →
    ∃ (t : State) (cnt : Nat) (cur : Nat → Nat), exec (.lcdec b d z o) s = .next t ∧
      cur 0 = s.argNat 0 ∧ cnt ≤ s.capBits d ∧
      (∀ k, k < cnt →
        (MatchesDuring s t b d z k (cur k) ∧ t.readBit d k = false ∧
          cur (k + 1) = cur k + (s.pats[z]).plen) ∨
        (¬ MatchesDuring s t b d z k (cur k) ∧ MatchesDuring s t b d o k (cur k) ∧ t.readBit d k = true ∧
          cur (k + 1) = cur k + (s.pats[o]).plen)) ∧
      (cnt = s.capBits d ∨
        (¬ MatchesDuring s t b d z cnt (cur cnt) ∧ ¬ MatchesDuring s t b d o cnt (cur cnt))) ∧
      t.res.toNat = cnt ∧ t.numbits d = cnt ∧
      (∀ p, cnt ≤ p → t.readBit d p = s.readBit d p) ∧ OtherBufsSame d s t ∧
      t.status = finishedStatus s .ok ∧ SameButBufsResStatus s t

/-- R212: with both templates non-empty, decoding in place gives the count and the bits of decoding into a
separate buffer of the same capacity. An inference the spec marks as its own: "Then in-place decoding gives
the same result as decoding into a separate buffer". -/
def Obligations.LcdecInPlaceEqualsSeparate : Prop :=
  ∀ (s : State) (b d : BufIx) (z o : PatIx), s.Inv → b ≠ d → s.cap b = s.cap d →
    1 ≤ (s.pats[z]).plen → 1 ≤ (s.pats[o]).plen →
    ∃ t u : State, exec (.lcdec b b z o) s = .next t ∧ exec (.lcdec b d z o) s = .next u ∧
      t.res = u.res ∧ t.numbits b = u.numbits d ∧
      (∀ p, p < t.res.toNat → t.readBit b p = u.readBit d p) ∧
      (∀ p, t.res.toNat ≤ p → t.readBit b p = s.readBit b p) ∧ OtherBufsSame b s t

/-- An empty zero template at an offset within the valid bits matches for ever: the destination fills with
0 bits and the count is its capacity (R211, case (c), an inference from R210). -/
def Obligations.EmptyZeroTemplateFillsTheDestination : Prop :=
  ∀ (s : State) (b d : BufIx) (z o : PatIx), s.Inv → (s.pats[z]).plen = 0 → s.argNat 0 ≤ s.numbits b →
    ∃ t : State, exec (.lcdec b d z o) s = .next t ∧ t.res.toNat = s.capBits d ∧
      t.numbits d = s.capBits d ∧ ∀ p, p < s.capBits d → t.readBit d p = false

/-- R213, the round-trip law under its four conditions: a sequence encoded with two non-empty templates,
neither a prefix of the other, decodes to itself, into another buffer or in place. The four conditions are an
inference the spec marks as its own: "The source does not state the conditions; this spec derives them". -/
def Obligations.LineCodeRoundTrip : Prop :=
  ∀ (s : State) (b d : BufIx) (z o : PatIx) (data : List Bool), s.Inv →
    1 ≤ (s.pats[z]).plen → 1 ≤ (s.pats[o]).plen →
    ¬ (s.patElems z <+: s.patElems o) → ¬ (s.patElems o <+: s.patElems z) →
    (∀ k, k < (lcEncode (s.patElems z) (s.patElems o) data).length →
      (lcEncode (s.patElems z) (s.patElems o) data)[k]? = some (s.readBit b (s.argNat 0 + k))) →
    (s.numbits b = s.argNat 0 + (lcEncode (s.patElems z) (s.patElems o) data).length ∨
      (s.argNat 0 + (lcEncode (s.patElems z) (s.patElems o) data).length ≤ s.numbits b ∧
        ¬ s.matchesAt b z (s.argNat 0 + (lcEncode (s.patElems z) (s.patElems o) data).length) ∧
        ¬ s.matchesAt b o (s.argNat 0 + (lcEncode (s.patElems z) (s.patElems o) data).length))) →
    data.length ≤ s.capBits d →
    ∃ t : State, exec (.lcdec b d z o) s = .next t ∧ t.res.toNat = data.length ∧
      t.numbits d = data.length ∧ ∀ k, k < data.length → data[k]? = some (t.readBit d k)

/-! ### DiffManchesterDecoder -/

/-- DMDEC, in place or not, does what the decode function says of the source as it stood: pair k is read at
off + 2k with the level the pair before left, and is emitted or ends the decode by DM_TABLE; the count goes
to RES and numbits, the last level to DMPREV; later positions, the other buffers and everything else keep
their values (R232 to R234). -/
def Obligations.DmdecFollowsTheTable : Prop :=
  ∀ (s : State) (b d : BufIx), s.Inv →
    ∃ (t : State) (cnt : Nat) (lv : Nat → Bool), exec (.dmdec b d) s = .next t ∧
      lv 0 = s.dmprev ∧ cnt ≤ s.capBits d ∧
      (∀ k, k < cnt →
        s.argNat 0 + 2 * k + 2 ≤ s.numbits b ∧
        lv (k + 1) = s.readBit b (s.argNat 0 + 2 * k + 1) ∧
        dmAction s.cfg.dmTable (lv k) (s.readBit b (s.argNat 0 + 2 * k)) (lv (k + 1)) =
          (if t.readBit d k then .emit1 else .emit0)) ∧
      (cnt = s.capBits d ∨ s.numbits b < s.argNat 0 + 2 * cnt + 2 ∨
        dmAction s.cfg.dmTable (lv cnt) (s.readBit b (s.argNat 0 + 2 * cnt))
          (s.readBit b (s.argNat 0 + 2 * cnt + 1)) = .stop) ∧
      t.res.toNat = cnt ∧ t.numbits d = cnt ∧ t.dmprev = lv cnt ∧
      (∀ p, cnt ≤ p → t.readBit d p = s.readBit d p) ∧ OtherBufsSame d s t ∧
      t = { s with bufs := t.bufs, res := t.res, dmprev := t.dmprev, status := finishedStatus s .ok }

/-- The default table as a sentence: the decode stops when the first symbol keeps the level; else the bit
is 1 when the pair has no transition and 0 when it has one (R231). The spec marks the table as its own choice,
"from general knowledge, not in source": assumption log 10. -/
def Obligations.DefaultTableIsTheRule : Prop :=
  ∀ pv b0 b1 : Bool, dmAction DmTable.default pv b0 b1 =
    (if b0 = pv then .stop else if b0 = b1 then .emit1 else .emit0)

/-- R236 (1): under the default table, a stream built by the encoder of R235 decodes to its bits, in place
or not. The spec marks the law "[derived: from rule R232 and rule R235]". -/
def Obligations.DiffManchesterRoundTrip : Prop :=
  ∀ (s : State) (b d : BufIx) (data : List Bool), s.Inv → s.cfg.dmTable = DmTable.default →
    data.length ≤ s.capBits d →
    (∀ k, k < 2 * data.length → (dmEncode s.dmprev data)[k]? = some (s.readBit b (s.argNat 0 + k))) →
    s.numbits b = s.argNat 0 + 2 * data.length →
    ∃ t : State, exec (.dmdec b d) s = .next t ∧ t.res.toNat = data.length ∧
      t.numbits d = data.length ∧ ∀ k, k < data.length → data[k]? = some (t.readBit d k)

/-! ### CRC8 -/

/-- CRC8 within bounds: RES is the CRC of the bytes named, from the low bytes of ARG2 and ARG3, whatever
numbits is; RES and STATUS alone change; len = 0 gives init (R251). -/
def Obligations.Crc8Completes : Prop :=
  ∀ (s : State) (b : BufIx), s.argNat 0 + s.argNat 1 ≤ s.cap b →
    ∃ t : State, exec (.crc8 b) s = .next t ∧
      t.res = (crc8 (memBytes (s.buf b).data (s.argNat 0) (s.argNat 1)) ((s.args[2]).extractLsb' 0 8)
        ((s.args[3]).extractLsb' 0 8)).setWidth 32 ∧
      (s.argNat 1 = 0 → t.res = ((s.args[2]).extractLsb' 0 8).setWidth 32) ∧
      t = { s with res := t.res, status := finishedStatus s .ok }

/-- R252 (3) and (4): chaining, and a message followed by its CRC has CRC 0; and R250's last sentence,
poly = 0 gives 0 for every non-empty input. The spec marks the three as inferences from R250. -/
def Obligations.CrcChainsAndVanishesOnItself : Prop :=
  (∀ (a b : List Byte) (init poly : Byte), crc8 (a ++ b) init poly = crc8 b (crc8 a init poly) poly) ∧
  (∀ (data : List Byte) (init : Byte), crc8 (data ++ [crc8 data init 0x07#8]) init 0x07#8 = 0#8) ∧
  (∀ (data : List Byte) (init : Byte), data ≠ [] → crc8 data init 0#8 = 0#8)

/-- R252 (2): for a polynomial with the x^0 term set, changing one byte changes the result. The spec marks
the sentence "from general knowledge, not in source": assumption log 10. -/
def Obligations.CrcDetectsEveryByteChange : Prop :=
  ∀ (before after : List Byte) (x y init poly : Byte), poly.getLsbD 0 = true → x ≠ y →
    crc8 (before ++ x :: after) init poly ≠ crc8 (before ++ y :: after) init poly

/-! ### SignalScanner -/

/-- R273: duration_delta is the absolute difference, and symmetric (the spec: "[derived: from this rule]"). -/
def Obligations.DurationDeltaIsSymmetric : Prop :=
  ∀ a b : Nat, (durationDelta a b : Int) = |(a : Int) - (b : Int)| ∧ durationDelta a b = durationDelta b a

/-- R276: a class that has taken the durations `ds` counts them, and its average lies between the smallest
and the largest of them; the first duration gives avg = d and cnt = 1, and each later one the floored
running average. That the average lies between them the spec marks "[derived: from this rule]". -/
def Obligations.ClassAverageStaysBetweenItsDurations : Prop :=
  (∀ (c : TimingClass) (d : Nat), (c.take d).avg = (c.avg * c.cnt + d) / (c.cnt + 1) ∧
    (c.take d).cnt = c.cnt + 1 ∧ (c.cnt = 0 → (c.take d).avg = d)) ∧
  ∀ (ds : List Nat) (lo hi : Nat), ds ≠ [] → (∀ d ∈ ds, lo ≤ d ∧ d ≤ hi) →
    (ds.foldl TimingClass.take ⟨0, 0⟩).cnt = ds.length ∧
    lo ≤ (ds.foldl TimingClass.take ⟨0, 0⟩).avg ∧ (ds.foldl TimingClass.take ⟨0, 0⟩).avg ≤ hi

/-- A pulse joins the class table exactly when its duration lies in [DUR_MIN, DUR_MAX] and some class of its
level accepts it: the first in order that does takes it, and every other class of either level stays as it was;
at a run's start each level has NCLASS empty classes (R274, R275). The run function takes pulses as long as each
joins, and ends at the window's end, at MAX_RUN, or before the first pulse that does not join (R277); the unit
of a run with a pulse is at least DUR_MIN and fits 32 bits, and a run without one has unit 0 (R276, R278,
inferences the spec marks as its own). -/
def Obligations.RunEndsAtItsFirstBoundary : Prop :=
  (∀ (c : Config) (t t' : ClassTable) (p : Pulse), joinRun c t p = some t' ↔
    c.durMin ≤ p.duration.toNat ∧ p.duration.toNat ≤ c.durMax ∧
    ∃ (i : Nat) (x : TimingClass), (t.level p.level)[i]? = some x ∧ ClassAccepts c x p.duration.toNat ∧
      (∀ (j : Nat) (y : TimingClass), j < i → (t.level p.level)[j]? = some y →
        ¬ ClassAccepts c y p.duration.toNat) ∧
      t'.level p.level = (t.level p.level).set i
        ⟨(x.avg * x.cnt + p.duration.toNat) / (x.cnt + 1), x.cnt + 1⟩ ∧
      t'.level (!p.level) = t.level (!p.level)) ∧
  (∀ (c : Config) (t : ClassTable) (p : Pulse), joinRun c t p = none ↔
    p.duration.toNat < c.durMin ∨ c.durMax < p.duration.toNat ∨
    ∀ x ∈ t.level p.level, ¬ ClassAccepts c x p.duration.toNat) ∧
  (∀ (n : Nat) (lv : Bool), (ClassTable.empty n).level lv = List.replicate n ⟨0, 0⟩) ∧
  ∀ (c : Config) (ring : Word → Pulse) (k0 : Word) (maxn : Nat),
    runTable c ring k0 0 = some (ClassTable.empty c.nclass) ∧
    (measureRun c ring k0 maxn).len ≤ maxn ∧ (measureRun c ring k0 maxn).len ≤ c.maxRun ∧
    (∃ t, runTable c ring k0 (measureRun c ring k0 maxn).len = some t ∧
      (measureRun c ring k0 maxn).unit = t.unit) ∧
    ((measureRun c ring k0 maxn).len = maxn ∨ (measureRun c ring k0 maxn).len = c.maxRun ∨
      runTable c ring k0 ((measureRun c ring k0 maxn).len + 1) = none) ∧
    ((measureRun c ring k0 maxn).len = 0 → (measureRun c ring k0 maxn).unit = 0) ∧
    (1 ≤ (measureRun c ring k0 maxn).len →
      c.durMin ≤ (measureRun c ring k0 maxn).unit ∧ (measureRun c ring k0 maxn).unit < 2 ^ 32)

/-- The scan window ends at WIDX, holds at most RING_SIZE pulses, and starts at SCAN_LAST unless more than
RING_SIZE were written since (R279). -/
def Obligations.ScanWindowHoldsOnlyLivePulses : Prop :=
  ∀ s : State, s.Inv →
    s.scanWindow.base + BitVec.ofNat 32 s.scanWindow.avail = s.widx ∧
    s.scanWindow.avail = min (s.widx - s.scanLast).toNat s.cfg.ringSize ∧
    ((s.widx - s.scanLast).toNat ≤ s.cfg.ringSize → s.scanWindow.base = s.scanLast)

/-- R283: the copy leaves the run's level waveform, one bit per unit (max(1, (d + unit div 2) div unit) bits for
a pulse of duration d), truncated at the capacity, on a zeroed buffer. -/
def Obligations.ConversionSamplesTheLevels : Prop :=
  ∀ (ring : Word → Pulse) (cap : Nat) (k0 : Word) (r : Run), cap < 2 ^ 32 →
    (convertRun ring cap k0 r).numbits.toNat = min cap (runSymbols ring k0 r).length ∧
    (∀ p, p < min cap (runSymbols ring k0 r).length →
      (runSymbols ring k0 r)[p]? = some (bitRead (convertRun ring cap k0 r).data p)) ∧
    (∀ p, min cap (runSymbols ring k0 r).length ≤ p → bitRead (convertRun ring cap k0 r).data p = false)

/-- What SCAN does with the runs of its walk (R280 to R284). When none meets the conditions of R281, RES is 0
and the detected signal is untouched. Otherwise RES is 1, SIG_READY is set, and SIG_START, SCAN_BEST, SIG_UNIT
and BUF0 hold the longest run of at least MIN_RUN pulses, the last one among equals; it is no shorter than the
best before. SCAN_LAST becomes the start of the run that reaches the end of the window, if there is one, else
WIDX. ERR is OK; the other buffers, the ring and everything else keep their values. -/
def Obligations.ScanHoldsTheLongestRun : Prop :=
  ∀ s : State, s.Inv →
    ∃ t : State, exec .scan s = .next t ∧
      ((∀ k, s.walkVisits k → ¬ s.walkQualifies k) →
        t.res = 0#32 ∧ t.buf 0 = s.buf 0 ∧ t.scanBest = s.scanBest ∧ t.sigStart = s.sigStart ∧
        t.sigUnit = s.sigUnit ∧ t.sigReady = s.sigReady) ∧
      ((∃ k, s.walkVisits k ∧ s.walkQualifies k) →
        t.res = 1#32 ∧ t.sigReady = true ∧ s.scanBest.toNat ≤ t.scanBest.toNat ∧
        ∃ k, s.walkVisits k ∧ s.cfg.minRun ≤ (s.walkRun k).len ∧ t.sigStart = s.walkStart k ∧
          t.scanBest.toNat = (s.walkRun k).len ∧ t.sigUnit.toNat = (s.walkRun k).unit ∧
          t.buf 0 = convertRun s.ringAt (s.capBits 0) (s.walkStart k) (s.walkRun k) ∧
          ∀ j, s.walkVisits j → s.cfg.minRun ≤ (s.walkRun j).len →
            (s.walkRun j).len ≤ (s.walkRun k).len ∧ (k < j → (s.walkRun j).len < (s.walkRun k).len)) ∧
      (∀ k, s.walkVisits k → s.walkRunOpen k → t.scanLast = s.walkStart k) ∧
      ((∀ k, s.walkVisits k → ¬ s.walkRunOpen k) → t.scanLast = s.widx) ∧
      OtherBufsSame 0 s t ∧
      t = { s with bufs := t.bufs, res := t.res, scanLast := t.scanLast, scanBest := t.scanBest,
                   sigStart := t.sigStart, sigUnit := t.sigUnit, sigReady := t.sigReady,
                   status := finishedStatus s .ok }

/-- R286 (1): after any SCAN, a second SCAN with no new pulses gives RES = 0 and leaves the scanner
registers and BUF0 unchanged. The spec marks the law "[derived: from rule R281 and rule R282]". -/
def Obligations.ScanIsIdempotent : Prop :=
  ∀ s t : State, s.Inv → exec .scan s = .next t →
    exec .scan t = .next { t with res := 0#32, status := finishedStatus t .ok }

/-- R286 (4): after SCAN, the pulses from SCAN_LAST to WIDX are at most min(RING_SIZE, MAX_RUN).
The spec marks the law "[derived: from rule R281 and rule R282]". -/
def Obligations.ScanLeavesAtMostOneOpenRun : Prop :=
  ∀ s t : State, s.Inv → exec .scan s = .next t →
    (t.widx - t.scanLast).toNat ≤ min s.cfg.ringSize s.cfg.maxRun

/-- SRESET clears the scanner registers, BUF0 and the MessageInfo record, skips the pulses already in the
ring, and changes nothing else but ERR; twice is once (R285). -/
def Obligations.SresetClearsTheCurrentSignal : Prop :=
  ∀ s : State, ∃ t : State, exec .sreset s = .next t ∧
    t.scanBest = 0#32 ∧ t.sigReady = false ∧ t.sigStart = 0#32 ∧ t.sigUnit = 0#32 ∧ t.scanLast = s.widx ∧
    (∀ i, t.readByte 0 i = 0#8) ∧ t.numbits 0 = 0 ∧ t.mi = MiRecord.cleared s.cfg ∧
    OtherBufsSame 0 s t ∧
    t = { s with bufs := t.bufs, scanBest := t.scanBest, sigReady := t.sigReady, sigStart := t.sigStart,
                 sigUnit := t.sigUnit, scanLast := t.scanLast, mi := t.mi,
                 status := finishedStatus s .ok } ∧
    exec .sreset t = .next t

/-! ### DecoderRegistry -/

/-- R301: publishing truncates each text to its field, pads it with 0x00 and never overflows; MI_VALID,
MI_DEC and MI_BITLEN come from the winner. -/
def Obligations.PublishTruncatesAndPads : Prop :=
  (∀ (n : Nat) (text : List Byte),
    (fieldBytes n text).length = n ∧
    (∀ j, j < n → j < text.length → (fieldBytes n text)[j]? = text[j]?) ∧
    (∀ j, j < n → text.length ≤ j → (fieldBytes n text)[j]? = some 0#8)) ∧
  (∀ (s : State) (k : Nat) (m : MessageInfo), ∃ r : MiRecord, s.publish k m = { s with mi := r } ∧
    r.valid = true ∧ r.dec = BitVec.ofNat 32 k ∧ r.bitlen = m.bitlen ∧
    r.name = fieldBytes s.cfg.nameMax m.name ∧ r.raw = fieldBytes s.cfg.rawMax m.raw ∧
    r.info1 = fieldBytes s.cfg.infoMax m.info1 ∧ r.info2 = fieldBytes s.cfg.infoMax m.info2 ∧
    r.info3 = fieldBytes s.cfg.infoMax m.info3 ∧ r.info4 = fieldBytes s.cfg.infoMax m.info4)

/-- DISPATCH: the first decoder in registration order that claims the buffer wins, its record is published
and RES is its index with ERR = OK; when none does, MI stays cleared, RES is NOT_FOUND and ERR NO_MATCH.
SIG_READY is cleared exactly when the source is BUF0, and nothing else changes (R303, R304). -/
def Obligations.DispatchFirstMatchWins : Prop :=
  ∀ (s : State) (b : BufIx),
    (∀ (k : Nat) (e : DecoderEntry) (m : MessageInfo), s.cfg.decoders[k]? = some e →
      runDecoder s.cfg e.fn (s.buf b) (s.cap b) = some m →
      (∀ (j : Nat) (e' : DecoderEntry), j < k → s.cfg.decoders[j]? = some e' →
        runDecoder s.cfg e'.fn (s.buf b) (s.cap b) = none) →
      exec (.dispatch b) s = .next { s with
        mi := (s.publish k m).mi
        sigReady := if b = 0 then false else s.sigReady
        res := BitVec.ofNat 32 k
        status := finishedStatus s .ok }) ∧
    ((∀ e ∈ s.cfg.decoders, runDecoder s.cfg e.fn (s.buf b) (s.cap b) = none) →
      exec (.dispatch b) s = .next { s with
        mi := MiRecord.cleared s.cfg
        sigReady := if b = 0 then false else s.sigReady
        res := notFound
        status := finishedStatus s .noMatch })

/-- R305: after DISPATCH, MI_VALID = 1 exactly when ERR = OK; then every field is the one winner's, and
otherwise the record is cleared. The characters the winner returned are all 1 to 255 (R300). The spec marks the
rule "[derived: from rule R303]". -/
def Obligations.NoPartialPublication : Prop :=
  ∀ (s t : State) (b : BufIx), exec (.dispatch b) s = .next t →
    (t.mi.valid = true ↔ statusErr t.status = Err.ok.code) ∧
    (t.mi.valid = true → ∃ (k : Nat) (e : DecoderEntry) (m : MessageInfo),
      s.cfg.decoders[k]? = some e ∧ runDecoder s.cfg e.fn (s.buf b) (s.cap b) = some m ∧
      (∀ x ∈ m.name ++ m.raw ++ m.info1 ++ m.info2 ++ m.info3 ++ m.info4, 1 ≤ x.toNat ∧ x.toNat ≤ 255) ∧
      t.mi = (s.publish k m).mi) ∧
    (t.mi.valid = false → t.mi = MiRecord.cleared s.cfg)

/-- The Toyota TPMS decoder on a frame: the first of the four syncs that occurs starts at `p`, the 72 data
bits of the nine bytes `raw` follow from the sync's last two symbols on, differential Manchester encoded
from level 1, and the ninth byte is the CRC of the first eight. Then DISPATCH, with this decoder first,
publishes the message (R310 to R317). The decoder reads the configured DM_TABLE, here the default one:
assumption log 11. The starting level 1, the temperature's byte indexes and the suffix " C" are the spec's own,
from general knowledge: assumption log 10. -/
def Obligations.ToyotaFrameIsDecoded : Prop :=
  ∀ (s : State) (b : BufIx) (e : DecoderEntry) (es : List DecoderEntry) (v p : Nat) (sync : List Bool)
      (raw : List Byte), s.Inv →
    s.cfg.dmTable = DmTable.default → s.cfg.decoders = e :: es → e.fn = .toyotaTpms →
    toyotaSyncs[v]? = some sync →
    (∀ (j : Nat) (sync' : List Bool) (q : Nat), j < v → toyotaSyncs[j]? = some sync' →
      matchAt (s.buf b) q sync' = false) →
    matchAt (s.buf b) p sync = true → (∀ q, q < p → matchAt (s.buf b) q sync = false) →
    raw.length = 9 → crc8 (raw.take 8) 0x80#8 0x07#8 = raw.getD 8 0#8 →
    p + sync.length - 2 + 144 ≤ s.numbits b →
    (∀ k, k < 144 → (dmEncode true (streamBits raw))[k]? = some (s.readBit b (p + sync.length - 2 + k))) →
    ∃ t : State, exec (.dispatch b) s = .next t ∧ t.res = 0#32 ∧ statusErr t.status = Err.ok.code ∧
      t.mi = {
        valid := true
        dec := 0#32
        bitlen := BitVec.ofNat 32 (p + sync.length - 2 + 144)
        name := fieldBytes s.cfg.nameMax toyotaName
        raw := fieldBytes s.cfg.rawMax (hexUpper raw)
        info1 := List.replicate s.cfg.infoMax 0#8
        info2 := fieldBytes s.cfg.infoMax (toyotaInfo2 raw)
        info3 := List.replicate s.cfg.infoMax 0#8
        info4 := List.replicate s.cfg.infoMax 0#8 }

/-- The checksum gate: whatever the Toyota decoder returns is nine bytes whose ninth is the CRC of the
first eight, and its temperature lies in -40 to 215 (R315, R316). -/
def Obligations.ToyotaChecksumGate : Prop :=
  ∀ (t : DmTable) (b : BitBuffer) (m : MessageInfo), toyotaDecode t b = some m →
    ∃ (raw : List Byte) (off : Nat), raw.length = 9 ∧ crc8 (raw.take 8) 0x80#8 0x07#8 = raw.getD 8 0#8 ∧
      m = toyotaResult raw off ∧ -40 ≤ toyotaTemp raw ∧ toyotaTemp raw ≤ 215

/-! ### The host, the producer and reset -/

/-- A host read within the contract returns the register of the map and changes nothing of the machine
(R90), with the content R87 gives it: a 1-bit or 6-bit field and a character stand in the low bits, the others
read 0; a reserved offset reads 0 (R89); CMD reads 0 (R140). The word goes to `readData`, a field of the
model's own: assumption log 4. -/
def Obligations.HostReadsHaveNoSideEffects : Prop :=
  ∀ (s : State) (rest : List Event) (offset : Nat), s.pending = .hostRead 32 offset :: rest →
    offset % 4 = 0 → offset ≤ 0x3FFC →
    ∃ v : Word, step s = .next { s with pending := rest, readData := some v } ∧
      v = hostReadReg (hostReg s.cfg offset) s ∧
      (hostReg s.cfg offset = .reserved → v = 0#32) ∧ (offset = 0x000 → v = 0#32) ∧
      (hostReg s.cfg offset = .status → v = s.status) ∧ (hostReg s.cfg offset = .res → v = s.res) ∧
      (∀ k, hostReg s.cfg offset = .arg k → v = s.args[k]) ∧
      (hostReg s.cfg offset = .dmprev → v = if s.dmprev then 1#32 else 0#32) ∧
      (hostReg s.cfg offset = .widx → v = s.widx) ∧
      (hostReg s.cfg offset = .scanLast → v = s.scanLast) ∧
      (hostReg s.cfg offset = .scanBest → v = s.scanBest) ∧
      (hostReg s.cfg offset = .scanStat → v = if s.sigReady then 1#32 else 0#32) ∧
      (hostReg s.cfg offset = .sigStart → v = s.sigStart) ∧
      (hostReg s.cfg offset = .sigUnit → v = s.sigUnit) ∧
      (∀ k, hostReg s.cfg offset = .patBits k → v = (s.pats[k]).bits) ∧
      (∀ k, hostReg s.cfg offset = .patLen k → v = ((s.pats[k]).len).setWidth 32) ∧
      (∀ b, hostReg s.cfg offset = .numbits b → v = (s.buf b).numbits) ∧
      (∀ b, hostReg s.cfg offset = .capBytes b → v = BitVec.ofNat 32 (s.cap b)) ∧
      (hostReg s.cfg offset = .miStat → v = if s.mi.valid then 1#32 else 0#32) ∧
      (hostReg s.cfg offset = .miDec → v = s.mi.dec) ∧
      (hostReg s.cfg offset = .miBitlen → v = s.mi.bitlen) ∧
      (∀ j, hostReg s.cfg offset = .miName j → v = (s.mi.name.getD j 0#8).setWidth 32) ∧
      (∀ j, hostReg s.cfg offset = .miRaw j → v = (s.mi.raw.getD j 0#8).setWidth 32) ∧
      (∀ j, hostReg s.cfg offset = .miInfo 0 j → v = (s.mi.info1.getD j 0#8).setWidth 32) ∧
      (∀ j, hostReg s.cfg offset = .miInfo 1 j → v = (s.mi.info2.getD j 0#8).setWidth 32) ∧
      (∀ j, hostReg s.cfg offset = .miInfo 2 j → v = (s.mi.info3.getD j 0#8).setWidth 32) ∧
      (∀ j, hostReg s.cfg offset = .miInfo 3 j → v = (s.mi.info4.getD j 0#8).setWidth 32)

/-- A host write to an offset other than CMD changes only the register there: ARGn, PATBITSk, PATLENk (as
min(v, 32)) and DMPREV (bit 0); a read-only or reserved offset ignores it (R34, R37, R87, R89, R90). What
was written reads back: the whole word from ARGn and PATBITSk, min(v, 32) from PATLENk, bit 0 from DMPREV. -/
def Obligations.HostWritesChangeOneRegister : Prop :=
  ∀ (s : State) (rest : List Event) (offset : Nat) (v : Word), s.pending = .hostWrite 32 offset v :: rest →
    offset % 4 = 0 → offset ≤ 0x3FFC → offset ≠ 0x000 →
    ∃ t : State, step s = .next t ∧
      t = { s with pending := rest, args := t.args, pats := t.pats, dmprev := t.dmprev } ∧
      ((∀ k, hostReg s.cfg offset ≠ .arg k) → t.args = s.args) ∧
      ((∀ k, hostReg s.cfg offset ≠ .patBits k ∧ hostReg s.cfg offset ≠ .patLen k) → t.pats = s.pats) ∧
      (hostReg s.cfg offset ≠ .dmprev → t.dmprev = s.dmprev) ∧
      (hostReg s.cfg offset = .dmprev → t.dmprev = v.getLsbD 0 ∧
        hostReadReg (hostReg s.cfg offset) t = v &&& 1#32) ∧
      (∀ k, hostReg s.cfg offset = .arg k →
        t.args[k] = v ∧ hostReadReg (hostReg s.cfg offset) t = v ∧ ∀ j : ArgIx, j ≠ k → t.args[j] = s.args[j]) ∧
      (∀ k, hostReg s.cfg offset = .patBits k →
        t.pats[k] = ⟨v, (s.pats[k]).len⟩ ∧ hostReadReg (hostReg s.cfg offset) t = v ∧
        ∀ j : PatIx, j ≠ k → t.pats[j] = s.pats[j]) ∧
      (∀ k, hostReg s.cfg offset = .patLen k →
        (t.pats[k]).plen = min v.toNat 32 ∧ (t.pats[k]).bits = (s.pats[k]).bits ∧
        (hostReadReg (hostReg s.cfg offset) t).toNat = min v.toNat 32 ∧
        ∀ j : PatIx, j ≠ k → t.pats[j] = s.pats[j])

/-- R88: an access that is not 32 bits wide, not at a multiple of 4, or not within 0x0000 to 0x3FFC is
refused. -/
def Obligations.BadHostAccessesAreRefused : Prop :=
  ∀ (s : State) (rest : List Event) (width offset : Nat) (v : Word),
    (width ≠ 32 ∨ offset % 4 ≠ 0 ∨ 0x3FFC < offset) →
    (s.pending = .hostRead width offset :: rest → step s = .refused (.hostContract width offset)) ∧
    (s.pending = .hostWrite width offset v :: rest → step s = .refused (.hostContract width offset))

/-- The register map (R87): every row of it, at its offset. -/
def Obligations.RegisterMapIsTheTable : Prop :=
  ∀ c : Config, c.wf = true →
    hostReg c 0x000 = .cmd ∧ hostReg c 0x004 = .status ∧ hostReg c 0x008 = .res ∧
    hostReg c 0x00C = .reserved ∧ (∀ k : ArgIx, hostReg c (0x010 + 4 * k.val) = .arg k) ∧
    hostReg c 0x020 = .dmprev ∧ hostReg c 0x024 = .widx ∧ hostReg c 0x028 = .scanLast ∧
    hostReg c 0x02C = .scanBest ∧ hostReg c 0x030 = .scanStat ∧ hostReg c 0x034 = .sigStart ∧
    hostReg c 0x038 = .sigUnit ∧ hostReg c 0x03C = .reserved ∧
    (∀ k : PatIx, hostReg c (0x040 + 8 * k.val) = .patBits k ∧ hostReg c (0x044 + 8 * k.val) = .patLen k) ∧
    (∀ b : BufIx, hostReg c (0x080 + 4 * b.val) = .numbits b ∧ hostReg c (0x090 + 4 * b.val) = .capBytes b) ∧
    hostReg c 0x0A0 = .miStat ∧ hostReg c 0x0A4 = .miDec ∧ hostReg c 0x0A8 = .miBitlen ∧
    (∀ o, 0x0AC ≤ o → o ≤ 0x0FFC → hostReg c o = .reserved) ∧
    (∀ j, j < 1024 → hostReg c (0x1000 + 4 * j) = if j < c.nameMax then .miName j else .reserved) ∧
    (∀ j, j < 1024 → hostReg c (0x2000 + 4 * j) = if j < c.rawMax then .miRaw j else .reserved) ∧
    (∀ (n : Fin 4) (j : Nat), j < 256 →
      hostReg c (0x3000 + 0x400 * n.val + 4 * j) = if j < c.infoMax then .miInfo n j else .reserved)

/-- The producer's step writes the entry at WIDX and then advances WIDX, mod 2^32; the other slots and all
core state keep their values (R272). -/
def Obligations.ProducerWritesThenPublishes : Prop :=
  ∀ (s : State) (rest : List Event) (level : Bool) (duration : Word), s.Inv →
    s.pending = .produce level duration :: rest →
    ∃ t : State, step s = .next t ∧ t.widx.toNat = (s.widx.toNat + 1) % 2 ^ 32 ∧
      t.ringAt s.widx = ⟨level, duration⟩ ∧
      (∀ j : Word, j.toNat % s.cfg.ringSize ≠ s.widx.toNat % s.cfg.ringSize → t.ringAt j = s.ringAt j) ∧
      t = { s with pending := rest, ring := t.ring, widx := t.widx }

/-- Reset gives every piece of core state the value of R45 and keeps the producer's ring and WIDX and the
configuration (R370, R371; assumption log 8). -/
def Obligations.ResetGivesEveryCoreValue : Prop :=
  ∀ (s : State) (rest : List Event), s.pending = .reset :: rest →
    ∃ t : State, step s = .next t ∧
      (∀ k : ArgIx, t.args[k] = 0#32) ∧ t.res = 0#32 ∧ t.status = 0#32 ∧
      (∀ k : PatIx, (t.pats[k]).bits = 0#32 ∧ (t.pats[k]).plen = 0) ∧
      (∀ (b : BufIx) (i : Nat), t.readByte b i = 0#8) ∧ (∀ b : BufIx, t.numbits b = 0) ∧
      t.dmprev = false ∧ t.scanLast = 0#32 ∧ t.scanBest = 0#32 ∧ t.sigReady = false ∧
      t.sigStart = 0#32 ∧ t.sigUnit = 0#32 ∧
      t.mi.valid = false ∧ t.mi.dec = 0xFFFFFFFF#32 ∧ t.mi.bitlen = 0#32 ∧
      (∀ x ∈ t.mi.name ++ t.mi.raw ++ t.mi.info1 ++ t.mi.info2 ++ t.mi.info3 ++ t.mi.info4, x = 0#8) ∧
      t.ring = s.ring ∧ t.widx = s.widx ∧ t.cfg = s.cfg ∧ t.pending = rest

/-- The pseudo-instruction `PAT k = "s"`: its two register writes leave a pattern whose elements are the
literal's (R34, R120). -/
def Obligations.PatMacroLoadsTheLiteral : Prop :=
  ∀ (s : State) (k : PatIx) (lit : List Bool) (rest : List Event), lit.length ≤ 32 →
    ∃ t : State, Sys2Proof.core.run 2 { s with pending := macroPat k lit ++ rest } = .next t ∧
      t.patElems k = lit ∧ (∀ j : PatIx, j ≠ k → t.pats[j] = s.pats[j]) ∧
      t = { s with pending := rest, pats := t.pats }

/-- The pseudo-instruction `LOAD bN, [h0, …, hm], nbits`: its commands leave the bytes in the buffer from
index 0 on and numbits at nbits, with no error; the other bytes and buffers keep their values (R120). -/
def Obligations.LoadMacroLoadsTheBytes : Prop :=
  ∀ (s : State) (b : BufIx) (bytes : List Byte) (nbits : Word) (rest : List Event), s.Inv →
    bytes.length ≤ s.cap b → nbits.toNat ≤ s.capBits b →
    ∃ t : State,
      Sys2Proof.core.run (3 * bytes.length + 2) { s with pending := macroLoad b bytes nbits ++ rest } = .next t ∧
      (∀ i, i < bytes.length → bytes[i]? = some (t.readByte b i)) ∧
      (∀ i, bytes.length ≤ i → t.readByte b i = s.readByte b i) ∧
      t.numbits b = nbits.toNat ∧ OtherBufsSame b s t ∧ statusErr t.status = Err.ok.code ∧
      statusFault t.status = statusFault s.status ∧ t.pending = rest
end

