-- ==== Sys2Proof/Laws/Sparse.lean ====
section
/-! SUPPORT. The laws of sparse storage: what a read sees after a write, that every operation keeps the
canonical form, and that equal contents are equal lists. -/

namespace Sys2Proof.Machine

variable {β : Type} {d : β} {m : List (Nat × β)}

theorem sparseWf_nil : sparseWf d ([] : List (Nat × β)) := by simp [sparseWf]

theorem sparseWf_cons {c : Nat × β} :
    sparseWf d (c :: m) ↔ (∀ x ∈ m, c.1 < x.1) ∧ c.2 ≠ d ∧ sparseWf d m := by
  simp only [sparseWf, List.pairwise_cons, List.forall_mem_cons]
  tauto

/-- An address below every listed one is unlisted. -/
theorem sparseRead_of_lt {a : Nat} (h : ∀ x ∈ m, a < x.1) : sparseRead d m a = d := by
  induction m with
  | nil => rfl
  | cons c m ih =>
    have hc : c.1 ≠ a := by have := h c (by simp); omega
    simp only [sparseRead, hc, if_false]
    exact ih (fun x hx => h x (by simp [hx]))

/-- An address with no entry reads as the default. -/
theorem sparseRead_of_unlisted {a : Nat} (h : ∀ x ∈ m, x.1 ≠ a) : sparseRead d m a = d := by
  induction m with
  | nil => rfl
  | cons c m ih =>
    simp only [sparseRead, h c (by simp), if_false]
    exact ih (fun x hx => h x (by simp [hx]))

theorem sparseWrite_mem [DecidableEq β] {a : Nat} {v : β} {x : Nat × β}
    (h : x ∈ sparseWrite d m a v) : x = (a, v) ∧ v ≠ d ∨ x ∈ m := by
  induction m with
  | nil =>
    simp only [sparseWrite] at h
    split at h <;> simp_all
  | cons c m ih =>
    simp only [sparseWrite] at h
    split at h
    · split at h <;> simp_all
    · split at h
      · split at h <;> (simp_all; try tauto)
      · simp only [List.mem_cons] at h ⊢
        rcases h with h | h
        · exact .inr (.inl h)
        · rcases ih h with h | h
          · exact .inl h
          · exact .inr (.inr h)

/-- Every write keeps the canonical form. -/
theorem sparseWrite_wf [DecidableEq β] {a : Nat} {v : β} (h : sparseWf d m) :
    sparseWf d (sparseWrite d m a v) := by
  induction m with
  | nil =>
    simp only [sparseWrite]
    split
    · exact sparseWf_nil
    · simp_all [sparseWf]
  | cons c m ih =>
    obtain ⟨hlt, hne, hm⟩ := sparseWf_cons.1 h
    simp only [sparseWrite]
    split
    · rename_i hac
      split
      · exact h
      · refine sparseWf_cons.2 ⟨?_, by assumption, h⟩
        intro x hx
        rcases List.mem_cons.1 hx with rfl | hx
        · exact hac
        · exact hac.trans (hlt x hx)
    · split
      · rename_i hac
        split
        · exact hm
        · exact sparseWf_cons.2 ⟨by simpa [hac] using hlt, by assumption, hm⟩
      · refine sparseWf_cons.2 ⟨?_, hne, ih hm⟩
        intro x hx
        rcases sparseWrite_mem hx with ⟨rfl, -⟩ | hx
        · show c.1 < a
          omega
        · exact hlt x hx

/-- A read sees the value just written at its address. -/
theorem sparseRead_write_self [DecidableEq β] {a : Nat} {v : β} (h : sparseWf d m) :
    sparseRead d (sparseWrite d m a v) a = v := by
  induction m with
  | nil =>
    simp only [sparseWrite]
    split <;> simp_all [sparseRead]
  | cons c m ih =>
    obtain ⟨hlt, -, hm⟩ := sparseWf_cons.1 h
    simp only [sparseWrite]
    split
    · rename_i hac
      split
      · rename_i hv
        rw [hv]
        refine sparseRead_of_lt fun x hx => ?_
        rcases List.mem_cons.1 hx with rfl | hx
        · exact hac
        · exact hac.trans (hlt x hx)
      · simp [sparseRead]
    · split
      · rename_i hac
        split
        · rename_i hv
          rw [hv]
          exact sparseRead_of_lt (by simpa [hac] using hlt)
        · simp [sparseRead]
      · have hc : c.1 ≠ a := by omega
        simp only [sparseRead, hc, if_false]
        exact ih hm

/-- A write leaves every other address alone. -/
theorem sparseRead_write_ne [DecidableEq β] {a b : Nat} {v : β} (hab : b ≠ a) :
    sparseRead d (sparseWrite d m a v) b = sparseRead d m b := by
  induction m with
  | nil =>
    simp only [sparseWrite]
    split <;> simp [sparseRead, hab.symm]
  | cons c m ih =>
    simp only [sparseWrite]
    split
    · split <;> simp [sparseRead, hab.symm]
    · split
      · rename_i hac
        have hc : c.1 ≠ b := by omega
        split <;> simp [sparseRead, hab.symm, hc]
      · by_cases hc : c.1 = b <;> simp [sparseRead, hc, ih]

/-- Every address a write lists is the written one or was listed before. -/
theorem sparseWrite_bounded [DecidableEq β] {a n : Nat} {v : β} (h : ∀ x ∈ m, x.1 < n) (ha : a < n) :
    ∀ x ∈ sparseWrite d m a v, x.1 < n := by
  intro x hx
  rcases sparseWrite_mem hx with ⟨rfl, -⟩ | hx
  · exact ha
  · exact h x hx

/-- In the canonical form, equal contents are equal lists. -/
theorem sparse_ext {m' : List (Nat × β)} (h : sparseWf d m) (h' : sparseWf d m')
    (heq : ∀ a, sparseRead d m a = sparseRead d m' a) : m = m' := by
  induction m generalizing m' with
  | nil =>
    cases m' with
    | nil => rfl
    | cons c' m' =>
      have hh := heq c'.1
      simp only [sparseRead, if_true] at hh
      exact absurd hh.symm (sparseWf_cons.1 h').2.1
  | cons c m ih =>
    obtain ⟨hlt, hne, hm⟩ := sparseWf_cons.1 h
    cases m' with
    | nil =>
      have hh := heq c.1
      simp only [sparseRead, if_true] at hh
      exact absurd hh hne
    | cons c' m' =>
      obtain ⟨hlt', hne', hm'⟩ := sparseWf_cons.1 h'
      have hk : c.1 = c'.1 := by
        rcases Nat.lt_trichotomy c.1 c'.1 with hl | he | hl
        · have hh := heq c.1
          have hu : sparseRead d (c' :: m') c.1 = d := sparseRead_of_lt fun x hx => by
            rcases List.mem_cons.1 hx with rfl | hx
            · exact hl
            · exact hl.trans (hlt' x hx)
          rw [hu] at hh
          simp only [sparseRead, if_true] at hh
          exact absurd hh hne
        · exact he
        · have hh := heq c'.1
          have hu : sparseRead d (c :: m) c'.1 = d := sparseRead_of_lt fun x hx => by
            rcases List.mem_cons.1 hx with rfl | hx
            · exact hl
            · exact hl.trans (hlt x hx)
          rw [hu] at hh
          simp only [sparseRead, if_true] at hh
          exact absurd hh.symm hne'
      have hv : c.2 = c'.2 := by
        have hh := heq c.1
        simpa [sparseRead, hk] using hh
      have hmm : m = m' := ih hm hm' fun a => by
        by_cases ha : c.1 = a
        · rw [sparseRead_of_lt (by simpa [ha] using hlt), sparseRead_of_lt (by simpa [← ha, hk] using hlt')]
        · have hh := heq a
          have ha' : c'.1 ≠ a := by rw [← hk]; exact ha
          simpa [sparseRead, ha, ha'] using hh
      rw [hmm, Prod.ext hk hv]

/-! ### Tables -/

theorem sparseOfFn_mem [DecidableEq β] {f : Nat → β} {n : Nat} {x : Nat × β} :
    x ∈ sparseOfFn d f n ↔ x.1 < n ∧ x.2 = f x.1 ∧ x.2 ≠ d := by
  simp only [sparseOfFn, List.mem_filter, List.mem_map, List.mem_range, decide_eq_true_eq]
  constructor
  · rintro ⟨⟨j, hj, rfl⟩, hd⟩
    exact ⟨hj, rfl, hd⟩
  · rintro ⟨hj, hf, hd⟩
    exact ⟨⟨x.1, hj, by rw [← hf]⟩, hd⟩

/-- A table is canonical. -/
theorem sparseOfFn_wf [DecidableEq β] {f : Nat → β} {n : Nat} : sparseWf d (sparseOfFn d f n) := by
  refine ⟨List.Pairwise.filter _ (List.pairwise_map.2 ?_), fun c hc => (sparseOfFn_mem.1 hc).2.2⟩
  simpa using List.pairwise_lt_range (n := n)

theorem sparseRead_append {l l' : List (Nat × β)} {a : Nat} (h : ∀ x ∈ l, x.1 ≠ a) :
    sparseRead d (l ++ l') a = sparseRead d l' a := by
  induction l with
  | nil => rfl
  | cons c l ih =>
    simp only [List.cons_append, sparseRead, h c (by simp), if_false]
    exact ih (fun x hx => h x (by simp [hx]))

/-- A table holds its function below its length. -/
theorem sparseRead_ofFn [DecidableEq β] {f : Nat → β} {n j : Nat} (h : j < n) :
    sparseRead d (sparseOfFn d f n) j = f j := by
  induction n with
  | zero => omega
  | succ n ih =>
    have hs : sparseOfFn d f (n + 1) = sparseOfFn d f n ++ (if f n ≠ d then [(n, f n)] else []) := by
      simp only [sparseOfFn, List.range_succ, List.map_append, List.filter_append, List.map_cons,
        List.map_nil, List.filter_cons, List.filter_nil, decide_eq_true_eq]
    rw [hs]
    by_cases hj : j = n
    · subst hj
      rw [sparseRead_append (fun x hx => by have := (sparseOfFn_mem.1 hx).1; omega)]
      by_cases hd : f j = d <;> simp [hd, sparseRead]
    · have hjn : j < n := by omega
      rw [← ih hjn]
      by_cases hd : f n = d
      · simp [hd]
      · have : ∀ l : List (Nat × β), sparseRead d (l ++ [(n, f n)]) j = sparseRead d l j := by
          intro l
          induction l with
          | nil => simp [sparseRead, Ne.symm hj]
          | cons c l ihl => simp only [List.cons_append, sparseRead, ihl]
        simp [hd, this]

/-- Above its length a table is unlisted. -/
theorem sparseRead_ofFn_ge [DecidableEq β] {f : Nat → β} {n j : Nat} (h : n ≤ j) :
    sparseRead d (sparseOfFn d f n) j = d :=
  sparseRead_of_unlisted fun x hx => by have := (sparseOfFn_mem.1 hx).1; omega

end Sys2Proof.Machine
end

