-- ==== Sys2Proof/Laws/State.lean ====
section
/-! SUPPORT. One lemma for each field after each update of the state, true by unfolding, so that no proof
unfolds a record update. -/

namespace Sys2Proof.Machine

/-! #### setBuf -/

@[simp] theorem State.setBuf_cfg (s : State) (b : BufIx) (x : BitBuffer) :
    (s.setBuf b x).cfg = s.cfg := rfl
@[simp] theorem State.setBuf_args (s : State) (b : BufIx) (x : BitBuffer) :
    (s.setBuf b x).args = s.args := rfl
@[simp] theorem State.setBuf_res (s : State) (b : BufIx) (x : BitBuffer) :
    (s.setBuf b x).res = s.res := rfl
@[simp] theorem State.setBuf_status (s : State) (b : BufIx) (x : BitBuffer) :
    (s.setBuf b x).status = s.status := rfl
@[simp] theorem State.setBuf_pats (s : State) (b : BufIx) (x : BitBuffer) :
    (s.setBuf b x).pats = s.pats := rfl
@[simp] theorem State.setBuf_bufs (s : State) (b : BufIx) (x : BitBuffer) :
    (s.setBuf b x).bufs = s.bufs.set b.val x b.isLt := rfl
@[simp] theorem State.setBuf_dmprev (s : State) (b : BufIx) (x : BitBuffer) :
    (s.setBuf b x).dmprev = s.dmprev := rfl
@[simp] theorem State.setBuf_scanLast (s : State) (b : BufIx) (x : BitBuffer) :
    (s.setBuf b x).scanLast = s.scanLast := rfl
@[simp] theorem State.setBuf_scanBest (s : State) (b : BufIx) (x : BitBuffer) :
    (s.setBuf b x).scanBest = s.scanBest := rfl
@[simp] theorem State.setBuf_sigReady (s : State) (b : BufIx) (x : BitBuffer) :
    (s.setBuf b x).sigReady = s.sigReady := rfl
@[simp] theorem State.setBuf_sigStart (s : State) (b : BufIx) (x : BitBuffer) :
    (s.setBuf b x).sigStart = s.sigStart := rfl
@[simp] theorem State.setBuf_sigUnit (s : State) (b : BufIx) (x : BitBuffer) :
    (s.setBuf b x).sigUnit = s.sigUnit := rfl
@[simp] theorem State.setBuf_mi (s : State) (b : BufIx) (x : BitBuffer) :
    (s.setBuf b x).mi = s.mi := rfl
@[simp] theorem State.setBuf_ring (s : State) (b : BufIx) (x : BitBuffer) :
    (s.setBuf b x).ring = s.ring := rfl
@[simp] theorem State.setBuf_widx (s : State) (b : BufIx) (x : BitBuffer) :
    (s.setBuf b x).widx = s.widx := rfl
@[simp] theorem State.setBuf_pending (s : State) (b : BufIx) (x : BitBuffer) :
    (s.setBuf b x).pending = s.pending := rfl
@[simp] theorem State.setBuf_readData (s : State) (b : BufIx) (x : BitBuffer) :
    (s.setBuf b x).readData = s.readData := rfl

/-! #### setData -/

@[simp] theorem State.setData_cfg (s : State) (b : BufIx) (m : Memory) :
    (s.setData b m).cfg = s.cfg := rfl
@[simp] theorem State.setData_args (s : State) (b : BufIx) (m : Memory) :
    (s.setData b m).args = s.args := rfl
@[simp] theorem State.setData_res (s : State) (b : BufIx) (m : Memory) :
    (s.setData b m).res = s.res := rfl
@[simp] theorem State.setData_status (s : State) (b : BufIx) (m : Memory) :
    (s.setData b m).status = s.status := rfl
@[simp] theorem State.setData_pats (s : State) (b : BufIx) (m : Memory) :
    (s.setData b m).pats = s.pats := rfl
@[simp] theorem State.setData_dmprev (s : State) (b : BufIx) (m : Memory) :
    (s.setData b m).dmprev = s.dmprev := rfl
@[simp] theorem State.setData_scanLast (s : State) (b : BufIx) (m : Memory) :
    (s.setData b m).scanLast = s.scanLast := rfl
@[simp] theorem State.setData_scanBest (s : State) (b : BufIx) (m : Memory) :
    (s.setData b m).scanBest = s.scanBest := rfl
@[simp] theorem State.setData_sigReady (s : State) (b : BufIx) (m : Memory) :
    (s.setData b m).sigReady = s.sigReady := rfl
@[simp] theorem State.setData_sigStart (s : State) (b : BufIx) (m : Memory) :
    (s.setData b m).sigStart = s.sigStart := rfl
@[simp] theorem State.setData_sigUnit (s : State) (b : BufIx) (m : Memory) :
    (s.setData b m).sigUnit = s.sigUnit := rfl
@[simp] theorem State.setData_mi (s : State) (b : BufIx) (m : Memory) :
    (s.setData b m).mi = s.mi := rfl
@[simp] theorem State.setData_ring (s : State) (b : BufIx) (m : Memory) :
    (s.setData b m).ring = s.ring := rfl
@[simp] theorem State.setData_widx (s : State) (b : BufIx) (m : Memory) :
    (s.setData b m).widx = s.widx := rfl
@[simp] theorem State.setData_pending (s : State) (b : BufIx) (m : Memory) :
    (s.setData b m).pending = s.pending := rfl
@[simp] theorem State.setData_readData (s : State) (b : BufIx) (m : Memory) :
    (s.setData b m).readData = s.readData := rfl

/-! #### setNumbits -/

@[simp] theorem State.setNumbits_cfg (s : State) (b : BufIx) (n : Nat) :
    (s.setNumbits b n).cfg = s.cfg := rfl
@[simp] theorem State.setNumbits_args (s : State) (b : BufIx) (n : Nat) :
    (s.setNumbits b n).args = s.args := rfl
@[simp] theorem State.setNumbits_res (s : State) (b : BufIx) (n : Nat) :
    (s.setNumbits b n).res = s.res := rfl
@[simp] theorem State.setNumbits_status (s : State) (b : BufIx) (n : Nat) :
    (s.setNumbits b n).status = s.status := rfl
@[simp] theorem State.setNumbits_pats (s : State) (b : BufIx) (n : Nat) :
    (s.setNumbits b n).pats = s.pats := rfl
@[simp] theorem State.setNumbits_dmprev (s : State) (b : BufIx) (n : Nat) :
    (s.setNumbits b n).dmprev = s.dmprev := rfl
@[simp] theorem State.setNumbits_scanLast (s : State) (b : BufIx) (n : Nat) :
    (s.setNumbits b n).scanLast = s.scanLast := rfl
@[simp] theorem State.setNumbits_scanBest (s : State) (b : BufIx) (n : Nat) :
    (s.setNumbits b n).scanBest = s.scanBest := rfl
@[simp] theorem State.setNumbits_sigReady (s : State) (b : BufIx) (n : Nat) :
    (s.setNumbits b n).sigReady = s.sigReady := rfl
@[simp] theorem State.setNumbits_sigStart (s : State) (b : BufIx) (n : Nat) :
    (s.setNumbits b n).sigStart = s.sigStart := rfl
@[simp] theorem State.setNumbits_sigUnit (s : State) (b : BufIx) (n : Nat) :
    (s.setNumbits b n).sigUnit = s.sigUnit := rfl
@[simp] theorem State.setNumbits_mi (s : State) (b : BufIx) (n : Nat) :
    (s.setNumbits b n).mi = s.mi := rfl
@[simp] theorem State.setNumbits_ring (s : State) (b : BufIx) (n : Nat) :
    (s.setNumbits b n).ring = s.ring := rfl
@[simp] theorem State.setNumbits_widx (s : State) (b : BufIx) (n : Nat) :
    (s.setNumbits b n).widx = s.widx := rfl
@[simp] theorem State.setNumbits_pending (s : State) (b : BufIx) (n : Nat) :
    (s.setNumbits b n).pending = s.pending := rfl
@[simp] theorem State.setNumbits_readData (s : State) (b : BufIx) (n : Nat) :
    (s.setNumbits b n).readData = s.readData := rfl

/-! #### writeBit -/

@[simp] theorem State.writeBit_cfg (s : State) (b : BufIx) (p : Nat) (v : Bool) :
    (s.writeBit b p v).cfg = s.cfg := rfl
@[simp] theorem State.writeBit_args (s : State) (b : BufIx) (p : Nat) (v : Bool) :
    (s.writeBit b p v).args = s.args := rfl
@[simp] theorem State.writeBit_res (s : State) (b : BufIx) (p : Nat) (v : Bool) :
    (s.writeBit b p v).res = s.res := rfl
@[simp] theorem State.writeBit_status (s : State) (b : BufIx) (p : Nat) (v : Bool) :
    (s.writeBit b p v).status = s.status := rfl
@[simp] theorem State.writeBit_pats (s : State) (b : BufIx) (p : Nat) (v : Bool) :
    (s.writeBit b p v).pats = s.pats := rfl
@[simp] theorem State.writeBit_dmprev (s : State) (b : BufIx) (p : Nat) (v : Bool) :
    (s.writeBit b p v).dmprev = s.dmprev := rfl
@[simp] theorem State.writeBit_scanLast (s : State) (b : BufIx) (p : Nat) (v : Bool) :
    (s.writeBit b p v).scanLast = s.scanLast := rfl
@[simp] theorem State.writeBit_scanBest (s : State) (b : BufIx) (p : Nat) (v : Bool) :
    (s.writeBit b p v).scanBest = s.scanBest := rfl
@[simp] theorem State.writeBit_sigReady (s : State) (b : BufIx) (p : Nat) (v : Bool) :
    (s.writeBit b p v).sigReady = s.sigReady := rfl
@[simp] theorem State.writeBit_sigStart (s : State) (b : BufIx) (p : Nat) (v : Bool) :
    (s.writeBit b p v).sigStart = s.sigStart := rfl
@[simp] theorem State.writeBit_sigUnit (s : State) (b : BufIx) (p : Nat) (v : Bool) :
    (s.writeBit b p v).sigUnit = s.sigUnit := rfl
@[simp] theorem State.writeBit_mi (s : State) (b : BufIx) (p : Nat) (v : Bool) :
    (s.writeBit b p v).mi = s.mi := rfl
@[simp] theorem State.writeBit_ring (s : State) (b : BufIx) (p : Nat) (v : Bool) :
    (s.writeBit b p v).ring = s.ring := rfl
@[simp] theorem State.writeBit_widx (s : State) (b : BufIx) (p : Nat) (v : Bool) :
    (s.writeBit b p v).widx = s.widx := rfl
@[simp] theorem State.writeBit_pending (s : State) (b : BufIx) (p : Nat) (v : Bool) :
    (s.writeBit b p v).pending = s.pending := rfl
@[simp] theorem State.writeBit_readData (s : State) (b : BufIx) (p : Nat) (v : Bool) :
    (s.writeBit b p v).readData = s.readData := rfl

/-! #### setRes -/

@[simp] theorem State.setRes_cfg (s : State) (v : Nat) :
    (s.setRes v).cfg = s.cfg := rfl
@[simp] theorem State.setRes_args (s : State) (v : Nat) :
    (s.setRes v).args = s.args := rfl
@[simp] theorem State.setRes_res (s : State) (v : Nat) :
    (s.setRes v).res = BitVec.ofNat 32 v := rfl
@[simp] theorem State.setRes_status (s : State) (v : Nat) :
    (s.setRes v).status = s.status := rfl
@[simp] theorem State.setRes_pats (s : State) (v : Nat) :
    (s.setRes v).pats = s.pats := rfl
@[simp] theorem State.setRes_bufs (s : State) (v : Nat) :
    (s.setRes v).bufs = s.bufs := rfl
@[simp] theorem State.setRes_dmprev (s : State) (v : Nat) :
    (s.setRes v).dmprev = s.dmprev := rfl
@[simp] theorem State.setRes_scanLast (s : State) (v : Nat) :
    (s.setRes v).scanLast = s.scanLast := rfl
@[simp] theorem State.setRes_scanBest (s : State) (v : Nat) :
    (s.setRes v).scanBest = s.scanBest := rfl
@[simp] theorem State.setRes_sigReady (s : State) (v : Nat) :
    (s.setRes v).sigReady = s.sigReady := rfl
@[simp] theorem State.setRes_sigStart (s : State) (v : Nat) :
    (s.setRes v).sigStart = s.sigStart := rfl
@[simp] theorem State.setRes_sigUnit (s : State) (v : Nat) :
    (s.setRes v).sigUnit = s.sigUnit := rfl
@[simp] theorem State.setRes_mi (s : State) (v : Nat) :
    (s.setRes v).mi = s.mi := rfl
@[simp] theorem State.setRes_ring (s : State) (v : Nat) :
    (s.setRes v).ring = s.ring := rfl
@[simp] theorem State.setRes_widx (s : State) (v : Nat) :
    (s.setRes v).widx = s.widx := rfl
@[simp] theorem State.setRes_pending (s : State) (v : Nat) :
    (s.setRes v).pending = s.pending := rfl
@[simp] theorem State.setRes_readData (s : State) (v : Nat) :
    (s.setRes v).readData = s.readData := rfl

/-! #### setDmprev -/

@[simp] theorem State.setDmprev_cfg (s : State) (v : Bool) :
    (s.setDmprev v).cfg = s.cfg := rfl
@[simp] theorem State.setDmprev_args (s : State) (v : Bool) :
    (s.setDmprev v).args = s.args := rfl
@[simp] theorem State.setDmprev_res (s : State) (v : Bool) :
    (s.setDmprev v).res = s.res := rfl
@[simp] theorem State.setDmprev_status (s : State) (v : Bool) :
    (s.setDmprev v).status = s.status := rfl
@[simp] theorem State.setDmprev_pats (s : State) (v : Bool) :
    (s.setDmprev v).pats = s.pats := rfl
@[simp] theorem State.setDmprev_bufs (s : State) (v : Bool) :
    (s.setDmprev v).bufs = s.bufs := rfl
@[simp] theorem State.setDmprev_dmprev (s : State) (v : Bool) :
    (s.setDmprev v).dmprev = v := rfl
@[simp] theorem State.setDmprev_scanLast (s : State) (v : Bool) :
    (s.setDmprev v).scanLast = s.scanLast := rfl
@[simp] theorem State.setDmprev_scanBest (s : State) (v : Bool) :
    (s.setDmprev v).scanBest = s.scanBest := rfl
@[simp] theorem State.setDmprev_sigReady (s : State) (v : Bool) :
    (s.setDmprev v).sigReady = s.sigReady := rfl
@[simp] theorem State.setDmprev_sigStart (s : State) (v : Bool) :
    (s.setDmprev v).sigStart = s.sigStart := rfl
@[simp] theorem State.setDmprev_sigUnit (s : State) (v : Bool) :
    (s.setDmprev v).sigUnit = s.sigUnit := rfl
@[simp] theorem State.setDmprev_mi (s : State) (v : Bool) :
    (s.setDmprev v).mi = s.mi := rfl
@[simp] theorem State.setDmprev_ring (s : State) (v : Bool) :
    (s.setDmprev v).ring = s.ring := rfl
@[simp] theorem State.setDmprev_widx (s : State) (v : Bool) :
    (s.setDmprev v).widx = s.widx := rfl
@[simp] theorem State.setDmprev_pending (s : State) (v : Bool) :
    (s.setDmprev v).pending = s.pending := rfl
@[simp] theorem State.setDmprev_readData (s : State) (v : Bool) :
    (s.setDmprev v).readData = s.readData := rfl

/-! #### setStatus -/

@[simp] theorem State.setStatus_cfg (s : State) (v : Word) :
    (s.setStatus v).cfg = s.cfg := rfl
@[simp] theorem State.setStatus_args (s : State) (v : Word) :
    (s.setStatus v).args = s.args := rfl
@[simp] theorem State.setStatus_res (s : State) (v : Word) :
    (s.setStatus v).res = s.res := rfl
@[simp] theorem State.setStatus_status (s : State) (v : Word) :
    (s.setStatus v).status = v := rfl
@[simp] theorem State.setStatus_pats (s : State) (v : Word) :
    (s.setStatus v).pats = s.pats := rfl
@[simp] theorem State.setStatus_bufs (s : State) (v : Word) :
    (s.setStatus v).bufs = s.bufs := rfl
@[simp] theorem State.setStatus_dmprev (s : State) (v : Word) :
    (s.setStatus v).dmprev = s.dmprev := rfl
@[simp] theorem State.setStatus_scanLast (s : State) (v : Word) :
    (s.setStatus v).scanLast = s.scanLast := rfl
@[simp] theorem State.setStatus_scanBest (s : State) (v : Word) :
    (s.setStatus v).scanBest = s.scanBest := rfl
@[simp] theorem State.setStatus_sigReady (s : State) (v : Word) :
    (s.setStatus v).sigReady = s.sigReady := rfl
@[simp] theorem State.setStatus_sigStart (s : State) (v : Word) :
    (s.setStatus v).sigStart = s.sigStart := rfl
@[simp] theorem State.setStatus_sigUnit (s : State) (v : Word) :
    (s.setStatus v).sigUnit = s.sigUnit := rfl
@[simp] theorem State.setStatus_mi (s : State) (v : Word) :
    (s.setStatus v).mi = s.mi := rfl
@[simp] theorem State.setStatus_ring (s : State) (v : Word) :
    (s.setStatus v).ring = s.ring := rfl
@[simp] theorem State.setStatus_widx (s : State) (v : Word) :
    (s.setStatus v).widx = s.widx := rfl
@[simp] theorem State.setStatus_pending (s : State) (v : Word) :
    (s.setStatus v).pending = s.pending := rfl
@[simp] theorem State.setStatus_readData (s : State) (v : Word) :
    (s.setStatus v).readData = s.readData := rfl

/-! #### setScanLast -/

@[simp] theorem State.setScanLast_cfg (s : State) (v : Word) :
    (s.setScanLast v).cfg = s.cfg := rfl
@[simp] theorem State.setScanLast_args (s : State) (v : Word) :
    (s.setScanLast v).args = s.args := rfl
@[simp] theorem State.setScanLast_res (s : State) (v : Word) :
    (s.setScanLast v).res = s.res := rfl
@[simp] theorem State.setScanLast_status (s : State) (v : Word) :
    (s.setScanLast v).status = s.status := rfl
@[simp] theorem State.setScanLast_pats (s : State) (v : Word) :
    (s.setScanLast v).pats = s.pats := rfl
@[simp] theorem State.setScanLast_bufs (s : State) (v : Word) :
    (s.setScanLast v).bufs = s.bufs := rfl
@[simp] theorem State.setScanLast_dmprev (s : State) (v : Word) :
    (s.setScanLast v).dmprev = s.dmprev := rfl
@[simp] theorem State.setScanLast_scanLast (s : State) (v : Word) :
    (s.setScanLast v).scanLast = v := rfl
@[simp] theorem State.setScanLast_scanBest (s : State) (v : Word) :
    (s.setScanLast v).scanBest = s.scanBest := rfl
@[simp] theorem State.setScanLast_sigReady (s : State) (v : Word) :
    (s.setScanLast v).sigReady = s.sigReady := rfl
@[simp] theorem State.setScanLast_sigStart (s : State) (v : Word) :
    (s.setScanLast v).sigStart = s.sigStart := rfl
@[simp] theorem State.setScanLast_sigUnit (s : State) (v : Word) :
    (s.setScanLast v).sigUnit = s.sigUnit := rfl
@[simp] theorem State.setScanLast_mi (s : State) (v : Word) :
    (s.setScanLast v).mi = s.mi := rfl
@[simp] theorem State.setScanLast_ring (s : State) (v : Word) :
    (s.setScanLast v).ring = s.ring := rfl
@[simp] theorem State.setScanLast_widx (s : State) (v : Word) :
    (s.setScanLast v).widx = s.widx := rfl
@[simp] theorem State.setScanLast_pending (s : State) (v : Word) :
    (s.setScanLast v).pending = s.pending := rfl
@[simp] theorem State.setScanLast_readData (s : State) (v : Word) :
    (s.setScanLast v).readData = s.readData := rfl

/-! #### setArg -/

@[simp] theorem State.setArg_cfg (s : State) (k : ArgIx) (v : Word) :
    (s.setArg k v).cfg = s.cfg := rfl
@[simp] theorem State.setArg_args (s : State) (k : ArgIx) (v : Word) :
    (s.setArg k v).args = s.args.set k.val v k.isLt := rfl
@[simp] theorem State.setArg_res (s : State) (k : ArgIx) (v : Word) :
    (s.setArg k v).res = s.res := rfl
@[simp] theorem State.setArg_status (s : State) (k : ArgIx) (v : Word) :
    (s.setArg k v).status = s.status := rfl
@[simp] theorem State.setArg_pats (s : State) (k : ArgIx) (v : Word) :
    (s.setArg k v).pats = s.pats := rfl
@[simp] theorem State.setArg_bufs (s : State) (k : ArgIx) (v : Word) :
    (s.setArg k v).bufs = s.bufs := rfl
@[simp] theorem State.setArg_dmprev (s : State) (k : ArgIx) (v : Word) :
    (s.setArg k v).dmprev = s.dmprev := rfl
@[simp] theorem State.setArg_scanLast (s : State) (k : ArgIx) (v : Word) :
    (s.setArg k v).scanLast = s.scanLast := rfl
@[simp] theorem State.setArg_scanBest (s : State) (k : ArgIx) (v : Word) :
    (s.setArg k v).scanBest = s.scanBest := rfl
@[simp] theorem State.setArg_sigReady (s : State) (k : ArgIx) (v : Word) :
    (s.setArg k v).sigReady = s.sigReady := rfl
@[simp] theorem State.setArg_sigStart (s : State) (k : ArgIx) (v : Word) :
    (s.setArg k v).sigStart = s.sigStart := rfl
@[simp] theorem State.setArg_sigUnit (s : State) (k : ArgIx) (v : Word) :
    (s.setArg k v).sigUnit = s.sigUnit := rfl
@[simp] theorem State.setArg_mi (s : State) (k : ArgIx) (v : Word) :
    (s.setArg k v).mi = s.mi := rfl
@[simp] theorem State.setArg_ring (s : State) (k : ArgIx) (v : Word) :
    (s.setArg k v).ring = s.ring := rfl
@[simp] theorem State.setArg_widx (s : State) (k : ArgIx) (v : Word) :
    (s.setArg k v).widx = s.widx := rfl
@[simp] theorem State.setArg_pending (s : State) (k : ArgIx) (v : Word) :
    (s.setArg k v).pending = s.pending := rfl
@[simp] theorem State.setArg_readData (s : State) (k : ArgIx) (v : Word) :
    (s.setArg k v).readData = s.readData := rfl

/-! #### setPat -/

@[simp] theorem State.setPat_cfg (s : State) (k : PatIx) (p : PatReg) :
    (s.setPat k p).cfg = s.cfg := rfl
@[simp] theorem State.setPat_args (s : State) (k : PatIx) (p : PatReg) :
    (s.setPat k p).args = s.args := rfl
@[simp] theorem State.setPat_res (s : State) (k : PatIx) (p : PatReg) :
    (s.setPat k p).res = s.res := rfl
@[simp] theorem State.setPat_status (s : State) (k : PatIx) (p : PatReg) :
    (s.setPat k p).status = s.status := rfl
@[simp] theorem State.setPat_pats (s : State) (k : PatIx) (p : PatReg) :
    (s.setPat k p).pats = s.pats.set k.val p k.isLt := rfl
@[simp] theorem State.setPat_bufs (s : State) (k : PatIx) (p : PatReg) :
    (s.setPat k p).bufs = s.bufs := rfl
@[simp] theorem State.setPat_dmprev (s : State) (k : PatIx) (p : PatReg) :
    (s.setPat k p).dmprev = s.dmprev := rfl
@[simp] theorem State.setPat_scanLast (s : State) (k : PatIx) (p : PatReg) :
    (s.setPat k p).scanLast = s.scanLast := rfl
@[simp] theorem State.setPat_scanBest (s : State) (k : PatIx) (p : PatReg) :
    (s.setPat k p).scanBest = s.scanBest := rfl
@[simp] theorem State.setPat_sigReady (s : State) (k : PatIx) (p : PatReg) :
    (s.setPat k p).sigReady = s.sigReady := rfl
@[simp] theorem State.setPat_sigStart (s : State) (k : PatIx) (p : PatReg) :
    (s.setPat k p).sigStart = s.sigStart := rfl
@[simp] theorem State.setPat_sigUnit (s : State) (k : PatIx) (p : PatReg) :
    (s.setPat k p).sigUnit = s.sigUnit := rfl
@[simp] theorem State.setPat_mi (s : State) (k : PatIx) (p : PatReg) :
    (s.setPat k p).mi = s.mi := rfl
@[simp] theorem State.setPat_ring (s : State) (k : PatIx) (p : PatReg) :
    (s.setPat k p).ring = s.ring := rfl
@[simp] theorem State.setPat_widx (s : State) (k : PatIx) (p : PatReg) :
    (s.setPat k p).widx = s.widx := rfl
@[simp] theorem State.setPat_pending (s : State) (k : PatIx) (p : PatReg) :
    (s.setPat k p).pending = s.pending := rfl
@[simp] theorem State.setPat_readData (s : State) (k : PatIx) (p : PatReg) :
    (s.setPat k p).readData = s.readData := rfl

/-! #### clearMi -/

@[simp] theorem State.clearMi_cfg (s : State) :
    s.clearMi.cfg = s.cfg := rfl
@[simp] theorem State.clearMi_args (s : State) :
    s.clearMi.args = s.args := rfl
@[simp] theorem State.clearMi_res (s : State) :
    s.clearMi.res = s.res := rfl
@[simp] theorem State.clearMi_status (s : State) :
    s.clearMi.status = s.status := rfl
@[simp] theorem State.clearMi_pats (s : State) :
    s.clearMi.pats = s.pats := rfl
@[simp] theorem State.clearMi_bufs (s : State) :
    s.clearMi.bufs = s.bufs := rfl
@[simp] theorem State.clearMi_dmprev (s : State) :
    s.clearMi.dmprev = s.dmprev := rfl
@[simp] theorem State.clearMi_scanLast (s : State) :
    s.clearMi.scanLast = s.scanLast := rfl
@[simp] theorem State.clearMi_scanBest (s : State) :
    s.clearMi.scanBest = s.scanBest := rfl
@[simp] theorem State.clearMi_sigReady (s : State) :
    s.clearMi.sigReady = s.sigReady := rfl
@[simp] theorem State.clearMi_sigStart (s : State) :
    s.clearMi.sigStart = s.sigStart := rfl
@[simp] theorem State.clearMi_sigUnit (s : State) :
    s.clearMi.sigUnit = s.sigUnit := rfl
@[simp] theorem State.clearMi_mi (s : State) :
    s.clearMi.mi = MiRecord.cleared s.cfg := rfl
@[simp] theorem State.clearMi_ring (s : State) :
    s.clearMi.ring = s.ring := rfl
@[simp] theorem State.clearMi_widx (s : State) :
    s.clearMi.widx = s.widx := rfl
@[simp] theorem State.clearMi_pending (s : State) :
    s.clearMi.pending = s.pending := rfl
@[simp] theorem State.clearMi_readData (s : State) :
    s.clearMi.readData = s.readData := rfl

/-! #### raised -/

@[simp] theorem State.raised_cfg (s : State) (e : Err) :
    (s.raised e).cfg = s.cfg := rfl
@[simp] theorem State.raised_args (s : State) (e : Err) :
    (s.raised e).args = s.args := rfl
@[simp] theorem State.raised_res (s : State) (e : Err) :
    (s.raised e).res = s.res := rfl
@[simp] theorem State.raised_status (s : State) (e : Err) :
    (s.raised e).status = setFault (setErr s.status e) := rfl
@[simp] theorem State.raised_pats (s : State) (e : Err) :
    (s.raised e).pats = s.pats := rfl
@[simp] theorem State.raised_bufs (s : State) (e : Err) :
    (s.raised e).bufs = s.bufs := rfl
@[simp] theorem State.raised_dmprev (s : State) (e : Err) :
    (s.raised e).dmprev = s.dmprev := rfl
@[simp] theorem State.raised_scanLast (s : State) (e : Err) :
    (s.raised e).scanLast = s.scanLast := rfl
@[simp] theorem State.raised_scanBest (s : State) (e : Err) :
    (s.raised e).scanBest = s.scanBest := rfl
@[simp] theorem State.raised_sigReady (s : State) (e : Err) :
    (s.raised e).sigReady = s.sigReady := rfl
@[simp] theorem State.raised_sigStart (s : State) (e : Err) :
    (s.raised e).sigStart = s.sigStart := rfl
@[simp] theorem State.raised_sigUnit (s : State) (e : Err) :
    (s.raised e).sigUnit = s.sigUnit := rfl
@[simp] theorem State.raised_mi (s : State) (e : Err) :
    (s.raised e).mi = s.mi := rfl
@[simp] theorem State.raised_ring (s : State) (e : Err) :
    (s.raised e).ring = s.ring := rfl
@[simp] theorem State.raised_widx (s : State) (e : Err) :
    (s.raised e).widx = s.widx := rfl
@[simp] theorem State.raised_pending (s : State) (e : Err) :
    (s.raised e).pending = s.pending := rfl
@[simp] theorem State.raised_readData (s : State) (e : Err) :
    (s.raised e).readData = s.readData := rfl

/-! #### produce -/

@[simp] theorem State.produce_cfg (s : State) (lv : Bool) (d : Word) :
    (s.produce lv d).cfg = s.cfg := rfl
@[simp] theorem State.produce_args (s : State) (lv : Bool) (d : Word) :
    (s.produce lv d).args = s.args := rfl
@[simp] theorem State.produce_res (s : State) (lv : Bool) (d : Word) :
    (s.produce lv d).res = s.res := rfl
@[simp] theorem State.produce_status (s : State) (lv : Bool) (d : Word) :
    (s.produce lv d).status = s.status := rfl
@[simp] theorem State.produce_pats (s : State) (lv : Bool) (d : Word) :
    (s.produce lv d).pats = s.pats := rfl
@[simp] theorem State.produce_bufs (s : State) (lv : Bool) (d : Word) :
    (s.produce lv d).bufs = s.bufs := rfl
@[simp] theorem State.produce_dmprev (s : State) (lv : Bool) (d : Word) :
    (s.produce lv d).dmprev = s.dmprev := rfl
@[simp] theorem State.produce_scanLast (s : State) (lv : Bool) (d : Word) :
    (s.produce lv d).scanLast = s.scanLast := rfl
@[simp] theorem State.produce_scanBest (s : State) (lv : Bool) (d : Word) :
    (s.produce lv d).scanBest = s.scanBest := rfl
@[simp] theorem State.produce_sigReady (s : State) (lv : Bool) (d : Word) :
    (s.produce lv d).sigReady = s.sigReady := rfl
@[simp] theorem State.produce_sigStart (s : State) (lv : Bool) (d : Word) :
    (s.produce lv d).sigStart = s.sigStart := rfl
@[simp] theorem State.produce_sigUnit (s : State) (lv : Bool) (d : Word) :
    (s.produce lv d).sigUnit = s.sigUnit := rfl
@[simp] theorem State.produce_mi (s : State) (lv : Bool) (d : Word) :
    (s.produce lv d).mi = s.mi := rfl
@[simp] theorem State.produce_widx (s : State) (lv : Bool) (d : Word) :
    (s.produce lv d).widx = s.widx + 1#32 := rfl
@[simp] theorem State.produce_pending (s : State) (lv : Bool) (d : Word) :
    (s.produce lv d).pending = s.pending := rfl
@[simp] theorem State.produce_readData (s : State) (lv : Bool) (d : Word) :
    (s.produce lv d).readData = s.readData := rfl

/-! #### takeSignal -/

@[simp] theorem State.takeSignal_cfg (s : State) (rg : Word → Pulse) (k0 : Word) (r : Run) :
    (s.takeSignal rg k0 r).cfg = s.cfg := rfl
@[simp] theorem State.takeSignal_args (s : State) (rg : Word → Pulse) (k0 : Word) (r : Run) :
    (s.takeSignal rg k0 r).args = s.args := rfl
@[simp] theorem State.takeSignal_res (s : State) (rg : Word → Pulse) (k0 : Word) (r : Run) :
    (s.takeSignal rg k0 r).res = s.res := rfl
@[simp] theorem State.takeSignal_status (s : State) (rg : Word → Pulse) (k0 : Word) (r : Run) :
    (s.takeSignal rg k0 r).status = s.status := rfl
@[simp] theorem State.takeSignal_pats (s : State) (rg : Word → Pulse) (k0 : Word) (r : Run) :
    (s.takeSignal rg k0 r).pats = s.pats := rfl
@[simp] theorem State.takeSignal_dmprev (s : State) (rg : Word → Pulse) (k0 : Word) (r : Run) :
    (s.takeSignal rg k0 r).dmprev = s.dmprev := rfl
@[simp] theorem State.takeSignal_scanLast (s : State) (rg : Word → Pulse) (k0 : Word) (r : Run) :
    (s.takeSignal rg k0 r).scanLast = s.scanLast := rfl
@[simp] theorem State.takeSignal_scanBest (s : State) (rg : Word → Pulse) (k0 : Word) (r : Run) :
    (s.takeSignal rg k0 r).scanBest = BitVec.ofNat 32 r.len := rfl
@[simp] theorem State.takeSignal_sigReady (s : State) (rg : Word → Pulse) (k0 : Word) (r : Run) :
    (s.takeSignal rg k0 r).sigReady = true := rfl
@[simp] theorem State.takeSignal_sigStart (s : State) (rg : Word → Pulse) (k0 : Word) (r : Run) :
    (s.takeSignal rg k0 r).sigStart = k0 := rfl
@[simp] theorem State.takeSignal_sigUnit (s : State) (rg : Word → Pulse) (k0 : Word) (r : Run) :
    (s.takeSignal rg k0 r).sigUnit = BitVec.ofNat 32 r.unit := rfl
@[simp] theorem State.takeSignal_mi (s : State) (rg : Word → Pulse) (k0 : Word) (r : Run) :
    (s.takeSignal rg k0 r).mi = s.mi := rfl
@[simp] theorem State.takeSignal_ring (s : State) (rg : Word → Pulse) (k0 : Word) (r : Run) :
    (s.takeSignal rg k0 r).ring = s.ring := rfl
@[simp] theorem State.takeSignal_widx (s : State) (rg : Word → Pulse) (k0 : Word) (r : Run) :
    (s.takeSignal rg k0 r).widx = s.widx := rfl
@[simp] theorem State.takeSignal_pending (s : State) (rg : Word → Pulse) (k0 : Word) (r : Run) :
    (s.takeSignal rg k0 r).pending = s.pending := rfl
@[simp] theorem State.takeSignal_readData (s : State) (rg : Word → Pulse) (k0 : Word) (r : Run) :
    (s.takeSignal rg k0 r).readData = s.readData := rfl

/-! #### clearScanner -/

@[simp] theorem State.clearScanner_cfg (s : State) :
    s.clearScanner.cfg = s.cfg := rfl
@[simp] theorem State.clearScanner_args (s : State) :
    s.clearScanner.args = s.args := rfl
@[simp] theorem State.clearScanner_res (s : State) :
    s.clearScanner.res = s.res := rfl
@[simp] theorem State.clearScanner_status (s : State) :
    s.clearScanner.status = s.status := rfl
@[simp] theorem State.clearScanner_pats (s : State) :
    s.clearScanner.pats = s.pats := rfl
@[simp] theorem State.clearScanner_dmprev (s : State) :
    s.clearScanner.dmprev = s.dmprev := rfl
@[simp] theorem State.clearScanner_scanLast (s : State) :
    s.clearScanner.scanLast = s.widx := rfl
@[simp] theorem State.clearScanner_scanBest (s : State) :
    s.clearScanner.scanBest = 0#32 := rfl
@[simp] theorem State.clearScanner_sigReady (s : State) :
    s.clearScanner.sigReady = false := rfl
@[simp] theorem State.clearScanner_sigStart (s : State) :
    s.clearScanner.sigStart = 0#32 := rfl
@[simp] theorem State.clearScanner_sigUnit (s : State) :
    s.clearScanner.sigUnit = 0#32 := rfl
@[simp] theorem State.clearScanner_mi (s : State) :
    s.clearScanner.mi = s.mi := rfl
@[simp] theorem State.clearScanner_ring (s : State) :
    s.clearScanner.ring = s.ring := rfl
@[simp] theorem State.clearScanner_widx (s : State) :
    s.clearScanner.widx = s.widx := rfl
@[simp] theorem State.clearScanner_pending (s : State) :
    s.clearScanner.pending = s.pending := rfl
@[simp] theorem State.clearScanner_readData (s : State) :
    s.clearScanner.readData = s.readData := rfl

/-! #### publish -/

@[simp] theorem State.publish_cfg (s : State) (k : Nat) (m : MessageInfo) :
    (s.publish k m).cfg = s.cfg := rfl
@[simp] theorem State.publish_args (s : State) (k : Nat) (m : MessageInfo) :
    (s.publish k m).args = s.args := rfl
@[simp] theorem State.publish_res (s : State) (k : Nat) (m : MessageInfo) :
    (s.publish k m).res = s.res := rfl
@[simp] theorem State.publish_status (s : State) (k : Nat) (m : MessageInfo) :
    (s.publish k m).status = s.status := rfl
@[simp] theorem State.publish_pats (s : State) (k : Nat) (m : MessageInfo) :
    (s.publish k m).pats = s.pats := rfl
@[simp] theorem State.publish_bufs (s : State) (k : Nat) (m : MessageInfo) :
    (s.publish k m).bufs = s.bufs := rfl
@[simp] theorem State.publish_dmprev (s : State) (k : Nat) (m : MessageInfo) :
    (s.publish k m).dmprev = s.dmprev := rfl
@[simp] theorem State.publish_scanLast (s : State) (k : Nat) (m : MessageInfo) :
    (s.publish k m).scanLast = s.scanLast := rfl
@[simp] theorem State.publish_scanBest (s : State) (k : Nat) (m : MessageInfo) :
    (s.publish k m).scanBest = s.scanBest := rfl
@[simp] theorem State.publish_sigReady (s : State) (k : Nat) (m : MessageInfo) :
    (s.publish k m).sigReady = s.sigReady := rfl
@[simp] theorem State.publish_sigStart (s : State) (k : Nat) (m : MessageInfo) :
    (s.publish k m).sigStart = s.sigStart := rfl
@[simp] theorem State.publish_sigUnit (s : State) (k : Nat) (m : MessageInfo) :
    (s.publish k m).sigUnit = s.sigUnit := rfl
@[simp] theorem State.publish_ring (s : State) (k : Nat) (m : MessageInfo) :
    (s.publish k m).ring = s.ring := rfl
@[simp] theorem State.publish_widx (s : State) (k : Nat) (m : MessageInfo) :
    (s.publish k m).widx = s.widx := rfl
@[simp] theorem State.publish_pending (s : State) (k : Nat) (m : MessageInfo) :
    (s.publish k m).pending = s.pending := rfl
@[simp] theorem State.publish_readData (s : State) (k : Nat) (m : MessageInfo) :
    (s.publish k m).readData = s.readData := rfl

/-! #### beginDispatch -/

@[simp] theorem State.beginDispatch_cfg (s : State) (b : BufIx) :
    (s.beginDispatch b).cfg = s.cfg := rfl
@[simp] theorem State.beginDispatch_args (s : State) (b : BufIx) :
    (s.beginDispatch b).args = s.args := rfl
@[simp] theorem State.beginDispatch_res (s : State) (b : BufIx) :
    (s.beginDispatch b).res = s.res := rfl
@[simp] theorem State.beginDispatch_status (s : State) (b : BufIx) :
    (s.beginDispatch b).status = s.status := rfl
@[simp] theorem State.beginDispatch_pats (s : State) (b : BufIx) :
    (s.beginDispatch b).pats = s.pats := rfl
@[simp] theorem State.beginDispatch_bufs (s : State) (b : BufIx) :
    (s.beginDispatch b).bufs = s.bufs := rfl
@[simp] theorem State.beginDispatch_dmprev (s : State) (b : BufIx) :
    (s.beginDispatch b).dmprev = s.dmprev := rfl
@[simp] theorem State.beginDispatch_scanLast (s : State) (b : BufIx) :
    (s.beginDispatch b).scanLast = s.scanLast := rfl
@[simp] theorem State.beginDispatch_scanBest (s : State) (b : BufIx) :
    (s.beginDispatch b).scanBest = s.scanBest := rfl
@[simp] theorem State.beginDispatch_sigReady (s : State) (b : BufIx) :
    (s.beginDispatch b).sigReady = if b = 0 then false else s.sigReady := rfl
@[simp] theorem State.beginDispatch_sigStart (s : State) (b : BufIx) :
    (s.beginDispatch b).sigStart = s.sigStart := rfl
@[simp] theorem State.beginDispatch_sigUnit (s : State) (b : BufIx) :
    (s.beginDispatch b).sigUnit = s.sigUnit := rfl
@[simp] theorem State.beginDispatch_mi (s : State) (b : BufIx) :
    (s.beginDispatch b).mi = MiRecord.cleared s.cfg := rfl
@[simp] theorem State.beginDispatch_ring (s : State) (b : BufIx) :
    (s.beginDispatch b).ring = s.ring := rfl
@[simp] theorem State.beginDispatch_widx (s : State) (b : BufIx) :
    (s.beginDispatch b).widx = s.widx := rfl
@[simp] theorem State.beginDispatch_pending (s : State) (b : BufIx) :
    (s.beginDispatch b).pending = s.pending := rfl
@[simp] theorem State.beginDispatch_readData (s : State) (b : BufIx) :
    (s.beginDispatch b).readData = s.readData := rfl

/-! #### What the register updates leave of the storage -/

@[simp] theorem State.setRes_buf_eq (s : State) (v : Nat) (b : BufIx) :
    (s.setRes v).buf b = s.buf b := rfl
@[simp] theorem State.setRes_readBit_eq (s : State) (v : Nat) (b : BufIx) (p : Nat) :
    (s.setRes v).readBit b p = s.readBit b p := rfl
@[simp] theorem State.setRes_readByte_eq (s : State) (v : Nat) (b : BufIx) (i : Nat) :
    (s.setRes v).readByte b i = s.readByte b i := rfl
@[simp] theorem State.setRes_numbits_eq (s : State) (v : Nat) (b : BufIx) :
    (s.setRes v).numbits b = s.numbits b := rfl
@[simp] theorem State.setRes_cap_eq (s : State) (v : Nat) (b : BufIx) :
    (s.setRes v).cap b = s.cap b := rfl
@[simp] theorem State.setRes_capBits_eq (s : State) (v : Nat) (b : BufIx) :
    (s.setRes v).capBits b = s.capBits b := rfl
@[simp] theorem State.setRes_argNat_eq (s : State) (v : Nat) (k : ArgIx) :
    (s.setRes v).argNat k = s.argNat k := rfl
@[simp] theorem State.setRes_ringAt_eq (s : State) (v : Nat) (j : Word) :
    (s.setRes v).ringAt j = s.ringAt j := rfl
@[simp] theorem State.setRes_patElems_eq (s : State) (v : Nat) (k : PatIx) :
    (s.setRes v).patElems k = s.patElems k := rfl

@[simp] theorem State.setDmprev_buf_eq (s : State) (v : Bool) (b : BufIx) :
    (s.setDmprev v).buf b = s.buf b := rfl
@[simp] theorem State.setDmprev_readBit_eq (s : State) (v : Bool) (b : BufIx) (p : Nat) :
    (s.setDmprev v).readBit b p = s.readBit b p := rfl
@[simp] theorem State.setDmprev_readByte_eq (s : State) (v : Bool) (b : BufIx) (i : Nat) :
    (s.setDmprev v).readByte b i = s.readByte b i := rfl
@[simp] theorem State.setDmprev_numbits_eq (s : State) (v : Bool) (b : BufIx) :
    (s.setDmprev v).numbits b = s.numbits b := rfl
@[simp] theorem State.setDmprev_cap_eq (s : State) (v : Bool) (b : BufIx) :
    (s.setDmprev v).cap b = s.cap b := rfl
@[simp] theorem State.setDmprev_capBits_eq (s : State) (v : Bool) (b : BufIx) :
    (s.setDmprev v).capBits b = s.capBits b := rfl
@[simp] theorem State.setDmprev_argNat_eq (s : State) (v : Bool) (k : ArgIx) :
    (s.setDmprev v).argNat k = s.argNat k := rfl
@[simp] theorem State.setDmprev_ringAt_eq (s : State) (v : Bool) (j : Word) :
    (s.setDmprev v).ringAt j = s.ringAt j := rfl
@[simp] theorem State.setDmprev_patElems_eq (s : State) (v : Bool) (k : PatIx) :
    (s.setDmprev v).patElems k = s.patElems k := rfl

@[simp] theorem State.setStatus_buf_eq (s : State) (v : Word) (b : BufIx) :
    (s.setStatus v).buf b = s.buf b := rfl
@[simp] theorem State.setStatus_readBit_eq (s : State) (v : Word) (b : BufIx) (p : Nat) :
    (s.setStatus v).readBit b p = s.readBit b p := rfl
@[simp] theorem State.setStatus_readByte_eq (s : State) (v : Word) (b : BufIx) (i : Nat) :
    (s.setStatus v).readByte b i = s.readByte b i := rfl
@[simp] theorem State.setStatus_numbits_eq (s : State) (v : Word) (b : BufIx) :
    (s.setStatus v).numbits b = s.numbits b := rfl
@[simp] theorem State.setStatus_cap_eq (s : State) (v : Word) (b : BufIx) :
    (s.setStatus v).cap b = s.cap b := rfl
@[simp] theorem State.setStatus_capBits_eq (s : State) (v : Word) (b : BufIx) :
    (s.setStatus v).capBits b = s.capBits b := rfl
@[simp] theorem State.setStatus_argNat_eq (s : State) (v : Word) (k : ArgIx) :
    (s.setStatus v).argNat k = s.argNat k := rfl
@[simp] theorem State.setStatus_ringAt_eq (s : State) (v : Word) (j : Word) :
    (s.setStatus v).ringAt j = s.ringAt j := rfl
@[simp] theorem State.setStatus_patElems_eq (s : State) (v : Word) (k : PatIx) :
    (s.setStatus v).patElems k = s.patElems k := rfl

@[simp] theorem State.setScanLast_buf_eq (s : State) (v : Word) (b : BufIx) :
    (s.setScanLast v).buf b = s.buf b := rfl
@[simp] theorem State.setScanLast_readBit_eq (s : State) (v : Word) (b : BufIx) (p : Nat) :
    (s.setScanLast v).readBit b p = s.readBit b p := rfl
@[simp] theorem State.setScanLast_readByte_eq (s : State) (v : Word) (b : BufIx) (i : Nat) :
    (s.setScanLast v).readByte b i = s.readByte b i := rfl
@[simp] theorem State.setScanLast_numbits_eq (s : State) (v : Word) (b : BufIx) :
    (s.setScanLast v).numbits b = s.numbits b := rfl
@[simp] theorem State.setScanLast_cap_eq (s : State) (v : Word) (b : BufIx) :
    (s.setScanLast v).cap b = s.cap b := rfl
@[simp] theorem State.setScanLast_capBits_eq (s : State) (v : Word) (b : BufIx) :
    (s.setScanLast v).capBits b = s.capBits b := rfl
@[simp] theorem State.setScanLast_argNat_eq (s : State) (v : Word) (k : ArgIx) :
    (s.setScanLast v).argNat k = s.argNat k := rfl
@[simp] theorem State.setScanLast_ringAt_eq (s : State) (v : Word) (j : Word) :
    (s.setScanLast v).ringAt j = s.ringAt j := rfl
@[simp] theorem State.setScanLast_patElems_eq (s : State) (v : Word) (k : PatIx) :
    (s.setScanLast v).patElems k = s.patElems k := rfl

@[simp] theorem State.clearMi_buf_eq (s : State) (b : BufIx) :
    s.clearMi.buf b = s.buf b := rfl
@[simp] theorem State.clearMi_readBit_eq (s : State) (b : BufIx) (p : Nat) :
    s.clearMi.readBit b p = s.readBit b p := rfl
@[simp] theorem State.clearMi_readByte_eq (s : State) (b : BufIx) (i : Nat) :
    s.clearMi.readByte b i = s.readByte b i := rfl
@[simp] theorem State.clearMi_numbits_eq (s : State) (b : BufIx) :
    s.clearMi.numbits b = s.numbits b := rfl
@[simp] theorem State.clearMi_cap_eq (s : State) (b : BufIx) :
    s.clearMi.cap b = s.cap b := rfl
@[simp] theorem State.clearMi_capBits_eq (s : State) (b : BufIx) :
    s.clearMi.capBits b = s.capBits b := rfl
@[simp] theorem State.clearMi_argNat_eq (s : State) (k : ArgIx) :
    s.clearMi.argNat k = s.argNat k := rfl
@[simp] theorem State.clearMi_ringAt_eq (s : State) (j : Word) :
    s.clearMi.ringAt j = s.ringAt j := rfl
@[simp] theorem State.clearMi_patElems_eq (s : State) (k : PatIx) :
    s.clearMi.patElems k = s.patElems k := rfl

@[simp] theorem State.setBuf_cap_eq (s : State) (b : BufIx) (x : BitBuffer) (c : BufIx) :
    (s.setBuf b x).cap c = s.cap c := rfl
@[simp] theorem State.setData_cap_eq (s : State) (b : BufIx) (m : Memory) (c : BufIx) :
    (s.setData b m).cap c = s.cap c := rfl
@[simp] theorem State.setNumbits_cap_eq (s : State) (b : BufIx) (n : Nat) (c : BufIx) :
    (s.setNumbits b n).cap c = s.cap c := rfl
@[simp] theorem State.writeBit_cap_eq (s : State) (b : BufIx) (p : Nat) (v : Bool) (c : BufIx) :
    (s.writeBit b p v).cap c = s.cap c := rfl
@[simp] theorem State.setBuf_capBits_eq (s : State) (b : BufIx) (x : BitBuffer) (c : BufIx) :
    (s.setBuf b x).capBits c = s.capBits c := rfl
@[simp] theorem State.setData_capBits_eq (s : State) (b : BufIx) (m : Memory) (c : BufIx) :
    (s.setData b m).capBits c = s.capBits c := rfl
@[simp] theorem State.setNumbits_capBits_eq (s : State) (b : BufIx) (n : Nat) (c : BufIx) :
    (s.setNumbits b n).capBits c = s.capBits c := rfl
@[simp] theorem State.writeBit_capBits_eq (s : State) (b : BufIx) (p : Nat) (v : Bool) (c : BufIx) :
    (s.writeBit b p v).capBits c = s.capBits c := rfl
@[simp] theorem State.setBuf_argNat_eq (s : State) (b : BufIx) (x : BitBuffer) (k : ArgIx) :
    (s.setBuf b x).argNat k = s.argNat k := rfl
@[simp] theorem State.setData_argNat_eq (s : State) (b : BufIx) (m : Memory) (k : ArgIx) :
    (s.setData b m).argNat k = s.argNat k := rfl
@[simp] theorem State.setNumbits_argNat_eq (s : State) (b : BufIx) (n : Nat) (k : ArgIx) :
    (s.setNumbits b n).argNat k = s.argNat k := rfl
@[simp] theorem State.writeBit_argNat_eq (s : State) (b : BufIx) (p : Nat) (v : Bool) (k : ArgIx) :
    (s.writeBit b p v).argNat k = s.argNat k := rfl
@[simp] theorem State.setBuf_ringAt_eq (s : State) (b : BufIx) (x : BitBuffer) (j : Word) :
    (s.setBuf b x).ringAt j = s.ringAt j := rfl
@[simp] theorem State.setData_ringAt_eq (s : State) (b : BufIx) (m : Memory) (j : Word) :
    (s.setData b m).ringAt j = s.ringAt j := rfl
@[simp] theorem State.setNumbits_ringAt_eq (s : State) (b : BufIx) (n : Nat) (j : Word) :
    (s.setNumbits b n).ringAt j = s.ringAt j := rfl
@[simp] theorem State.writeBit_ringAt_eq (s : State) (b : BufIx) (p : Nat) (v : Bool) (j : Word) :
    (s.writeBit b p v).ringAt j = s.ringAt j := rfl
@[simp] theorem State.setBuf_patElems_eq (s : State) (b : BufIx) (x : BitBuffer) (k : PatIx) :
    (s.setBuf b x).patElems k = s.patElems k := rfl
@[simp] theorem State.setData_patElems_eq (s : State) (b : BufIx) (m : Memory) (k : PatIx) :
    (s.setData b m).patElems k = s.patElems k := rfl
@[simp] theorem State.setNumbits_patElems_eq (s : State) (b : BufIx) (n : Nat) (k : PatIx) :
    (s.setNumbits b n).patElems k = s.patElems k := rfl
@[simp] theorem State.writeBit_patElems_eq (s : State) (b : BufIx) (p : Nat) (v : Bool) (k : PatIx) :
    (s.writeBit b p v).patElems k = s.patElems k := rfl

/-! #### reset -/

@[simp] theorem State.coreReset_cfg (s : State) : s.coreReset.cfg = s.cfg := rfl
@[simp] theorem State.coreReset_ring (s : State) : s.coreReset.ring = s.ring := rfl
@[simp] theorem State.coreReset_widx (s : State) : s.coreReset.widx = s.widx := rfl
@[simp] theorem State.coreReset_pending (s : State) : s.coreReset.pending = s.pending := rfl
@[simp] theorem State.coreReset_readData (s : State) : s.coreReset.readData = s.readData := rfl

end Sys2Proof.Machine
end

