-- ==== Sys2Proof/Laws/Buffers.lean ====
section
/-! SUPPORT. The laws of buffer bytes and bits (R81, R82): what a read sees after a write, and that every
operation keeps the canonical form and the capacity. -/

namespace Sys2Proof.Machine

/-! ### Bytes -/

theorem memRead_nil (i : Nat) : memRead [] i = 0#8 := rfl

theorem memRead_memWrite_self {m : Memory} {i : Nat} {v : Byte} (h : Memory.wf m) :
    memRead (memWrite m i v) i = v := sparseRead_write_self h

theorem memRead_memWrite_ne {m : Memory} {i j : Nat} {v : Byte} (h : j ≠ i) :
    memRead (memWrite m i v) j = memRead m j := sparseRead_write_ne h

theorem memWrite_wf {m : Memory} {i : Nat} {v : Byte} (h : Memory.wf m) : Memory.wf (memWrite m i v) :=
  sparseWrite_wf h

theorem Memory.wf_nil : Memory.wf [] := sparseWf_nil

/-! ### Bits -/

theorem bitMask_getLsbD {p j : Nat} (hj : j < 8) : (bitMask p).getLsbD j = decide (j = 7 - p % 8) := by
  have h : ∀ k < 8, ∀ j < 8, (1#8 <<< k).getLsbD j = decide (j = k) := by decide
  exact h _ (by omega) _ hj

/-- The byte that a bit write leaves: bit 7 - (p mod 8) is the bit written, the others are kept (R82). -/
theorem writtenByte_getLsbD {x : Byte} {p j : Nat} {v : Bool} (hj : j < 8) :
    (if v then x ||| bitMask p else x &&& (0xFF#8 ^^^ bitMask p)).getLsbD j =
      if j = 7 - p % 8 then v else x.getLsbD j := by
  have hff : (0xFF#8).getLsbD j = true := (by decide : ∀ j < 8, (0xFF#8).getLsbD j = true) j hj
  have hm := bitMask_getLsbD (p := p) hj
  by_cases h : j = 7 - p % 8
  · rw [if_pos h]
    rw [decide_eq_true h] at hm
    cases v
    · simp only [Bool.false_eq_true, if_false, BitVec.getLsbD_and, BitVec.getLsbD_xor, hff, hm]
      simp
    · simp [BitVec.getLsbD_or, hm]
  · rw [if_neg h]
    rw [decide_eq_false h] at hm
    cases v <;> simp [BitVec.getLsbD_or, BitVec.getLsbD_and, BitVec.getLsbD_xor, hm, hff]

theorem memRead_bitWrite_ne {m : Memory} {p i : Nat} {v : Bool} (h : i ≠ p / 8) :
    memRead (bitWrite m p v) i = memRead m i := memRead_memWrite_ne h

theorem bitRead_bitWrite_self {m : Memory} {p : Nat} {v : Bool} (h : Memory.wf m) :
    bitRead (bitWrite m p v) p = v := by
  simp only [bitRead, bitWrite, memRead_memWrite_self h]
  rw [writtenByte_getLsbD (by omega)]
  simp

theorem bitRead_bitWrite_ne {m : Memory} {p q : Nat} {v : Bool} (h : Memory.wf m) (hq : q ≠ p) :
    bitRead (bitWrite m p v) q = bitRead m q := by
  by_cases hd : q / 8 = p / 8
  · simp only [bitRead, bitWrite, hd, memRead_memWrite_self h]
    rw [writtenByte_getLsbD (by omega)]
    have : 7 - q % 8 ≠ 7 - p % 8 := by omega
    simp [this]
  · simp only [bitRead, memRead_bitWrite_ne hd]

/-- What any bit reads after a bit write. -/
theorem bitRead_bitWrite {m : Memory} {p q : Nat} {v : Bool} (h : Memory.wf m) :
    bitRead (bitWrite m p v) q = if q = p then v else bitRead m q := by
  by_cases hq : q = p
  · subst hq
    simp [bitRead_bitWrite_self h]
  · simp [hq, bitRead_bitWrite_ne h hq]

theorem bitWrite_wf {m : Memory} {p : Nat} {v : Bool} (h : Memory.wf m) : Memory.wf (bitWrite m p v) :=
  memWrite_wf h

theorem bitRead_nil (p : Nat) : bitRead [] p = false := by simp [bitRead, memRead_nil]

/-- Bytes are equal when all bits are: a canonical memory is known by its bits. -/
theorem memory_ext_bits {m m' : Memory} (h : Memory.wf m) (h' : Memory.wf m')
    (heq : ∀ p, bitRead m p = bitRead m' p) : m = m' := by
  refine sparse_ext h h' fun a => BitVec.eq_of_getLsbD_eq fun j hj => ?_
  have := heq (8 * a + (7 - j))
  simp only [bitRead] at this
  have e1 : (8 * a + (7 - j)) / 8 = a := by omega
  have e2 : 7 - (8 * a + (7 - j)) % 8 = j := by omega
  rw [e1, e2] at this
  exact this

/-! ### Buffers of the state -/

@[simp] theorem State.buf_setBuf_self (s : State) (b : BufIx) (x : BitBuffer) : (s.setBuf b x).buf b = x := by
  simp [State.buf, State.setBuf]

theorem State.buf_setBuf_ne (s : State) {b c : BufIx} (x : BitBuffer) (h : c ≠ b) :
    (s.setBuf b x).buf c = s.buf c := by
  have : b.val ≠ c.val := fun e => h (Fin.ext e.symm)
  simp [State.buf, State.setBuf, this]

theorem State.setBuf_otherBufsSame (s : State) (b : BufIx) (x : BitBuffer) :
    OtherBufsSame b s (s.setBuf b x) := fun _ h => s.buf_setBuf_ne x h

@[simp] theorem State.buf_setData_self (s : State) (b : BufIx) (m : Memory) :
    (s.setData b m).buf b = { s.buf b with data := m } := by simp [State.setData]

@[simp] theorem State.buf_setNumbits_self (s : State) (b : BufIx) (n : Nat) :
    (s.setNumbits b n).buf b = { s.buf b with numbits := BitVec.ofNat 32 n } := by simp [State.setNumbits]

@[simp] theorem State.buf_writeBit_self (s : State) (b : BufIx) (p : Nat) (v : Bool) :
    (s.writeBit b p v).buf b = { s.buf b with data := bitWrite (s.buf b).data p v } := by
  simp [State.writeBit]

theorem State.buf_writeBit_ne (s : State) {b c : BufIx} (p : Nat) (v : Bool) (h : c ≠ b) :
    (s.writeBit b p v).buf c = s.buf c := s.buf_setBuf_ne _ h

/-- New bytes leave numbits alone. -/
@[simp] theorem State.numbits_setData (s : State) (b c : BufIx) (m : Memory) :
    ((s.setData b m).buf c).numbits = (s.buf c).numbits := by
  by_cases h : c = b
  · subst h
    simp
  · rw [State.setData, s.buf_setBuf_ne _ h]

/-- A new numbits leaves the bytes alone. -/
@[simp] theorem State.data_setNumbits (s : State) (b c : BufIx) (n : Nat) :
    ((s.setNumbits b n).buf c).data = (s.buf c).data := by
  by_cases h : c = b
  · subst h
    simp
  · rw [State.setNumbits, s.buf_setBuf_ne _ h]

/-- A bit write leaves numbits alone. -/
@[simp] theorem State.numbits_writeBit (s : State) (b c : BufIx) (p : Nat) (v : Bool) :
    ((s.writeBit b p v).buf c).numbits = (s.buf c).numbits := by
  by_cases h : c = b
  · subst h
    simp
  · rw [s.buf_writeBit_ne p v h]

/-- What any bit of any buffer reads after a bit write. -/
theorem State.readBit_writeBit (s : State) (b c : BufIx) (p q : Nat) (v : Bool)
    (h : Memory.wf (s.buf b).data) :
    (s.writeBit b p v).readBit c q = if c = b ∧ q = p then v else s.readBit c q := by
  by_cases hc : c = b
  · subst hc
    simp [State.readBit, bitRead_bitWrite h]
  · simp [State.readBit, s.buf_writeBit_ne p v hc, hc]

theorem State.buf_congr {s t : State} (h : t.bufs = s.bufs) (b : BufIx) : t.buf b = s.buf b := by
  simp [State.buf, h]

/-- Which buffers a command leaves alone shows in the buffers alone. -/
theorem OtherBufsSame.congr {b : BufIx} {s t u : State} (h : OtherBufsSame b s t) (e : u.bufs = t.bufs) :
    OtherBufsSame b s u := fun c hc => (State.buf_congr e c).trans (h c hc)

theorem State.setData_otherBufsSame (s : State) (b : BufIx) (m : Memory) :
    OtherBufsSame b s (s.setData b m) := s.setBuf_otherBufsSame b _

theorem State.setNumbits_otherBufsSame (s : State) (b : BufIx) (n : Nat) :
    OtherBufsSame b s (s.setNumbits b n) := s.setBuf_otherBufsSame b _

theorem State.writeBit_otherBufsSame (s : State) (b : BufIx) (p : Nat) (v : Bool) :
    OtherBufsSame b s (s.writeBit b p v) := s.setBuf_otherBufsSame b _

/-! ### Well-formed buffers -/

/-- Two states with the same buffer at every index have the same buffers. -/
theorem State.bufs_ext {s t : State} (h : ∀ b, t.buf b = s.buf b) : t.bufs = s.bufs := by
  apply Vector.ext
  intro i hi
  exact h ⟨i, hi⟩

theorem BitBuffer.Wf.setNumbits {x : BitBuffer} {cap n : Nat} (h : x.Wf cap) (hn : n ≤ 8 * cap)
    (hc : 8 * cap < 2 ^ 32) : BitBuffer.Wf { x with numbits := BitVec.ofNat 32 n } cap :=
  ⟨h.canonical, h.bounded, by simp only [BitVec.toNat_ofNat]; rw [Nat.mod_eq_of_lt (by omega)]; exact hn⟩

theorem BitBuffer.Wf.bitWrite {x : BitBuffer} {cap p : Nat} {v : Bool} (h : x.Wf cap) (hp : p < 8 * cap) :
    BitBuffer.Wf { x with data := Machine.bitWrite x.data p v } cap :=
  ⟨bitWrite_wf h.canonical, sparseWrite_bounded h.bounded (by omega), h.numbits⟩

theorem BitBuffer.Wf.memWrite {x : BitBuffer} {cap i : Nat} {v : Byte} (h : x.Wf cap) (hi : i < cap) :
    BitBuffer.Wf { x with data := Machine.memWrite x.data i v } cap :=
  ⟨memWrite_wf h.canonical, sparseWrite_bounded h.bounded hi, h.numbits⟩

theorem BitBuffer.Wf.empty (cap : Nat) : BitBuffer.Wf ⟨[], 0#32⟩ cap :=
  ⟨Memory.wf_nil, by simp, by simp⟩

/-- Beyond its capacity a buffer reads 0. -/
theorem BitBuffer.Wf.memRead_ge {x : BitBuffer} {cap i : Nat} (h : x.Wf cap) (hi : cap ≤ i) :
    memRead x.data i = 0#8 :=
  sparseRead_of_unlisted fun c hc => by have := h.bounded c hc; omega

/-- One buffer replaced by a well-formed one keeps all well formed. -/
theorem State.bufs_wf_setBuf {s : State} {b : BufIx} {x : BitBuffer}
    (h : ∀ c, (s.buf c).Wf (s.cap c)) (hx : x.Wf (s.cap b)) :
    ∀ c, ((s.setBuf b x).buf c).Wf ((s.setBuf b x).cap c) := by
  intro c
  by_cases hc : c = b
  · subst hc
    simpa [State.cap] using hx
  · rw [s.buf_setBuf_ne x hc]
    exact h c

end Sys2Proof.Machine
end

