-- ==== Sys2Proof/Laws/BitBuffer.lean ====
section
/-! SUPPORT. The laws of the pattern fill (R163) and of the byte reversal (R164). -/

namespace Sys2Proof.Machine

/-- The fill keeps the canonical form, and the capacity when its positions lie within it. -/
theorem fillBits_wf {f : Nat → Bool} {m : Nat} {mem : Memory} (h : Memory.wf mem) :
    Memory.wf (fillBits f m mem) := by
  induction m with
  | zero => exact h
  | succ m ih => exact bitWrite_wf ih

theorem fillBits_bounded {f : Nat → Bool} {m cap : Nat} {mem : Memory} (h : ∀ c ∈ mem, c.1 < cap)
    (hm : m ≤ 8 * cap) : ∀ c ∈ fillBits f m mem, c.1 < cap := by
  induction m with
  | zero => exact h
  | succ m ih => exact sparseWrite_bounded (ih (by omega)) (by omega)

/-- What a bit reads after a fill: the pattern below `m`, its old value from `m` on. -/
theorem bitRead_fillBits {f : Nat → Bool} {m p : Nat} {mem : Memory} (h : Memory.wf mem) :
    bitRead (fillBits f m mem) p = if p < m then f p else bitRead mem p := by
  induction m with
  | zero => simp [fillBits]
  | succ m ih =>
    rw [fillBits, bitRead_bitWrite (fillBits_wf h), ih]
    by_cases h1 : p = m
    · subst h1
      simp
    · by_cases h2 : p < m
      · simp [h1, h2, show p < m + 1 by omega]
      · simp [h1, h2, show ¬ p < m + 1 by omega]

theorem fillCount_le (n capBits plen : Nat) : fillCount n capBits plen ≤ capBits := by
  simp only [fillCount]
  split <;> omega

theorem reverseBytes_wf {n : Nat} {mem : Memory} : Memory.wf (reverseBytes n mem) := sparseOfFn_wf

theorem reverseBytes_bounded {n : Nat} {mem : Memory} : ∀ c ∈ reverseBytes n mem, c.1 < n :=
  fun _ hc => (sparseOfFn_mem.1 hc).1

/-- Byte j takes the old byte n-1-j (R164). -/
theorem memRead_reverseBytes {n j : Nat} {mem : Memory} (h : j < n) :
    memRead (reverseBytes n mem) j = memRead mem (n - 1 - j) := sparseRead_ofFn h

/-- Reversing twice restores a buffer within its capacity (R164). -/
theorem reverseBytes_reverseBytes {n : Nat} {mem : Memory} (h : Memory.wf mem) (hb : ∀ c ∈ mem, c.1 < n) :
    reverseBytes n (reverseBytes n mem) = mem := by
  refine sparse_ext reverseBytes_wf h fun j => ?_
  by_cases hj : j < n
  · have e : n - 1 - (n - 1 - j) = j := by omega
    have h1 := memRead_reverseBytes (mem := reverseBytes n mem) hj
    have h2 := memRead_reverseBytes (mem := mem) (show n - 1 - j < n by omega)
    rw [e] at h2
    exact h1.trans h2
  · rw [sparseRead_of_unlisted (m := mem) fun c hc => by have := hb c hc; omega]
    exact sparseRead_ofFn_ge (by omega)

end Sys2Proof.Machine
end

