-- ==== Sys2Proof/Laws/Config.lean ====
section
/-! SUPPORT. What a well-formed configuration (R6) and a command's operands (R111) give a proof. -/

namespace Sys2Proof

/-- The constraints of R6 as facts. -/
structure Config.Facts (c : Config) : Prop where
  cap : ∀ b : BufIx, 1 ≤ c.cap b ∧ c.cap b ≤ 2 ^ 28
  ring : ∃ k : Fin 32, c.ringSize = 2 ^ k.val
  nclass : 1 ≤ c.nclass
  tolDiv : 1 ≤ c.tolDiv
  durMin : 1 ≤ c.durMin
  durMax : c.durMin ≤ c.durMax
  minRun : 1 ≤ c.minRun
  maxRun : 1 ≤ c.maxRun
  decCount : c.decoders.length ≤ 2 ^ 31
  nameMax : 1 ≤ c.nameMax ∧ c.nameMax ≤ 1024
  rawMax : 1 ≤ c.rawMax ∧ c.rawMax ≤ 1024
  infoMax : 1 ≤ c.infoMax ∧ c.infoMax ≤ 256

theorem Config.facts {c : Config} (h : c.wf = true) : c.Facts := by
  simp only [Config.wf, Bool.and_eq_true, decide_eq_true_eq] at h
  obtain ⟨⟨⟨⟨⟨⟨⟨⟨⟨⟨⟨h1, h2⟩, h3⟩, h4⟩, h5⟩, h6⟩, h7⟩, h8⟩, h9⟩, h10⟩, h11⟩, h12⟩ := h
  exact ⟨h1, h2, h3, h4, h5, h6, h7, h8, h9, h10, h11, h12⟩

/-- capbits is at most 2^31 (R6). -/
theorem Config.Facts.capBits_le {c : Config} (h : c.Facts) (b : BufIx) : c.capBits b ≤ 2 ^ 31 := by
  have := (h.cap b).2
  simp only [Config.capBits]
  omega

/-- RING_SIZE is at least 1 and at most 2^31 (R6). -/
theorem Config.Facts.ringSize_bounds {c : Config} (h : c.Facts) : 1 ≤ c.ringSize ∧ c.ringSize ≤ 2 ^ 31 := by
  obtain ⟨k, hk⟩ := h.ring
  rw [hk]
  exact ⟨Nat.one_le_two_pow, Nat.pow_le_pow_right (by omega) (by omega)⟩

/-- Every command is well formed: no field value is illegal in itself (R111). -/
theorem Laws.instr_wellFormed (i : Instr) : i.wellFormed = true := by
  cases i <;> simp [Instr.wellFormed, bufOk, patOk]

end Sys2Proof
end

