-- ==== Sys2Proof/Laws/Crc8.lean ====
section
/-! SUPPORT. The laws of one CRC shift and one CRC byte (R250). -/

namespace Sys2Proof.Machine

theorem crcShifts_zero (poly : Byte) (n : Nat) : crcShifts poly n 0#8 = 0#8 := by
  induction n with
  | zero => rfl
  | succ n ih =>
    have : crcShift poly 0#8 = 0#8 := by simp [crcShift]
    rw [crcShifts, this, ih]

/-- A byte equal to the remainder clears it (R252 (3)). -/
theorem crcByte_self (poly x : Byte) : crcByte poly x x = 0#8 := by
  simp [crcByte, crcShifts_zero]

/-- Without a polynomial every byte is shifted out (R250). -/
theorem crcShifts_zero_poly (x : Byte) : crcShifts 0#8 8 x = 0#8 := by
  revert x
  decide

/-- With the x^0 term set, one shift loses nothing: the bit shifted out shows in bit 0. -/
theorem crcShift_injective {poly x y : Byte} (h : poly.getLsbD 0 = true)
    (hxy : crcShift poly x = crcShift poly y) : x = y := by
  have low : ∀ z : Byte, (crcShift poly z).getLsbD 0 = z.getLsbD 7 := fun z => by
    by_cases hz : z.getLsbD 7 = true
    · simp only [crcShift, hz, if_true, BitVec.getLsbD_xor, h]
      simp
    · have hz' : z.getLsbD 7 = false := by simpa using hz
      simp only [crcShift, hz', Bool.false_eq_true, if_false]
      simp
  have h7 : x.getLsbD 7 = y.getLsbD 7 := by rw [← low x, ← low y, hxy]
  have hs : x <<< 1 = y <<< 1 := by
    simp only [crcShift, h7] at hxy
    split at hxy
    · have := congrArg (· ^^^ poly) hxy
      simpa [BitVec.xor_assoc] using this
    · exact hxy
  refine BitVec.eq_of_getLsbD_eq fun i hi => ?_
  by_cases hi7 : i = 7
  · rw [hi7]
    exact h7
  · have := congrArg (fun z => z.getLsbD (i + 1)) hs
    simp only [BitVec.getLsbD_shiftLeft, show i + 1 < 8 by omega, decide_true, Bool.true_and,
      show ¬ i + 1 < 1 by omega, decide_false, Bool.not_false, Nat.add_sub_cancel] at this
    exact this

end Sys2Proof.Machine
end

