-- ==== Sys2Proof/Laws/Decode.lean ====
section
/-! SUPPORT. The laws of the command word: what each field of an encoded word holds, how a word is made of
its fields, and what decoding answers (R110, R112, R118). -/

namespace Sys2Proof

/-! ### Fields -/

theorem opField_toNat (w : Word) : (opField w).toNat = w.toNat % 256 := by
  simp [opField, BitVec.extractLsb'_toNat]

theorem baField_toNat (w : Word) : (baField w).toNat = w.toNat / 256 % 4 := by
  simp [baField, BitVec.extractLsb'_toNat, Nat.shiftRight_eq_div_pow]

theorem bbField_toNat (w : Word) : (bbField w).toNat = w.toNat / 1024 % 4 := by
  simp [bbField, BitVec.extractLsb'_toNat, Nat.shiftRight_eq_div_pow]

theorem paField_toNat (w : Word) : (paField w).toNat = w.toNat / 4096 % 8 := by
  simp [paField, BitVec.extractLsb'_toNat, Nat.shiftRight_eq_div_pow]

theorem pbField_toNat (w : Word) : (pbField w).toNat = w.toNat / 32768 % 8 := by
  simp [pbField, BitVec.extractLsb'_toNat, Nat.shiftRight_eq_div_pow]

theorem rsvdField_toNat (w : Word) : (rsvdField w).toNat = w.toNat / 262144 % 16384 := by
  simp [rsvdField, BitVec.extractLsb'_toNat, Nat.shiftRight_eq_div_pow]

/-- A word is the sum of its fields at their places (R118). -/
theorem word_toNat_eq (w : Word) :
    w.toNat = (opField w).toNat + (baField w).toNat * 256 + (bbField w).toNat * 1024 +
      (paField w).toNat * 4096 + (pbField w).toNat * 32768 + (rsvdField w).toNat * 262144 := by
  rw [opField_toNat, baField_toNat, bbField_toNat, paField_toNat, pbField_toNat, rsvdField_toNat]
  have := w.isLt
  omega

theorem encodeFields_toNat (o : Opcode) (ba bb : BufIx) (pa pb : PatIx) :
    (encodeFields o ba bb pa pb).toNat =
      o.code.toNat + ba.val * 256 + bb.val * 1024 + pa.val * 4096 + pb.val * 32768 := by
  have := o.code.isLt
  simp only [encodeFields, BitVec.toNat_ofNat]
  omega

theorem opField_encodeFields (o : Opcode) (ba bb : BufIx) (pa pb : PatIx) :
    opField (encodeFields o ba bb pa pb) = o.code := by
  apply BitVec.eq_of_toNat_eq
  have := o.code.isLt
  rw [opField_toNat, encodeFields_toNat]
  omega

theorem baField_encodeFields (o : Opcode) (ba bb : BufIx) (pa pb : PatIx) :
    baField (encodeFields o ba bb pa pb) = BitVec.ofFin ba := by
  apply BitVec.eq_of_toNat_eq
  have := o.code.isLt
  rw [baField_toNat, encodeFields_toNat]
  simp only [BitVec.toNat_ofFin]
  omega

theorem bbField_encodeFields (o : Opcode) (ba bb : BufIx) (pa pb : PatIx) :
    bbField (encodeFields o ba bb pa pb) = BitVec.ofFin bb := by
  apply BitVec.eq_of_toNat_eq
  have := o.code.isLt
  rw [bbField_toNat, encodeFields_toNat]
  simp only [BitVec.toNat_ofFin]
  omega

theorem paField_encodeFields (o : Opcode) (ba bb : BufIx) (pa pb : PatIx) :
    paField (encodeFields o ba bb pa pb) = BitVec.ofFin pa := by
  apply BitVec.eq_of_toNat_eq
  have := o.code.isLt
  rw [paField_toNat, encodeFields_toNat]
  simp only [BitVec.toNat_ofFin]
  omega

theorem pbField_encodeFields (o : Opcode) (ba bb : BufIx) (pa pb : PatIx) :
    pbField (encodeFields o ba bb pa pb) = BitVec.ofFin pb := by
  apply BitVec.eq_of_toNat_eq
  have := o.code.isLt
  rw [pbField_toNat, encodeFields_toNat]
  simp only [BitVec.toNat_ofFin]
  omega

theorem rsvdField_encodeFields (o : Opcode) (ba bb : BufIx) (pa pb : PatIx) :
    rsvdField (encodeFields o ba bb pa pb) = 0#14 := by
  apply BitVec.eq_of_toNat_eq
  have := o.code.isLt
  rw [rsvdField_toNat, encodeFields_toNat]
  simp only [BitVec.toNat_ofNat]
  omega

/-- Words are equal when their fields are. -/
theorem word_ext {w v : Word} (h1 : opField w = opField v) (h2 : baField w = baField v)
    (h3 : bbField w = bbField v) (h4 : paField w = paField v) (h5 : pbField w = pbField v)
    (h6 : rsvdField w = rsvdField v) : w = v := by
  apply BitVec.eq_of_toNat_eq
  rw [word_toNat_eq w, word_toNat_eq v, h1, h2, h3, h4, h5, h6]

/-- A match and mask test is one test for each field (R115). -/
theorem word_and_eq_iff {w m v : Word} : w &&& m = v ↔
    opField w &&& opField m = opField v ∧ baField w &&& baField m = baField v ∧
    bbField w &&& bbField m = bbField v ∧ paField w &&& paField m = paField v ∧
    pbField w &&& pbField m = pbField v ∧ rsvdField w &&& rsvdField m = rsvdField v := by
  constructor
  · rintro rfl
    simp [opField, baField, bbField, paField, pbField, rsvdField, BitVec.extractLsb'_and]
  · rintro ⟨h1, h2, h3, h4, h5, h6⟩
    apply word_ext <;>
      simp_all [opField, baField, bbField, paField, pbField, rsvdField, BitVec.extractLsb'_and]

/-! ### Opcodes -/

/-- Every opcode is found by its own code: the codes of R114 differ. -/
theorem Opcode.ofCode_code (o : Opcode) : Opcode.ofCode o.code = some o := by
  cases o <;> rfl

/-- A code that is found is the opcode's. -/
theorem Opcode.code_of_ofCode {c : BitVec 8} {o : Opcode} (h : Opcode.ofCode c = some o) : o.code = c := by
  have := List.find?_some h
  simpa using this

theorem Opcode.ofCode_eq_some_iff {c : BitVec 8} {o : Opcode} : Opcode.ofCode c = some o ↔ o.code = c :=
  ⟨Opcode.code_of_ofCode, fun h => h ▸ Opcode.ofCode_code o⟩

theorem Opcode.ofCode_eq_none_iff {c : BitVec 8} : Opcode.ofCode c = none ↔ ∀ o : Opcode, c ≠ o.code := by
  constructor
  · intro h o hc
    rw [hc, Opcode.ofCode_code] at h
    exact absurd h (by simp)
  · intro h
    cases hc : Opcode.ofCode c with
    | none => rfl
    | some o => exact absurd (Opcode.code_of_ofCode hc).symm (h o)

/-- R112 (c) as a proposition. -/
theorem Opcode.unusedZero_iff {o : Opcode} {w : Word} : o.unusedZero w = true ↔
    (o.uses.ba = false → baField w = 0) ∧ (o.uses.bb = false → bbField w = 0) ∧
    (o.uses.pa = false → paField w = 0) ∧ (o.uses.pb = false → pbField w = 0) := by
  simp only [Opcode.unusedZero, Bool.and_eq_true, Bool.or_eq_true, beq_iff_eq]
  cases o.uses.ba <;> cases o.uses.bb <;> cases o.uses.pa <;> cases o.uses.pb <;> simp [and_assoc]

/-- What the table of R115 holds, field by field: the mask has OP, RSVD and every unused field. -/
theorem opcodeTable_fields : ∀ row ∈ opcodeTable,
    (opField row.mask = 255#8 ∧ opField row.mtch = row.op.code) ∧
    (baField row.mask = (if row.op.uses.ba then 0#2 else 3#2) ∧ baField row.mtch = 0#2) ∧
    (bbField row.mask = (if row.op.uses.bb then 0#2 else 3#2) ∧ bbField row.mtch = 0#2) ∧
    (paField row.mask = (if row.op.uses.pa then 0#3 else 7#3) ∧ paField row.mtch = 0#3) ∧
    (pbField row.mask = (if row.op.uses.pb then 0#3 else 7#3) ∧ pbField row.mtch = 0#3) ∧
    (rsvdField row.mask = 16383#14 ∧ rsvdField row.mtch = 0#14) := by
  decide

/-- A field under its mask: ignored when used, tested when not. -/
theorem unusedField_and_iff {n : Nat} {used : Bool} {x ones : BitVec n} (h : x &&& ones = x) :
    (x &&& (if used then 0#n else ones)) = 0#n ↔ (used = false → x = 0#n) := by
  cases used <;> simp [h]

/-! ### What decoding answers -/

/-- Everything a successful decode says of its word (R112, R141). -/
theorem decode_eq_ok_iff {w : Word} {i : Instr} : decode w = .ok i ↔
    ∃ o : Opcode, opField w = o.code ∧ rsvdField w = 0 ∧ o.unusedZero w = true ∧ i = o.build w := by
  simp only [decode]
  constructor
  · intro h
    split at h
    · simp at h
    · rename_i o ho
      split at h
      · simp at h
      · rename_i hr
        split at h
        · rename_i hu
          exact ⟨o, (Opcode.code_of_ofCode ho).symm, by simpa using hr, hu, (Except.ok.inj h).symm⟩
        · simp at h
  · rintro ⟨o, ho, hr, hu, rfl⟩
    rw [ho, Opcode.ofCode_code]
    simp [hr, hu]

theorem legal_iff {w : Word} : legal w = true ↔ ∃ i : Instr, decode w = .ok i := by
  simp only [legal]
  cases decode w with
  | ok i => simp
  | error e => simp

theorem legal_false_iff {w : Word} : legal w = false ↔ ∃ e : DecodeError, decode w = .error e := by
  simp only [legal]
  cases decode w with
  | ok i => simp
  | error e => simp

theorem Opcode.build_opcode (o : Opcode) (w : Word) : (o.build w).opcode = o := by
  cases o <;> rfl

/-- A command's word has its opcode's code, no reserved bit and no unused field. -/
theorem encodeFields_unusedZero {o : Opcode} {ba bb : BufIx} {pa pb : PatIx}
    (h1 : o.uses.ba = false → ba = 0) (h2 : o.uses.bb = false → bb = 0)
    (h3 : o.uses.pa = false → pa = 0) (h4 : o.uses.pb = false → pb = 0) :
    o.unusedZero (encodeFields o ba bb pa pb) = true := by
  rw [Opcode.unusedZero_iff, baField_encodeFields, bbField_encodeFields, paField_encodeFields,
    pbField_encodeFields]
  exact ⟨fun h => by rw [h1 h]; rfl, fun h => by rw [h2 h]; rfl, fun h => by rw [h3 h]; rfl,
    fun h => by rw [h4 h]; rfl⟩

/-- An encoded word with no unused field is legal. -/
theorem legal_encodeFields {o : Opcode} {ba bb : BufIx} {pa pb : PatIx}
    (h1 : o.uses.ba = false → ba = 0) (h2 : o.uses.bb = false → bb = 0)
    (h3 : o.uses.pa = false → pa = 0) (h4 : o.uses.pb = false → pb = 0) :
    legal (encodeFields o ba bb pa pb) = true :=
  legal_iff.2 ⟨_, decode_eq_ok_iff.2
    ⟨o, opField_encodeFields .., rsvdField_encodeFields .., encodeFields_unusedZero h1 h2 h3 h4, rfl⟩⟩

end Sys2Proof
end

