-- ==== Sys2Proof/Laws/PatternSearch.lean ====
section
/-! SUPPORT. The laws of the match and seek functions (R190, R192). -/

namespace Sys2Proof.Machine

/-- The match function says exactly R190. -/
theorem matchAt_iff {b : BitBuffer} {pos : Nat} {pat : List Bool} :
    matchAt b pos pat = true ↔
      pos + pat.length ≤ b.numbits.toNat ∧
        ∀ i, i < pat.length → bitRead b.data (pos + i) = pat.getD i false := by
  simp [matchAt, List.all_eq_true]

/-- A pattern never matches past numbits. -/
theorem matchAt_false_of_gt {b : BitBuffer} {pos : Nat} {pat : List Bool}
    (h : b.numbits.toNat < pos + pat.length) : matchAt b pos pat = false := by
  by_contra hc
  have := (matchAt_iff.1 (by simpa using hc)).1
  omega

theorem PatReg.elems_length (p : PatReg) : p.elems.length = p.plen := by simp [PatReg.elems]

theorem PatReg.elems_getD (p : PatReg) {i : Nat} (h : i < p.plen) : p.elems.getD i false = p.elem i := by
  simp [PatReg.elems, List.getD, List.getElem?_map, List.getElem?_range h]

/-- The match function on a pattern register of the state. -/
theorem matchAt_patElems {s : State} {b : BufIx} {k : PatIx} {pos : Nat} :
    matchAt (s.buf b) pos (s.patElems k) = true ↔ s.matchesAt b k pos := by
  rw [matchAt_iff]
  simp only [State.patElems, PatReg.elems_length, State.matchesAt, State.numbits, State.readBit]
  constructor
  · rintro ⟨h1, h2⟩
    exact ⟨h1, fun i hi => by rw [h2 i hi, PatReg.elems_getD _ hi]⟩
  · rintro ⟨h1, h2⟩
    exact ⟨h1, fun i hi => by rw [h2 i hi, PatReg.elems_getD _ hi]⟩

/-- What the candidate loop answers: the first matching position of its range, or that there is none. -/
theorem firstMatch_spec (b : BitBuffer) (pat : List Bool) (n p : Nat) :
    (∀ r, firstMatch b pat n p = some r →
      p ≤ r ∧ r < p + n ∧ matchAt b r pat = true ∧ ∀ q, p ≤ q → q < r → matchAt b q pat = false) ∧
    (firstMatch b pat n p = none → ∀ q, p ≤ q → q < p + n → matchAt b q pat = false) := by
  induction n generalizing p with
  | zero => exact ⟨by simp [firstMatch], fun _ q h1 h2 => by omega⟩
  | succ n ih =>
    obtain ⟨ih1, ih2⟩ := ih (p + 1)
    by_cases hm : matchAt b p pat = true
    · simp only [firstMatch, hm, if_true, reduceCtorEq, false_implies, and_true]
      rintro r h
      obtain rfl : p = r := by simpa using h
      exact ⟨le_refl _, by omega, hm, fun q h1 h2 => by omega⟩
    · have hmf : matchAt b p pat = false := by simpa using hm
      simp only [firstMatch, hmf, Bool.false_eq_true, if_false]
      refine ⟨fun r h => ?_, fun h q h1 h2 => ?_⟩
      · obtain ⟨a1, a2, a3, a4⟩ := ih1 r h
        refine ⟨by omega, by omega, a3, fun q h1 h2 => ?_⟩
        by_cases hq : q = p
        · rw [hq]
          exact hmf
        · exact a4 q (by omega) h2
      · by_cases hq : q = p
        · rw [hq]
          exact hmf
        · exact ih2 h q (by omega) (by omega)

/-- A position found is the lowest matching one of the range (R192). -/
theorem seekFrom_some {b : BitBuffer} {start mx p : Nat} {pat : List Bool}
    (h : seekFrom b start mx pat = some p) :
    start ≤ p ∧ p < start + mx ∧ matchAt b p pat = true ∧
      ∀ q, start ≤ q → q < p → matchAt b q pat = false := by
  obtain ⟨h1, h2, h3, h4⟩ := (firstMatch_spec b pat _ _).1 p h
  exact ⟨h1, by omega, h3, h4⟩

/-- A position found is at most numbits (R192). -/
theorem seekFrom_le_numbits {b : BitBuffer} {start mx p : Nat} {pat : List Bool}
    (h : seekFrom b start mx pat = some p) : p + pat.length ≤ b.numbits.toNat :=
  (matchAt_iff.1 (seekFrom_some h).2.2.1).1

/-- Nothing is found exactly when no position of the range matches (R192). -/
theorem seekFrom_none_iff {b : BitBuffer} {start mx : Nat} {pat : List Bool} :
    seekFrom b start mx pat = none ↔ ∀ q, start ≤ q → q < start + mx → matchAt b q pat = false := by
  constructor
  · intro h q h1 h2
    by_cases hq : q ≤ b.numbits.toNat
    · exact (firstMatch_spec b pat _ _).2 h q h1 (by omega)
    · exact matchAt_false_of_gt (by omega)
  · intro h
    cases hs : seekFrom b start mx pat with
    | none => rfl
    | some p =>
      obtain ⟨h1, h2, h3, -⟩ := seekFrom_some hs
      rw [h p h1 h2] at h3
      exact absurd h3 (by simp)

/-- The lowest matching position of the range is found (R192). -/
theorem seekFrom_eq_some {b : BitBuffer} {start mx r : Nat} {pat : List Bool} (h1 : start ≤ r)
    (h2 : r < start + mx) (h3 : matchAt b r pat = true)
    (h4 : ∀ q, start ≤ q → q < r → matchAt b q pat = false) : seekFrom b start mx pat = some r := by
  cases hs : seekFrom b start mx pat with
  | none =>
    rw [seekFrom_none_iff.1 hs r h1 h2] at h3
    exact absurd h3 (by simp)
  | some p =>
    obtain ⟨a1, a2, a3, a4⟩ := seekFrom_some hs
    rcases Nat.lt_trichotomy p r with hl | he | hl
    · rw [h4 p a1 hl] at a3
      exact absurd a3 (by simp)
    · rw [he]
    · rw [a4 r h1 hl] at h3
      exact absurd h3 (by simp)

end Sys2Proof.Machine
end

