-- ==== Sys2Proof/Laws/LineCode.lean ====
section
/-! SUPPORT. What the line-code loop does (R210, R212), said once. -/

namespace Sys2Proof.Machine

/-- The states a decode passes through: the buffers alone change, of them only BUF `d`, and numbits does
not; the bytes of BUF `d` stay canonical and within the capacity. -/
structure Decoding (d : BufIx) (s t : State) : Prop where
  frame : t = { s with bufs := t.bufs }
  others : OtherBufsSame d s t
  numbits : (t.buf d).numbits = (s.buf d).numbits
  canonical : Memory.wf (t.buf d).data
  bounded : ∀ c ∈ (t.buf d).data, c.1 < s.cap d

theorem Decoding.refl {d : BufIx} {s : State} (h : (s.buf d).Wf (s.cap d)) : Decoding d s s :=
  ⟨rfl, fun _ _ => rfl, rfl, h.canonical, h.bounded⟩

theorem Decoding.cfg {d : BufIx} {s t : State} (h : Decoding d s t) : t.cfg = s.cfg := by rw [h.frame]

theorem Decoding.pats {d : BufIx} {s t : State} (h : Decoding d s t) : t.pats = s.pats := by rw [h.frame]

theorem Decoding.numbits_any {d : BufIx} {s t : State} (h : Decoding d s t) (b : BufIx) :
    (t.buf b).numbits = (s.buf b).numbits := by
  by_cases hb : b = d
  · subst hb
    exact h.numbits
  · rw [h.others b hb]

theorem Decoding.writeBit {d : BufIx} {s t : State} (h : Decoding d s t) {p : Nat} (v : Bool)
    (hp : p < s.capBits d) : Decoding d s (t.writeBit d p v) where
  frame := by
    show { t with bufs := _ } = _
    rw [h.frame]
    rfl
  others := fun c hc => by rw [t.buf_writeBit_ne p v hc, h.others c hc]
  numbits := by simp [h.numbits]
  canonical := by simpa using bitWrite_wf h.canonical
  bounded := by
    have : p / 8 < s.cap d := by
      simp only [State.capBits, Config.capBits] at hp
      simp only [State.cap]
      omega
    rw [State.buf_writeBit_self]
    exact sparseWrite_bounded h.bounded this

theorem Decoding.trans {d : BufIx} {s t u : State} (h : Decoding d s t) (g : Decoding d t u) :
    Decoding d s u where
  frame := by
    conv_lhs => rw [g.frame, h.frame]
  others := fun c hc => by rw [g.others c hc, h.others c hc]
  numbits := by rw [g.numbits, h.numbits]
  canonical := g.canonical
  bounded := by
    have e : t.cap d = s.cap d := by simp [State.cap, h.cfg]
    rw [← e]
    exact g.bounded

/-- What a pattern's elements match while the decode runs: as `matchAt`, the source read with the first
`n` output bits in place when source and destination are one buffer. -/
def duringMatch (s t : State) (b d : BufIx) (pat : List Bool) (n pos : Nat) : Prop :=
  pos + pat.length ≤ s.numbits b ∧
    ∀ i, i < pat.length →
      (if b = d ∧ pos + i < n then t.readBit d (pos + i) else s.readBit b (pos + i)) = pat.getD i false

theorem duringMatch_patElems {s t : State} {b d : BufIx} {k : PatIx} {n pos : Nat} :
    duringMatch s t b d (s.patElems k) n pos ↔ MatchesDuring s t b d k n pos := by
  simp only [duringMatch, MatchesDuring, State.patElems, PatReg.elems_length]
  constructor
  · rintro ⟨h1, h2⟩
    exact ⟨h1, fun i hi => by rw [h2 i hi, PatReg.elems_getD _ hi]⟩
  · rintro ⟨h1, h2⟩
    exact ⟨h1, fun i hi => by rw [h2 i hi, PatReg.elems_getD _ hi]⟩

/-- At the loop's own point the match function reads exactly this. -/
theorem matchAt_iff_duringMatch {s t : State} {b d : BufIx} {pat : List Bool} {n pos : Nat}
    (h : ∀ p, p < n → t.readBit d p = s.readBit d p) :
    matchAt (s.buf b) pos pat = true ↔ duringMatch s t b d pat n pos := by
  rw [matchAt_iff]
  refine and_congr Iff.rfl (forall_congr' fun i => imp_congr_right fun _ => ?_)
  by_cases hc : b = d ∧ pos + i < n
  · rw [if_pos hc, h _ hc.2, ← hc.1]
    rfl
  · rw [if_neg hc]
    rfl

/-- A bit already written changes nothing for a later point of the decode. -/
theorem duringMatch_writeBit {s t : State} {b d : BufIx} {pat : List Bool} {n pos p : Nat} {v : Bool}
    (hs : Memory.wf (s.buf d).data) (hp : p < n) :
    duringMatch (s.writeBit d p v) t b d pat n pos ↔ duringMatch s t b d pat n pos := by
  have hn : (s.writeBit d p v).numbits b = s.numbits b := by simp [State.numbits]
  unfold duringMatch
  rw [hn]
  refine and_congr Iff.rfl (forall_congr' fun i => imp_congr_right fun _ => ?_)
  by_cases hc : b = d ∧ pos + i < n
  · rw [if_pos hc, if_pos hc]
  · rw [if_neg hc, if_neg hc, s.readBit_writeBit d b p _ v hs]
    by_cases he : b = d ∧ pos + i = p
    · exact absurd ⟨he.1, by omega⟩ hc
    · rw [if_neg he]

/-- One emitted bit of the line-code loop at output position `k`, source position `cur k`. -/
def LcEmits (s t : State) (b d : BufIx) (zero one : List Bool) (cur : Nat → Nat) (k : Nat) : Prop :=
  (duringMatch s t b d zero k (cur k) ∧ t.readBit d k = false ∧ cur (k + 1) = cur k + zero.length) ∨
  (¬ duringMatch s t b d zero k (cur k) ∧ duringMatch s t b d one k (cur k) ∧ t.readBit d k = true ∧
    cur (k + 1) = cur k + one.length)

/-- Everything the line-code loop does, from output position `cnt` and source position `c0` on. -/
structure LcSpec (s t : State) (b d : BufIx) (zero one : List Bool) (room c0 cnt n : Nat) (cur : Nat → Nat) :
    Prop where
  dec : Decoding d s t
  start : cur cnt = c0
  le : cnt ≤ n
  room_le : n ≤ cnt + room
  emits : ∀ k, cnt ≤ k → k < n → LcEmits s t b d zero one cur k
  stop : n = cnt + room ∨ (¬ duringMatch s t b d zero n (cur n) ∧ ¬ duringMatch s t b d one n (cur n))
  kept : ∀ p, p < cnt ∨ n ≤ p → t.readBit d p = s.readBit d p

/-- Whatever the state, the loop changes the bytes of BUF `d` alone. -/
theorem lcLoop_frame (b d : BufIx) (zero one : List Bool) (room : Nat) (s : State) (c0 cnt : Nat) :
    (lcLoop b d zero one room s c0 cnt).1 = { s with bufs := (lcLoop b d zero one room s c0 cnt).1.bufs } ∧
      OtherBufsSame d s (lcLoop b d zero one room s c0 cnt).1 := by
  induction room generalizing s c0 cnt with
  | zero => exact ⟨rfl, fun _ _ => rfl⟩
  | succ room ih =>
    have emit : ∀ (v : Bool) (c1 : Nat),
        let t := (lcLoop b d zero one room (s.writeBit d cnt v) c1 (cnt + 1)).1
        t = { s with bufs := t.bufs } ∧ OtherBufsSame d s t := fun v c1 =>
      ⟨(ih (s.writeBit d cnt v) c1 (cnt + 1)).1,
        fun c h => ((ih (s.writeBit d cnt v) c1 (cnt + 1)).2 c h).trans (s.buf_writeBit_ne cnt v h)⟩
    simp only [lcLoop]
    split
    · exact emit false _
    · split
      · exact emit true _
      · exact ⟨rfl, fun _ _ => rfl⟩

theorem lcLoop_spec (b d : BufIx) (zero one : List Bool) (room : Nat) (s : State) (c0 cnt : Nat)
    (hwf : (s.buf d).Wf (s.cap d)) (hroom : cnt + room ≤ s.capBits d) :
    ∃ cur : Nat → Nat, LcSpec s (lcLoop b d zero one room s c0 cnt).1 b d zero one room c0 cnt
      (lcLoop b d zero one room s c0 cnt).2 cur := by
  induction room generalizing s c0 cnt with
  | zero =>
    exact ⟨fun _ => c0, Decoding.refl hwf, rfl, le_refl _, le_refl _, fun k h1 h2 => by
      simp only [lcLoop] at h2; omega, .inl rfl, fun _ _ => rfl⟩
  | succ room ih =>
    have emit : ∀ (v : Bool) (len : Nat), ∃ cur : Nat → Nat,
        LcSpec (s.writeBit d cnt v) (lcLoop b d zero one room (s.writeBit d cnt v) (c0 + len) (cnt + 1)).1
          b d zero one room (c0 + len) (cnt + 1)
          (lcLoop b d zero one room (s.writeBit d cnt v) (c0 + len) (cnt + 1)).2 cur := fun v len => by
      have hd := (Decoding.refl hwf).writeBit v (p := cnt) (by omega)
      refine ih _ _ _ ⟨hd.canonical, hd.bounded, ?_⟩ (by simpa [State.capBits] using (by omega : cnt + 1 + room ≤ s.capBits d))
      rw [hd.numbits]
      exact hwf.numbits
    -- the loop after one emitted bit, seen from before it
    have lift : ∀ (v : Bool) (len : Nat) (t : State) (n : Nat) (cur : Nat → Nat),
        LcSpec (s.writeBit d cnt v) t b d zero one room (c0 + len) (cnt + 1) n cur →
        ((duringMatch s t b d zero cnt c0 ∧ v = false ∧ len = zero.length) ∨
          (¬ duringMatch s t b d zero cnt c0 ∧ duringMatch s t b d one cnt c0 ∧ v = true ∧ len = one.length)) →
        LcSpec s t b d zero one (room + 1) c0 cnt n (fun k => if k ≤ cnt then c0 else cur k) := by
      intro v len t n cur h hcase
      have hbit : t.readBit d cnt = v := by
        rw [h.kept cnt (.inl (by omega)), s.readBit_writeBit d d cnt cnt v hwf.canonical]
        simp
      have hle := h.le
      have hrm := h.room_le
      refine ⟨((Decoding.refl hwf).writeBit v (p := cnt) (by omega)).trans h.dec, by simp, by omega, by omega,
        ?_, ?_, ?_⟩
      · intro k hk hkn
        by_cases hkc : k = cnt
        · subst hkc
          simp only [LcEmits, le_refl, if_true, show ¬ k + 1 ≤ k by omega, if_false, h.start, hbit]
          rcases hcase with ⟨a, rfl, rfl⟩ | ⟨a, a', rfl, rfl⟩
          · exact .inl ⟨a, rfl, rfl⟩
          · exact .inr ⟨a, a', rfl, rfl⟩
        · have := h.emits k (by omega) hkn
          simp only [LcEmits, duringMatch_writeBit hwf.canonical (show cnt < k by omega)] at this
          simp only [LcEmits, show ¬ k ≤ cnt by omega, show ¬ k + 1 ≤ cnt by omega, if_false]
          exact this
      · rcases h.stop with hs | hs
        · exact .inl (by omega)
        · rw [duringMatch_writeBit hwf.canonical (by omega), duringMatch_writeBit hwf.canonical (by omega)] at hs
          simp only [show ¬ n ≤ cnt by omega, if_false]
          exact .inr hs
      · intro p hp
        rw [h.kept p (by omega), s.readBit_writeBit d d cnt p v hwf.canonical]
        have : p ≠ cnt := by omega
        simp [this]
    -- below `cnt` nothing has changed at this point of the loop
    have here : ∀ (t : State) (pat : List Bool), (∀ p, p < cnt → t.readBit d p = s.readBit d p) →
        (matchAt (s.buf b) c0 pat = true ↔ duringMatch s t b d pat cnt c0) := fun t pat h =>
      matchAt_iff_duringMatch h
    by_cases hz : matchAt (s.buf b) c0 zero = true
    · obtain ⟨cur, h⟩ := emit false zero.length
      simp only [lcLoop, hz, if_true]
      refine ⟨_, lift _ _ _ _ cur h (.inl ⟨(here _ _ fun p hp => ?_).1 hz, rfl, rfl⟩)⟩
      rw [h.kept p (.inl (by omega)), s.readBit_writeBit d d cnt p _ hwf.canonical]
      have : p ≠ cnt := by omega
      simp [this]
    · by_cases ho : matchAt (s.buf b) c0 one = true
      · obtain ⟨cur, h⟩ := emit true one.length
        simp only [lcLoop, hz, ho, if_true, if_false, Bool.false_eq_true]
        have hk : ∀ p, p < cnt → (lcLoop b d zero one room (s.writeBit d cnt true) (c0 + one.length)
            (cnt + 1)).1.readBit d p = s.readBit d p := fun p hp => by
          rw [h.kept p (.inl (by omega)), s.readBit_writeBit d d cnt p _ hwf.canonical]
          have : p ≠ cnt := by omega
          simp [this]
        exact ⟨_, lift _ _ _ _ cur h (.inr ⟨fun hc => hz ((here _ _ hk).2 hc), (here _ _ hk).1 ho, rfl, rfl⟩)⟩
      · simp only [lcLoop, hz, ho, if_false, Bool.false_eq_true]
        refine ⟨fun _ => c0, Decoding.refl hwf, rfl, le_refl _, by omega, fun k h1 h2 => by omega, .inr ?_,
          fun _ _ => rfl⟩
        exact ⟨fun hc => hz ((here s _ fun _ _ => rfl).2 hc), fun hc => ho ((here s _ fun _ _ => rfl).2 hc)⟩

end Sys2Proof.Machine
end

