-- ==== Sys2Proof/Laws/DiffManchester.lean ====
section
/-! SUPPORT. What the differential Manchester loop does (R232, R234), said once for any storage that keeps
a written bit and leaves the others alone. -/

namespace Sys2Proof.Machine

/-- Everything the decode loop does, from output position `cnt` on, pair k being read at `off + 2k`: `sym`
are the source symbols, `before` and `after` the output bits. -/
structure DmSpec (t : DmTable) (sym before after : Nat → Bool) (numbits off cnt room n : Nat) (pv level : Bool)
    (lv : Nat → Bool) : Prop where
  start : lv cnt = pv
  le : cnt ≤ n
  room_le : n ≤ cnt + room
  emits : ∀ k, cnt ≤ k → k < n → off + 2 * k + 2 ≤ numbits ∧ lv (k + 1) = sym (off + 2 * k + 1) ∧
    dmAction t (lv k) (sym (off + 2 * k)) (lv (k + 1)) = (if after k then .emit1 else .emit0)
  stop : n = cnt + room ∨ numbits < off + 2 * n + 2 ∨
    dmAction t (lv n) (sym (off + 2 * n)) (sym (off + 2 * n + 1)) = .stop
  last : level = lv n
  kept : ∀ p, p < cnt ∨ n ≤ p → after p = before p

theorem dmLoop_spec {σ : Type} (t : DmTable) (rd : σ → Nat → Bool) (wr : σ → Nat → Bool → σ)
    (out : σ → Nat → Bool) (good : σ → Prop) (numbits cap : Nat) (sym : Nat → Bool)
    (hgood : ∀ o p v, good o → p < cap → good (wr o p v))
    (hrd : ∀ o p v q, good o → q ≠ p → rd (wr o p v) q = rd o q)
    (hout : ∀ o p v q, good o → out (wr o p v) q = if q = p then v else out o q)
    (room : Nat) (o : σ) (off cnt : Nat) (pv : Bool) (ho : good o) (hroom : cnt + room ≤ cap)
    (hsym : ∀ q, off + 2 * cnt ≤ q → rd o q = sym q) :
    good (dmLoop t rd wr numbits room o (off + 2 * cnt) cnt pv).out ∧
    ∃ lv, DmSpec t sym (out o) (out (dmLoop t rd wr numbits room o (off + 2 * cnt) cnt pv).out) numbits off cnt
      room (dmLoop t rd wr numbits room o (off + 2 * cnt) cnt pv).count pv
      (dmLoop t rd wr numbits room o (off + 2 * cnt) cnt pv).level lv := by
  induction room generalizing o cnt pv with
  | zero =>
    exact ⟨ho, fun _ => pv, rfl, le_refl _, le_refl _, fun k h1 h2 => by simp only [dmLoop] at h2; omega,
      .inl rfl, rfl, fun _ _ => rfl⟩
  | succ room ih =>
    have halt : (numbits < off + 2 * cnt + 2 ∨
        dmAction t pv (sym (off + 2 * cnt)) (sym (off + 2 * cnt + 1)) = .stop) →
        good o ∧ ∃ lv, DmSpec t sym (out o) (out o) numbits off cnt (room + 1) cnt pv pv lv := fun h =>
      ⟨ho, fun _ => pv, rfl, le_refl _, by omega, fun k h1 h2 => by omega, .inr h, rfl, fun _ _ => rfl⟩
    have s0 : rd o (off + 2 * cnt) = sym (off + 2 * cnt) := hsym _ (le_refl _)
    have s1 : rd o (off + 2 * cnt + 1) = sym (off + 2 * cnt + 1) := hsym _ (by omega)
    by_cases hn : numbits < off + 2 * cnt + 2
    · simp only [dmLoop, hn, if_true]
      exact halt (.inl hn)
    -- the loop after one emitted bit
    have emit : ∀ v : Bool, dmAction t pv (sym (off + 2 * cnt)) (sym (off + 2 * cnt + 1)) =
        (if v then .emit1 else .emit0) →
        let r := dmLoop t rd wr numbits room (wr o cnt v) (off + 2 * cnt + 2) (cnt + 1) (rd o (off + 2 * cnt + 1))
        good r.out ∧ ∃ lv, DmSpec t sym (out o) (out r.out) numbits off cnt (room + 1) r.count pv r.level lv := by
      intro v hv
      have e : off + 2 * cnt + 2 = off + 2 * (cnt + 1) := by ring
      rw [e]
      obtain ⟨hg, lv, h⟩ := ih (wr o cnt v) (cnt + 1) (rd o (off + 2 * cnt + 1)) (hgood _ _ _ ho (by omega))
        (by omega) (fun q hq => by rw [hrd _ _ _ _ ho (by omega)]; exact hsym q (by omega))
      have hle := h.le
      have hrm := h.room_le
      refine ⟨hg, fun k => if k ≤ cnt then pv else lv k, by simp, by omega, by omega, ?_, ?_, ?_, ?_⟩
      · intro k hk hkn
        by_cases hkc : k = cnt
        · subst hkc
          have hb : out (dmLoop t rd wr numbits room (wr o k v) (off + 2 * (k + 1)) (k + 1)
              (rd o (off + 2 * k + 1))).out k = v := by
            rw [h.kept k (.inl (by omega)), hout _ _ _ _ ho]
            simp
          simp only [le_refl, if_true, show ¬ k + 1 ≤ k by omega, if_false, h.start, s1] at hv ⊢
          rw [s1] at hb
          exact ⟨by omega, trivial, by rw [hb]; exact hv⟩
        · simp only [show ¬ k ≤ cnt by omega, show ¬ k + 1 ≤ cnt by omega, if_false]
          exact h.emits k (by omega) hkn
      · simp only [show ¬ (dmLoop t rd wr numbits room (wr o cnt v) (off + 2 * (cnt + 1)) (cnt + 1)
          (rd o (off + 2 * cnt + 1))).count ≤ cnt by omega, if_false]
        rcases h.stop with hs | hs
        · exact .inl (by omega)
        · exact .inr hs
      · simp only [show ¬ (dmLoop t rd wr numbits room (wr o cnt v) (off + 2 * (cnt + 1)) (cnt + 1)
          (rd o (off + 2 * cnt + 1))).count ≤ cnt by omega, if_false]
        exact h.last
      · intro p hp
        rw [h.kept p (by omega), hout _ _ _ _ ho]
        have : p ≠ cnt := by omega
        simp [this]
    simp only [dmLoop, hn, if_false]
    have hact : dmAction t pv (rd o (off + 2 * cnt)) (rd o (off + 2 * cnt + 1)) =
        dmAction t pv (sym (off + 2 * cnt)) (sym (off + 2 * cnt + 1)) := by rw [s0, s1]
    rw [hact]
    cases ha : dmAction t pv (sym (off + 2 * cnt)) (sym (off + 2 * cnt + 1)) with
    | stop => exact halt (.inr ha)
    | emit0 => exact emit false ha
    | emit1 => exact emit true ha

/-- Whatever the state, DMDEC's decode changes the bytes of BUF `d` alone. -/
theorem dmState_frame (s : State) (b d : BufIx) (off : Nat) (pv : Bool) :
    (dmState s b d off pv).out = { s with bufs := (dmState s b d off pv).out.bufs } ∧
      OtherBufsSame d s (dmState s b d off pv).out := by
  have h : ∀ (t : DmTable) (rd : State → Nat → Bool) (n room : Nat) (s : State) (cur cnt : Nat) (pv : Bool),
      let u := (dmLoop t rd (fun t p v => State.writeBit t d p v) n room s cur cnt pv).out
      u = { s with bufs := u.bufs } ∧ OtherBufsSame d s u := by
    intro t rd n room
    induction room with
    | zero => exact fun _ _ _ _ => ⟨rfl, fun _ _ => rfl⟩
    | succ room ih =>
      intro s cur cnt pv
      have emit : ∀ v : Bool,
          let u := (dmLoop t rd (fun t p v => State.writeBit t d p v) n room (s.writeBit d cnt v) (cur + 2) (cnt + 1)
            (rd s (cur + 1))).out
          u = { s with bufs := u.bufs } ∧ OtherBufsSame d s u := fun v =>
        ⟨(ih (s.writeBit d cnt v) (cur + 2) (cnt + 1) (rd s (cur + 1))).1, fun c h =>
          ((ih (s.writeBit d cnt v) (cur + 2) (cnt + 1) (rd s (cur + 1))).2 c h).trans (s.buf_writeBit_ne cnt v h)⟩
      simp only [dmLoop]
      split
      · exact ⟨rfl, fun _ _ => rfl⟩
      · split
        · exact ⟨rfl, fun _ _ => rfl⟩
        · exact emit false
        · exact emit true
  exact h _ _ _ _ _ _ _ _

/-- DMDEC's decode on the state's buffers: what it writes, and that BUF `d` alone changes (R233, R234). -/
theorem dmState_spec (s : State) (b d : BufIx) (off : Nat) (pv : Bool) (hwf : (s.buf d).Wf (s.cap d)) :
    Decoding d s (dmState s b d off pv).out ∧
    ∃ lv, DmSpec s.cfg.dmTable (s.readBit b) (s.readBit d) ((dmState s b d off pv).out.readBit d) (s.numbits b)
      off 0 (s.capBits d) (dmState s b d off pv).count pv (dmState s b d off pv).level lv := by
  have h := dmLoop_spec (σ := State) s.cfg.dmTable (fun t p => State.readBit t b p)
    (fun t p v => State.writeBit t d p v) (fun t p => State.readBit t d p) (Decoding d s) (s.numbits b) (s.capBits d) (s.readBit b)
    (fun _ _ v ho hp => ho.writeBit v hp)
    (fun o p v q ho hq => by
      rw [o.readBit_writeBit d b p q v ho.canonical]
      have : ¬ (b = d ∧ q = p) := fun hc => hq hc.2
      rw [if_neg this])
    (fun o p v q ho => by rw [o.readBit_writeBit d d p q v ho.canonical]; simp)
    (s.capBits d) s off 0 pv (Decoding.refl hwf) (by omega) (fun _ _ => rfl)
  exact h

/-- A decoder's decode into a fresh array (R314). -/
theorem dmPure_spec (t : DmTable) (b : BitBuffer) (n off : Nat) (pv : Bool) :
    Memory.wf (dmPure t b n off pv).out ∧
    ∃ lv, DmSpec t (bitRead b.data) (fun _ => false) (bitRead (dmPure t b n off pv).out) b.numbits.toNat off 0 n
      (dmPure t b n off pv).count pv (dmPure t b n off pv).level lv := by
  have h := dmLoop_spec t (fun _ p => bitRead b.data p) bitWrite bitRead Memory.wf b.numbits.toNat n
    (bitRead b.data) (fun _ _ _ ho _ => bitWrite_wf ho) (fun _ _ _ _ _ _ => rfl)
    (fun _ _ _ _ ho => bitRead_bitWrite ho) n [] off 0 pv Memory.wf_nil (by omega) (fun _ _ => rfl)
  obtain ⟨h1, lv, h2⟩ := h
  refine ⟨h1, lv, ?_⟩
  have e : bitRead ([] : Memory) = fun _ => false := funext bitRead_nil
  rw [e] at h2
  exact h2

/-! ### The default table and its encoder (R231, R235) -/

theorem dmAction_default (pv b0 b1 : Bool) : dmAction DmTable.default pv b0 b1 =
    (if b0 = pv then .stop else if b0 = b1 then .emit1 else .emit0) := by
  cases pv <;> cases b0 <;> cases b1 <;> rfl

theorem dmEncode_length (pv : Bool) (data : List Bool) : (dmEncode pv data).length = 2 * data.length := by
  induction data generalizing pv with
  | nil => rfl
  | cons v vs ih => simp only [dmEncode, List.length_cons, ih]; omega

end Sys2Proof.Machine
end

