-- ==== Sys2Proof/Laws/HostBus.lean ====
section
/-! SUPPORT. The laws of the register map (R87) and of the writable registers (R90). -/

namespace Sys2Proof.Machine

/-- From 0x0AC on the map holds reserved offsets and the text windows only (R87). -/
theorem hostReg_high (c : Config) (o : Nat) (h : 0x0AC ≤ o) : hostReg c o =
    if o < 0x1000 then .reserved
    else if o < 0x2000 then (if (o - 0x1000) / 4 < c.nameMax then .miName ((o - 0x1000) / 4) else .reserved)
    else if o < 0x3000 then (if (o - 0x2000) / 4 < c.rawMax then .miRaw ((o - 0x2000) / 4) else .reserved)
    else if (o - 0x3000) % 0x400 / 4 < c.infoMax then
      .miInfo (Fin.ofNat 4 ((o - 0x3000) / 0x400)) ((o - 0x3000) % 0x400 / 4)
    else .reserved := by
  unfold hostReg
  rw [if_neg (by omega), if_neg (by omega), if_neg (by omega), if_neg (by omega), if_neg (by omega),
    if_neg (by omega), if_neg (by omega)]

/-- CMD stands at one offset (R87). -/
theorem hostReg_eq_cmd {c : Config} {o : Nat} (h : hostReg c o = .cmd) (ha : o % 4 = 0) : o = 0 := by
  obtain ⟨q, rfl⟩ : ∃ q, o = 4 * q := ⟨o / 4, by omega⟩
  by_cases h1 : q < 43
  · interval_cases q <;> first | rfl | exact absurd h (by simp [hostReg])
  · rw [hostReg_high c _ (by omega)] at h
    repeat' split at h
    all_goals exact absurd h (by simp)

/-! ### One register changes -/

theorem State.setArg_get (s : State) (k j : ArgIx) (v : Word) :
    (s.setArg k v).args[j] = if j = k then v else s.args[j] := by
  by_cases h : j = k
  · subst h
    simp
  · have hv : k.val ≠ j.val := fun e => h (Fin.ext e.symm)
    simp [Fin.getElem_fin, Vector.getElem_set_ne _ _ hv, h]

theorem State.setPat_get (s : State) (k j : PatIx) (p : PatReg) :
    (s.setPat k p).pats[j] = if j = k then p else s.pats[j] := by
  by_cases h : j = k
  · subst h
    simp
  · have hv : k.val ≠ j.val := fun e => h (Fin.ext e.symm)
    simp [Fin.getElem_fin, Vector.getElem_set_ne _ _ hv, h]

/-- The length a write to PATLEN leaves (R34). -/
theorem PatReg.setLen_plen (p : PatReg) (v : Word) : (p.setLen v).plen = min v.toNat 32 := by
  simp only [PatReg.plen, PatReg.setLen, BitVec.toNat_ofNat]
  omega

/-! ### Pattern literals (R12, R120) -/

theorem literalNat_lt (lit : List Bool) : literalNat lit < 2 ^ lit.length := by
  induction lit with
  | nil => simp [literalNat]
  | cons v vs ih =>
    have hv := v.toNat_lt
    simp only [literalNat, List.length_cons, Nat.pow_succ]
    omega

/-- Bit i of a literal's number is its element i (R120). -/
theorem literalNat_testBit (lit : List Bool) (i : Nat) : (literalNat lit).testBit i = lit.getD i false := by
  induction lit generalizing i with
  | nil => simp [literalNat]
  | cons v vs ih =>
    cases i with
    | zero =>
      simp only [literalNat, Nat.testBit_zero, List.getD_cons_zero]
      cases v <;> simp
    | succ i =>
      have h : literalNat (v :: vs) / 2 = literalNat vs := by
        have := v.toNat_lt
        simp only [literalNat]
        omega
      rw [Nat.testBit_succ, h, ih, List.getD_cons_succ]

end Sys2Proof.Machine
end

