-- ==== Sys2Proof/Laws/Registry.lean ====
section
/-! SUPPORT. The laws of the Toyota decoder's parts (R311 to R317), of a result's characters (R300) and of the
registry's walk (R301 to R303). -/

namespace Sys2Proof.Machine

/-! ### Bytes and their bits -/

theorem streamBits_length (bytes : List Byte) : (streamBits bytes).length = 8 * bytes.length := by
  induction bytes with
  | nil => rfl
  | cons x xs ih =>
    have h : (streamBits (x :: xs)).length = 8 + (streamBits xs).length := by simp [streamBits]
    rw [h, ih, List.length_cons]
    omega

/-- Bit p of a stream is bit 7 - (p mod 8) of byte p div 8 (R82). -/
theorem streamBits_getElem? (bytes : List Byte) (j k : Nat) (hk : k < 8) :
    (streamBits bytes)[8 * j + k]? = bytes[j]?.map (fun x => x.getLsbD (7 - k)) := by
  induction bytes generalizing j with
  | nil => simp [streamBits]
  | cons x xs ih =>
    have h : streamBits (x :: xs) = (List.range 8).map (fun k => x.getLsbD (7 - k)) ++ streamBits xs := by
      simp [streamBits]
    cases j with
    | zero =>
      rw [h, List.getElem?_append_left (by simp; omega), List.getElem?_map, List.getElem?_range (by omega)]
      simp
    | succ j =>
      have e : 8 * (j + 1) + k = 8 + (8 * j + k) := by ring
      rw [h, e, List.getElem?_append_right (by simp)]
      simp only [List.length_map, List.length_range, Nat.add_sub_cancel_left, List.getElem?_cons_succ]
      exact ih j

/-- The first bytes of a memory are those whose bits it holds. -/
theorem memBytes_eq_of_bits {m : Memory} {raw : List Byte}
    (h : ∀ p, p < 8 * raw.length → (streamBits raw)[p]? = some (bitRead m p)) :
    memBytes m 0 raw.length = raw := by
  apply List.ext_getElem
  · simp [memBytes]
  · intro j h1 h2
    simp only [memBytes, List.getElem_map, List.getElem_range, Nat.zero_add]
    apply BitVec.eq_of_getLsbD_eq
    intro i hi
    have hj := h (8 * j + (7 - i)) (by omega)
    rw [streamBits_getElem? raw j (7 - i) (by omega), List.getElem?_eq_getElem h2, Option.map_some,
      Option.some_inj] at hj
    have e1 : (8 * j + (7 - i)) / 8 = j := by omega
    have e2 : (8 * j + (7 - i)) % 8 = 7 - i := by omega
    have e3 : 7 - (7 - i) = i := by omega
    rw [bitRead, e1, e2, e3] at hj
    exact hj.symm

/-! ### The sync search -/

/-- The data offset is that of the first variant in order that occurs, at its lowest position (R312, R313). -/
theorem findSync_eq_some {b : BitBuffer} {syncs : List (List Bool)} {v p : Nat} {sync : List Bool}
    (hv : syncs[v]? = some sync) (hpos : 1 ≤ sync.length)
    (hbefore : ∀ (j : Nat) (sync' : List Bool) (q : Nat), j < v → syncs[j]? = some sync' →
      matchAt b q sync' = false)
    (hp : matchAt b p sync = true) (hlow : ∀ q, q < p → matchAt b q sync = false) :
    findSync b syncs = some (p + sync.length - 2) := by
  induction syncs generalizing v with
  | nil => simp at hv
  | cons s ss ih =>
    cases v with
    | zero =>
      obtain rfl : s = sync := by simpa using hv
      have hle := (matchAt_iff.1 hp).1
      have hs : seekFrom b 0 b.numbits.toNat s = some p :=
        seekFrom_eq_some (by omega) (by omega) hp (fun q _ hq => hlow q hq)
      simp only [findSync, hs]
    | succ v =>
      have hs : seekFrom b 0 b.numbits.toNat s = none :=
        seekFrom_none_iff.2 fun q _ _ => hbefore 0 s q (by omega) (by simp)
      simp only [findSync, hs]
      exact ih (by simpa using hv) fun j sync' q hj hs' => hbefore (j + 1) sync' q (by omega) (by simpa using hs')

/-! ### The registry -/

theorem fieldBytes_length (n : Nat) (text : List Byte) : (fieldBytes n text).length = n := by
  simp only [fieldBytes, List.length_append, List.length_take, List.length_replicate]
  omega

/-- A field that a legal text is published into ends in 0x00 bytes only (R300, R301). -/
theorem paddedText_fieldBytes (n : Nat) (text : List Byte) (h : text.all (· != 0#8) = true) :
    paddedText (fieldBytes n text) = true := by
  have ht : ∀ x ∈ text.take n, (x != 0#8) = true := fun x hx => List.all_eq_true.1 h x (List.mem_of_mem_take hx)
  rw [paddedText, fieldBytes, List.dropWhile_append_of_pos ht, List.all_eq_true]
  intro x hx
  have := (List.dropWhile_sublist _).mem hx
  simp [List.eq_of_mem_replicate this]

/-! ### The characters of a result (R300) -/

/-- Hexadecimal texts have no 0x00 character (R317). -/
theorem hexUpper_legal (bytes : List Byte) : (hexUpper bytes).all (· != 0#8) = true := by
  have hd : ∀ n, n < 16 → (hexDigit n != 0#8) = true := by decide
  simp only [hexUpper, List.all_flatMap, List.all_cons, List.all_nil, Bool.and_true, List.all_eq_true,
    Bool.and_eq_true]
  intro x _
  have := x.isLt
  exact ⟨hd _ (by omega), hd _ (by omega)⟩

/-- The temperature text has no 0x00 character, whatever the message's bytes (R316, R317). -/
theorem toyotaInfo2_legal (raw : List Byte) : (toyotaInfo2 raw).all (· != 0#8) = true := by
  have h : ∀ x : Byte, (decimalInt ((x.toNat : Int) - 40)).all (· != 0#8) = true := by decide +kernel
  simp only [toyotaInfo2, List.all_append, Bool.and_eq_true]
  exact ⟨⟨by decide, h _⟩, by decide⟩

/-- A registered decoder's result has the characters R300 allows. -/
theorem runDecoder_textsLegal {c : Config} {f : DecoderFn} {b : BitBuffer} {numbytes : Nat} {m : MessageInfo}
    (h : runDecoder c f b numbytes = some m) : m.textsLegal = true := by
  cases f with
  | configured k =>
    obtain ⟨r, -, rfl⟩ := Option.map_eq_some_iff.1 h
    exact r.2
  | toyotaTpms =>
    simp only [runDecoder, toyotaDecode] at h
    repeat' split at h
    all_goals first | (obtain rfl := Option.some.inj h) | exact absurd h (by simp)
    simp only [MessageInfo.textsLegal, toyotaResult, List.all_append, Bool.and_eq_true]
    exact ⟨⟨⟨⟨⟨by decide, hexUpper_legal _⟩, rfl⟩, toyotaInfo2_legal _⟩, rfl⟩, rfl⟩

/-! ### The walk -/

/-- What the registry's walk answers: the first decoder that claims the buffer, or that none does (R303). -/
theorem firstDecoded_spec (c : Config) (b : BitBuffer) (numbytes : Nat) (ds : List DecoderEntry) (k : Nat) :
    (∀ (n : Nat) (m : MessageInfo), firstDecoded c b numbytes ds k = some (n, m) →
      ∃ (j : Nat) (e : DecoderEntry), n = k + j ∧ ds[j]? = some e ∧ runDecoder c e.fn b numbytes = some m ∧
        ∀ (i : Nat) (e' : DecoderEntry), i < j → ds[i]? = some e' → runDecoder c e'.fn b numbytes = none) ∧
    (firstDecoded c b numbytes ds k = none → ∀ e ∈ ds, runDecoder c e.fn b numbytes = none) := by
  induction ds generalizing k with
  | nil => simp [firstDecoded]
  | cons d ds ih =>
    simp only [firstDecoded]
    cases hd : runDecoder c d.fn b numbytes with
    | some m =>
      refine ⟨fun n m' h => ⟨0, d, ?_⟩, fun h => by simp at h⟩
      simp only [Option.some.injEq, Prod.mk.injEq] at h
      obtain ⟨rfl, rfl⟩ := h
      exact ⟨rfl, rfl, hd, fun i _ hi => by omega⟩
    | none =>
      obtain ⟨ih1, ih2⟩ := ih (k + 1)
      refine ⟨fun n m h => ?_, fun h e he => ?_⟩
      · obtain ⟨j, e, h1, h2, h3, h4⟩ := ih1 n m h
        refine ⟨j + 1, e, by omega, by simpa using h2, h3, fun i e' hi hie => ?_⟩
        cases i with
        | zero =>
          obtain rfl : d = e' := by simpa using hie
          exact hd
        | succ i => exact h4 i e' (by omega) (by simpa using hie)
      · rcases List.mem_cons.1 he with rfl | he
        · exact hd
        · exact ih2 h e he

/-- The first decoder that claims the buffer is the registry's answer (R303). -/
theorem firstDecoded_eq_some {c : Config} {b : BitBuffer} {numbytes : Nat} {ds : List DecoderEntry}
    {j k : Nat} {e : DecoderEntry} {m : MessageInfo} (he : ds[j]? = some e)
    (hm : runDecoder c e.fn b numbytes = some m)
    (hbefore : ∀ (i : Nat) (e' : DecoderEntry), i < j → ds[i]? = some e' → runDecoder c e'.fn b numbytes = none) :
    firstDecoded c b numbytes ds k = some (k + j, m) := by
  induction ds generalizing j k with
  | nil => simp at he
  | cons d ds ih =>
    cases j with
    | zero =>
      obtain rfl : d = e := by simpa using he
      simp [firstDecoded, hm]
    | succ j =>
      have hd := hbefore 0 d (by omega) (by simp)
      simp only [firstDecoded, hd]
      rw [ih (by simpa using he) fun i e' hi hie => hbefore (i + 1) e' (by omega) (by simpa using hie)]
      simp only [Option.some.injEq, Prod.mk.injEq, and_true]
      omega

end Sys2Proof.Machine
end

