-- ==== Sys2Proof/Laws/Scanner.lean ====
section
/-! SUPPORT. The laws of the coherence measure (R273 to R278), of the copy (R283) and of the walk (R280). -/

namespace Sys2Proof.Machine

/-! ### Class averages -/

/-- A class that takes a duration between two bounds keeps its average between them (R276). -/
theorem TimingClass.take_bounds {c : TimingClass} {d lo hi : Nat} (h : 1 ≤ c.cnt → lo ≤ c.avg ∧ c.avg ≤ hi)
    (hd : lo ≤ d ∧ d ≤ hi) : lo ≤ (c.take d).avg ∧ (c.take d).avg ≤ hi := by
  simp only [TimingClass.take]
  rcases Nat.eq_zero_or_pos c.cnt with h0 | h0
  · simp only [h0, Nat.mul_zero, Nat.zero_add, Nat.div_one]
    exact hd
  · obtain ⟨h1, h2⟩ := h h0
    constructor
    · rw [Nat.le_div_iff_mul_le (by omega)]
      nlinarith
    · apply Nat.le_of_lt_succ
      rw [Nat.div_lt_iff_lt_mul (by omega)]
      nlinarith

/-! ### Acceptance -/

/-- What a class accepts, in the words of R275. -/
theorem TimingClass.accepts_iff {c : Config} {x : TimingClass} {d : Nat} :
    x.accepts c.tolDiv d = true ↔ ClassAccepts c x d := by
  have h : (durationDelta d x.avg : Int) = |(d : Int) - (x.avg : Int)| := by
    unfold durationDelta
    split
    · rw [abs_of_nonpos (by omega)]
      omega
    · rw [abs_of_nonneg (by omega)]
      omega
  simp only [TimingClass.accepts, ClassAccepts, Bool.or_eq_true, beq_iff_eq, decide_eq_true_eq, ← h]
  norm_cast

/-- The classes of a level after a pulse: the first class in order that accepts has taken it (R275). -/
theorem joinClass_eq_some_iff {c : Config} {d : Nat} {cs cs' : List TimingClass} :
    joinClass c.tolDiv cs d = some cs' ↔ ∃ (i : Nat) (x : TimingClass), cs[i]? = some x ∧ ClassAccepts c x d ∧
      (∀ (j : Nat) (y : TimingClass), j < i → cs[j]? = some y → ¬ ClassAccepts c y d) ∧
      cs' = cs.set i (x.take d) := by
  induction cs generalizing cs' with
  | nil => simp [joinClass]
  | cons z zs ih =>
    simp only [joinClass]
    by_cases hz : ClassAccepts c z d
    · rw [if_pos (TimingClass.accepts_iff.2 hz), Option.some_inj]
      constructor
      · rintro rfl
        exact ⟨0, z, rfl, hz, by omega, rfl⟩
      · rintro ⟨i, x, hx, -, hb, rfl⟩
        cases i with
        | zero => obtain rfl : z = x := by simpa using hx
                  rfl
        | succ i => exact absurd hz (hb 0 z (by omega) rfl)
    · rw [if_neg fun h => hz (TimingClass.accepts_iff.1 h), Option.map_eq_some_iff]
      constructor
      · rintro ⟨cs2, h, rfl⟩
        obtain ⟨i, x, hx, ha, hb, rfl⟩ := ih.1 h
        refine ⟨i + 1, x, by simpa using hx, ha, fun j y hj hy => ?_, rfl⟩
        cases j with
        | zero => obtain rfl : z = y := by simpa using hy
                  exact hz
        | succ j => exact hb j y (by omega) (by simpa using hy)
      · rintro ⟨i, x, hx, ha, hb, rfl⟩
        cases i with
        | zero => obtain rfl : z = x := by simpa using hx
                  exact absurd ha hz
        | succ i =>
          exact ⟨zs.set i (x.take d), ih.2 ⟨i, x, by simpa using hx, ha,
            fun j y hj hy => hb (j + 1) y (by omega) (by simpa using hy), rfl⟩, rfl⟩

/-- A level's classes reject a pulse when none of them accepts it (R275). -/
theorem joinClass_eq_none_iff {c : Config} {d : Nat} {cs : List TimingClass} :
    joinClass c.tolDiv cs d = none ↔ ∀ x ∈ cs, ¬ ClassAccepts c x d := by
  induction cs with
  | nil => simp [joinClass]
  | cons z zs ih =>
    simp only [joinClass, List.forall_mem_cons]
    by_cases hz : ClassAccepts c z d
    · simp [TimingClass.accepts_iff.2 hz, hz]
    · rw [if_neg fun h => hz (TimingClass.accepts_iff.1 h), Option.map_eq_none_iff, ih]
      simp [hz]

/-- The populated classes of a list have averages between two bounds. -/
def AvgsWithin (lo hi : Nat) (cs : List TimingClass) : Prop := ∀ c ∈ cs, 1 ≤ c.cnt → lo ≤ c.avg ∧ c.avg ≤ hi

/-- When a pulse joins, the averages stay within bounds and some class is populated (R275, R276). -/
theorem joinClass_spec {tolDiv d lo hi : Nat} {cs cs' : List TimingClass} (h : joinClass tolDiv cs d = some cs')
    (hcs : AvgsWithin lo hi cs) (hd : lo ≤ d ∧ d ≤ hi) : AvgsWithin lo hi cs' ∧ ∃ c ∈ cs', 1 ≤ c.cnt := by
  induction cs generalizing cs' with
  | nil => simp [joinClass] at h
  | cons c cs ih =>
    simp only [joinClass] at h
    split at h
    · obtain rfl := Option.some.inj h
      refine ⟨fun x hx hc => ?_, c.take d, by simp, by simp [TimingClass.take]⟩
      rcases List.mem_cons.1 hx with rfl | hx
      · exact TimingClass.take_bounds (hcs c (by simp)) hd
      · exact hcs x (by simp [hx]) hc
    · obtain ⟨cs2, h2, rfl⟩ := Option.map_eq_some_iff.1 h
      obtain ⟨a, x, hx, hc⟩ := ih h2 fun x hx => hcs x (by simp [hx])
      refine ⟨fun y hy hyc => ?_, x, by simp [hx], hc⟩
      rcases List.mem_cons.1 hy with rfl | hy
      · exact hcs y (by simp) hyc
      · exact a y hy hyc

/-- The classes of both levels. -/
def ClassTable.all (t : ClassTable) : List TimingClass := t.low ++ t.high

theorem ClassTable.level_subset (t : ClassTable) (lv : Bool) : ∀ c ∈ t.level lv, c ∈ t.all := by
  intro c hc
  cases lv <;> simp_all [ClassTable.level, ClassTable.all]

theorem ClassTable.mem_setLevel {t : ClassTable} {lv : Bool} {cs : List TimingClass} {c : TimingClass}
    (h : c ∈ (t.setLevel lv cs).all) : c ∈ cs ∨ c ∈ t.all := by
  cases lv <;> simp_all [ClassTable.setLevel, ClassTable.all] <;> tauto

theorem ClassTable.setLevel_subset {t : ClassTable} {lv : Bool} {cs : List TimingClass} :
    ∀ c ∈ cs, c ∈ (t.setLevel lv cs).all := by
  intro c hc
  cases lv <;> simp [ClassTable.setLevel, ClassTable.all, hc]

/-- Every populated average of a run's table lies between DUR_MIN and the largest 32-bit duration, and a
run with a pulse has a populated class (R276, R278). -/
theorem runTable_averages {c : Config} {ring : Word → Pulse} {k0 : Word} {n : Nat} {t : ClassTable}
    (h : runTable c ring k0 n = some t) :
    AvgsWithin c.durMin (2 ^ 32 - 1) t.all ∧ (1 ≤ n → ∃ x ∈ t.all, 1 ≤ x.cnt) ∧
      (n = 0 → ∀ x ∈ t.all, x.cnt = 0) := by
  induction n generalizing t with
  | zero =>
    obtain rfl := Option.some.inj h
    have hz : ∀ x ∈ (ClassTable.empty c.nclass).all, x.cnt = 0 := by
      intro x hx
      simp only [ClassTable.empty, ClassTable.all, List.mem_append, List.mem_replicate] at hx
      rcases hx with ⟨-, rfl⟩ | ⟨-, rfl⟩ <;> rfl
    exact ⟨fun x hx hc => by have := hz x hx; omega, by omega, fun _ => hz⟩
  | succ n ih =>
    simp only [runTable] at h
    obtain ⟨t0, h0, hj⟩ := Option.bind_eq_some_iff.1 h
    obtain ⟨ha, -, -⟩ := ih h0
    simp only [joinRun] at hj
    split at hj
    · simp at hj
    · rename_i hd
      obtain ⟨cs, hcs, rfl⟩ := Option.map_eq_some_iff.1 hj
      have hlt := (ring (k0 + BitVec.ofNat 32 n)).duration.isLt
      obtain ⟨hb, x, hx, hxc⟩ := joinClass_spec (lo := c.durMin) (hi := 2 ^ 32 - 1) hcs
        (fun x hx => ha x (t0.level_subset _ x hx)) ⟨by omega, by omega⟩
      refine ⟨fun y hy hyc => ?_, fun _ => ⟨x, ClassTable.setLevel_subset x hx, hxc⟩, by omega⟩
      rcases ClassTable.mem_setLevel hy with hy | hy
      · exact hb y hy hyc
      · exact ha y hy hyc

/-- The unit is a populated class's average; it is 0 when no class is populated (R277, R278). -/
theorem ClassTable.unit_spec (t : ClassTable) :
    ((∃ x ∈ t.all, 1 ≤ x.cnt) → (∃ x ∈ t.all, 1 ≤ x.cnt ∧ t.unit = x.avg) ∧
      ∀ x ∈ t.all, 1 ≤ x.cnt → t.unit ≤ x.avg) ∧
    ((∀ x ∈ t.all, x.cnt = 0) → t.unit = 0) := by
  let l := (t.all.filter (fun x => decide (1 ≤ x.cnt))).map TimingClass.avg
  have hl : t.unit = l.min?.getD 0 := rfl
  have hmem : ∀ a, a ∈ l ↔ ∃ x ∈ t.all, 1 ≤ x.cnt ∧ x.avg = a := fun a => by
    simp [l, and_assoc]
  constructor
  · rintro ⟨x, hx, hc⟩
    have hxl : x.avg ∈ l := (hmem _).2 ⟨x, hx, hc, rfl⟩
    cases hm : l.min? with
    | none =>
      rw [List.min?_eq_none_iff] at hm
      rw [hm] at hxl
      simp at hxl
    | some a =>
      obtain ⟨h1, h2⟩ := List.min?_eq_some_iff.1 hm
      obtain ⟨y, hy, hyc, rfl⟩ := (hmem a).1 h1
      rw [hl, hm]
      exact ⟨⟨y, hy, hyc, rfl⟩, fun z hz hzc => h2 _ ((hmem _).2 ⟨z, hz, hzc, rfl⟩)⟩
  · intro h
    have : l = [] := by
      rw [List.eq_nil_iff_forall_not_mem]
      intro a ha
      obtain ⟨x, hx, hc, -⟩ := (hmem a).1 ha
      have := h x hx
      omega
    rw [hl, this]
    rfl

/-! ### The run function -/

/-- Everything the run loop does: it takes pulses while they join, at most `n` more (R277). -/
theorem runLoop_spec {c : Config} {ring : Word → Pulse} {k0 : Word} (n len : Nat) {t : ClassTable}
    (h : runTable c ring k0 len = some t) :
    len ≤ (runLoop c ring k0 n len t).1 ∧ (runLoop c ring k0 n len t).1 ≤ len + n ∧
    runTable c ring k0 (runLoop c ring k0 n len t).1 = some (runLoop c ring k0 n len t).2 ∧
    ((runLoop c ring k0 n len t).1 = len + n ∨ runTable c ring k0 ((runLoop c ring k0 n len t).1 + 1) = none) := by
  induction n generalizing len t with
  | zero => exact ⟨le_refl _, le_refl _, h, .inl rfl⟩
  | succ n ih =>
    have hnext : runTable c ring k0 (len + 1) = joinRun c t (ring (k0 + BitVec.ofNat 32 len)) := by
      simp [runTable, h]
    cases hj : joinRun c t (ring (k0 + BitVec.ofNat 32 len)) with
    | none =>
      simp only [runLoop, hj]
      exact ⟨le_refl _, by omega, h, .inr (by rw [hnext, hj])⟩
    | some t' =>
      simp only [runLoop, hj]
      obtain ⟨a, b, d, e⟩ := ih (len + 1) (hnext.trans hj)
      refine ⟨by omega, by omega, d, ?_⟩
      rcases e with e | e
      · exact .inl (by omega)
      · exact .inr e

theorem measureRun_len_le (c : Config) (ring : Word → Pulse) (k0 : Word) (maxn : Nat) :
    (measureRun c ring k0 maxn).len ≤ maxn ∧ (measureRun c ring k0 maxn).len ≤ c.maxRun := by
  have h := (runLoop_spec (c := c) (ring := ring) (k0 := k0) (min maxn c.maxRun) 0 rfl).2.1
  simp only [measureRun]
  omega

/-- The unit of a run with a pulse is at least DUR_MIN and fits 32 bits (R278). -/
theorem measureRun_unit_bounds {c : Config} {ring : Word → Pulse} {k0 : Word} {maxn : Nat}
    (h : 1 ≤ (measureRun c ring k0 maxn).len) :
    c.durMin ≤ (measureRun c ring k0 maxn).unit ∧ (measureRun c ring k0 maxn).unit < 2 ^ 32 := by
  have ht := (runLoop_spec (c := c) (ring := ring) (k0 := k0) (min maxn c.maxRun) 0 rfl).2.2.1
  obtain ⟨ha, hp, -⟩ := runTable_averages ht
  obtain ⟨⟨x, hx, hxc, hu⟩, -⟩ := (ClassTable.unit_spec _).1 (hp h)
  have := ha x hx hxc
  simp only [measureRun, hu]
  omega

/-! ### The copy -/

theorem writeLevel_wf {lv : Bool} {pos n : Nat} {m : Memory} (h : Memory.wf m) :
    Memory.wf (writeLevel lv pos n m) := by
  induction n with
  | zero => exact h
  | succ n ih => exact bitWrite_wf ih

theorem writeLevel_bounded {lv : Bool} {pos n cap : Nat} {m : Memory} (h : ∀ c ∈ m, c.1 < cap)
    (hp : pos + n ≤ 8 * cap) : ∀ c ∈ writeLevel lv pos n m, c.1 < cap := by
  induction n with
  | zero => exact h
  | succ n ih => exact sparseWrite_bounded (ih (by omega)) (by omega)

theorem bitRead_writeLevel {lv : Bool} {pos n p : Nat} {m : Memory} (h : Memory.wf m) :
    bitRead (writeLevel lv pos n m) p = if pos ≤ p ∧ p < pos + n then lv else bitRead m p := by
  induction n with
  | zero =>
    rw [if_neg (by omega)]
    rfl
  | succ n ih =>
    rw [writeLevel, bitRead_bitWrite (writeLevel_wf h), ih]
    by_cases h1 : p = pos + n
    · rw [if_pos h1, if_pos (by omega)]
    · rw [if_neg h1]
      by_cases h2 : pos ≤ p ∧ p < pos + n
      · rw [if_pos h2, if_pos (by omega)]
      · rw [if_neg h2, if_neg (by omega)]

/-- The level waveform of `n` pulses from logical index `k` (R283). -/
def symbolsFrom (ring : Word → Pulse) (unit : Nat) : Nat → Word → List Bool
  | 0, _ => []
  | n + 1, k =>
    List.replicate (symbolCount unit (ring k).duration.toNat) (ring k).level ++
      symbolsFrom ring unit n (k + 1#32)

theorem runSymbols_eq (ring : Word → Pulse) (k0 : Word) (r : Run) :
    runSymbols ring k0 r = symbolsFrom ring r.unit r.len k0 := by
  have h : ∀ (n : Nat) (k : Word), (List.range n).flatMap (fun j =>
      List.replicate (symbolCount r.unit (ring (k + BitVec.ofNat 32 j)).duration.toNat)
        (ring (k + BitVec.ofNat 32 j)).level) = symbolsFrom ring r.unit n k := by
    intro n
    induction n with
    | zero => intro k; rfl
    | succ n ih =>
      intro k
      have e : ∀ j : Nat, k + BitVec.ofNat 32 j.succ = k + 1#32 + BitVec.ofNat 32 j := fun j => by
        rw [Nat.succ_eq_add_one, BitVec.ofNat_add, BitVec.add_assoc, BitVec.add_comm (BitVec.ofNat 32 j)]
      have e0 : k + BitVec.ofNat 32 0 = k := BitVec.add_zero k
      rw [List.range_succ_eq_map, List.flatMap_cons, List.flatMap_map, symbolsFrom, ← ih (k + 1#32), e0]
      congr 1
      apply congrArg (fun f => List.flatMap f (List.range n))
      funext j
      rw [e]
  exact h r.len k0

/-- Everything the copy does: it writes the waveform from `pos` on, truncated at the capacity. -/
theorem copyLoop_spec (ring : Word → Pulse) (unit capBits n : Nat) (k : Word) (m : Memory) (pos : Nat)
    (h : Memory.wf m) (hp : pos ≤ capBits) :
    let r := copyLoop ring unit capBits n k m pos
    let syms := symbolsFrom ring unit n k
    Memory.wf r.1 ∧ r.2 = min capBits (pos + syms.length) ∧
    (∀ p, pos ≤ p → p < r.2 → syms[p - pos]? = some (bitRead r.1 p)) ∧
    (∀ p, (p < pos ∨ r.2 ≤ p) → bitRead r.1 p = bitRead m p) := by
  induction n generalizing k m pos with
  | zero =>
    simp only [copyLoop, symbolsFrom]
    exact ⟨h, by simp; omega, fun p h1 h2 => by omega, fun p _ => trivial⟩
  | succ n ih =>
    simp only [copyLoop, symbolsFrom]
    generalize hw : symbolCount unit (ring k).duration.toNat = w
    have hm := writeLevel_wf (lv := (ring k).level) (pos := pos) (n := min w (capBits - pos)) h
    obtain ⟨i1, i2, i3, i4⟩ := ih (k + 1#32) _ (pos + min w (capBits - pos)) hm (by omega)
    simp only [List.length_append, List.length_replicate]
    refine ⟨i1, by rw [i2]; omega, fun p h1 h2 => ?_, fun p hpp => ?_⟩
    · by_cases hq : p < pos + min w (capBits - pos)
      · rw [i4 p (.inl hq), bitRead_writeLevel h, if_pos ⟨h1, hq⟩,
          List.getElem?_append_left (by simp; omega), List.getElem?_replicate, if_pos (by omega)]
      · have hc : pos + min w (capBits - pos) = pos + w := by rw [i2] at h2; omega
        rw [← i3 p (by omega) h2, List.getElem?_append_right (by simp; omega)]
        simp only [List.length_replicate, hc]
        congr 1
        omega
    · have hq : p < pos ∨ pos + min w (capBits - pos) ≤ p := by rw [i2] at hpp; omega
      rw [i4 p (by rw [i2] at hpp ⊢; omega), bitRead_writeLevel h, if_neg (by omega)]

theorem copyLoop_bounded (ring : Word → Pulse) (unit cap n : Nat) (k : Word) (m : Memory) (pos : Nat)
    (h : ∀ c ∈ m, c.1 < cap) (hp : pos ≤ 8 * cap) :
    ∀ c ∈ (copyLoop ring unit (8 * cap) n k m pos).1, c.1 < cap := by
  induction n generalizing k m pos with
  | zero => exact h
  | succ n ih => exact ih _ _ _ (writeLevel_bounded h (by omega)) (by omega)

/-- The converted buffer is well formed. -/
theorem convertRun_wf (ring : Word → Pulse) (cap : Nat) (k0 : Word) (r : Run) (hc : 8 * cap < 2 ^ 32) :
    (convertRun ring (8 * cap) k0 r).Wf cap := by
  have h := copyLoop_spec ring r.unit (8 * cap) r.len k0 [] 0 Memory.wf_nil (by omega)
  have hb := copyLoop_bounded ring r.unit cap r.len k0 [] 0 (by simp) (by omega)
  refine ⟨h.1, hb, ?_⟩
  simp only [convertRun, h.2.1, BitVec.toNat_ofNat]
  rw [Nat.mod_eq_of_lt (by omega)]
  omega

/-! ### The walk -/

/-- What every run of the walk keeps, the walk keeps. -/
theorem scanWalk_induct {c : Config} {ring : Word → Pulse} {w : ScanWindow} (P : ScanAcc → Prop)
    (hstep : ∀ (i : Nat) (a : ScanAcc), i < w.avail → P a →
      P (scanVisit ring (w.base + BitVec.ofNat 32 i) (measureRun c ring (w.base + BitVec.ofNat 32 i) (w.avail - i))
        (i + (measureRun c ring (w.base + BitVec.ofNat 32 i) (w.avail - i)).len == w.avail) a))
    (n i : Nat) (a : ScanAcc) (h : P a) : P (scanWalk c ring w n i a) := by
  induction n generalizing i a with
  | zero => exact h
  | succ n ih =>
    simp only [scanWalk]
    split
    · exact h
    · exact ih _ _ (hstep i a (by omega) h)

theorem State.walkOffset_lt (s : State) (k : Nat) : s.walkOffset k < s.walkOffset (k + 1) := by
  simp only [State.walkOffset]
  omega

theorem State.walkOffset_strictMono (s : State) : StrictMono s.walkOffset := strictMono_nat_of_lt_succ s.walkOffset_lt

/-- What every run of the walk keeps, its number known, holds when the walk ends, all runs visited (R280). -/
theorem scanWalk_indexed (s : State) (P : Nat → ScanAcc → Prop)
    (hstep : ∀ (k : Nat) (a : ScanAcc), s.walkVisits k → P k a →
      P (k + 1) (scanVisit s.ringAt (s.walkStart k) (s.walkRun k)
        (s.walkOffset k + (s.walkRun k).len == s.scanWindow.avail) a))
    (n k : Nat) (a : ScanAcc) (h : P k a) (hn : s.scanWindow.avail - s.walkOffset k ≤ n)
    (hk : ∀ j, j < k → s.walkVisits j) :
    ∃ m, (∀ j, s.walkVisits j ↔ j < m) ∧
      P m (scanWalk s.cfg s.ringAt s.scanWindow n (s.walkOffset k) a) := by
  have stop : s.scanWindow.avail ≤ s.walkOffset k → ∀ j, s.walkVisits j ↔ j < k := fun hs j =>
    ⟨fun hj => by
      by_contra hc
      have := s.walkOffset_strictMono.monotone (not_lt.1 hc)
      simp only [State.walkVisits] at hj
      omega, hk j⟩
  induction n generalizing k a with
  | zero => exact ⟨k, stop (by omega), h⟩
  | succ n ih =>
    simp only [scanWalk]
    by_cases hs : s.scanWindow.avail ≤ s.walkOffset k
    · rw [if_pos hs]
      exact ⟨k, stop hs, h⟩
    · rw [if_neg hs]
      have hv : s.walkVisits k := not_le.1 hs
      have hlt := s.walkOffset_lt k
      have hk1 : ∀ j, j < k + 1 → s.walkVisits j := fun j hj => by
        rcases Nat.lt_succ_iff_lt_or_eq.1 hj with hj | rfl
        · exact hk j hj
        · exact hv
      refine ih (k + 1) _ (hstep k a hv h) (by omega) hk1 fun hs1 j => ⟨fun hj => ?_, hk1 j⟩
      by_contra hc
      have := s.walkOffset_strictMono.monotone (not_lt.1 hc)
      simp only [State.walkVisits] at hj
      omega

/-- Whatever the state, the walk changes BUF0 and the registers of the detected signal alone. -/
theorem scanWalk_frame (c : Config) (ring : Word → Pulse) (w : ScanWindow) (n i : Nat) (a : ScanAcc) :
    let t := (scanWalk c ring w n i a).st
    t = { a.st with bufs := t.bufs, scanBest := t.scanBest, sigStart := t.sigStart, sigUnit := t.sigUnit,
                    sigReady := t.sigReady } ∧
      OtherBufsSame 0 a.st t := by
  refine scanWalk_induct
    (fun b =>
      b.st = { a.st with
        bufs := b.st.bufs
        scanBest := b.st.scanBest
        sigStart := b.st.sigStart
        sigUnit := b.st.sigUnit
        sigReady := b.st.sigReady } ∧
      OtherBufsSame 0 a.st b.st)
    ?_ n i a ⟨rfl, fun _ _ => rfl⟩
  intro i b _ hb
  simp only [scanVisit]
  split
  · refine ⟨?_, fun c h => ?_⟩
    · have h := hb.1
      generalize b.st = x at *
      rw [h]
      rfl
    · rw [← hb.2 c h]
      exact State.buf_setBuf_ne _ _ h
  · exact hb

/-- How the walk ends: it measures nothing, or its last run, at some offset `j`, reaches or passes the end
of the window; every run before it ended inside, so SCAN_LAST was not set (R280, R282). -/
theorem scanWalk_end {c : Config} {ring : Word → Pulse} {w : ScanWindow} (P : ScanAcc → Prop)
    (hstep : ∀ (i : Nat) (a : ScanAcc), i < w.avail → P a →
      P (scanVisit ring (w.base + BitVec.ofNat 32 i) (measureRun c ring (w.base + BitVec.ofNat 32 i) (w.avail - i))
        (i + (measureRun c ring (w.base + BitVec.ofNat 32 i) (w.avail - i)).len == w.avail) a))
    (n i : Nat) (a : ScanAcc) (h : P a) (hn : w.avail - i ≤ n) :
    (w.avail ≤ i ∧ scanWalk c ring w n i a = a) ∨
    ∃ (j : Nat) (a' : ScanAcc), j < w.avail ∧ P a' ∧ a'.newLast = a.newLast ∧
      w.avail ≤ j + max (measureRun c ring (w.base + BitVec.ofNat 32 j) (w.avail - j)).len 1 ∧
      scanWalk c ring w n i a =
        scanVisit ring (w.base + BitVec.ofNat 32 j)
          (measureRun c ring (w.base + BitVec.ofNat 32 j) (w.avail - j))
          (j + (measureRun c ring (w.base + BitVec.ofNat 32 j) (w.avail - j)).len == w.avail) a' := by
  induction n generalizing i a with
  | zero => exact .inl ⟨by omega, rfl⟩
  | succ n ih =>
    by_cases hi : w.avail ≤ i
    · exact .inl ⟨hi, by simp [scanWalk, hi]⟩
    · simp only [scanWalk, hi, if_false]
      generalize hr : measureRun c ring (w.base + BitVec.ofNat 32 i) (w.avail - i) = r
      by_cases hend : w.avail ≤ i + max r.len 1
      · have hlast : ∀ a', scanWalk c ring w n (i + max r.len 1) a' = a' := fun a' => by
          cases n with
          | zero => rfl
          | succ n => simp [scanWalk, hend]
        refine .inr ⟨i, a, by omega, h, rfl, by rw [hr]; exact hend, ?_⟩
        rw [hlast, hr]
      · have hP := hstep i a (by omega) h
        rw [hr] at hP
        rcases ih (i + max r.len 1) _ hP (by omega) with ⟨h1, -⟩ | ⟨j, a', h1, h2, h3, h4, h5⟩
        · omega
        · refine .inr ⟨j, a', h1, h2, h3.trans ?_, h4, h5⟩
          have hb : (i + r.len == w.avail) = false := by
            rw [beq_eq_false_iff_ne]
            omega
          simp [scanVisit, hb]

end Sys2Proof.Machine
end

