-- ==== Sys2Proof/Laws/Status.lean ====
section
/-! SUPPORT. The laws of STATUS (R38, R341 to R343) and of the two ways a command ends (R142). -/

namespace Sys2Proof.Machine

/-! ### Fields -/

theorem statusErr_setErr (st : Word) (e : Err) : statusErr (setErr st e) = e.code := by
  apply BitVec.eq_of_getLsbD_eq
  intro i hi
  simp only [statusErr, setErr, BitVec.getLsbD_extractLsb', BitVec.getLsbD_or, BitVec.getLsbD_and]
  have : i = 0 ∨ i = 1 ∨ i = 2 ∨ i = 3 := by omega
  rcases this with rfl | rfl | rfl | rfl <;> cases e <;> simp [Err.code]

theorem statusErr_setFault (st : Word) : statusErr (setFault st) = statusErr st := by
  apply BitVec.eq_of_getLsbD_eq
  intro i hi
  simp only [statusErr, setFault, BitVec.getLsbD_extractLsb', BitVec.getLsbD_or]
  have : i = 0 ∨ i = 1 ∨ i = 2 ∨ i = 3 := by omega
  rcases this with rfl | rfl | rfl | rfl <;> simp

theorem statusFault_setErr (st : Word) (e : Err) : statusFault (setErr st e) = statusFault st := by
  simp only [statusFault, setErr, BitVec.getLsbD_or, BitVec.getLsbD_and]
  cases e <;> simp [Err.code]

theorem statusFault_setFault (st : Word) : statusFault (setFault st) = true := by
  simp [statusFault, setFault]

theorem Err.code_injective {e f : Err} (h : e.code = f.code) : e = f := by
  cases e <;> cases f <;> first | rfl | exact absurd h (by decide)

/-- The code last written wins: ERR is replaced (R341). -/
theorem setErr_setErr (st : Word) (e f : Err) : setErr (setErr st e) f = setErr st f := by
  apply BitVec.eq_of_getLsbD_eq
  intro i hi
  simp only [setErr, BitVec.getLsbD_or, BitVec.getLsbD_and]
  by_cases h4 : i < 4
  · have : i = 0 ∨ i = 1 ∨ i = 2 ∨ i = 3 := by omega
    rcases this with rfl | rfl | rfl | rfl <;> simp
  · have he : (e.code.setWidth 32).getLsbD i = false := by
      rw [BitVec.getLsbD_setWidth]
      simp [BitVec.getLsbD_of_ge e.code i (by omega)]
    rw [he]
    cases st.getLsbD i <;> cases (0xFFFFFFF0#32).getLsbD i <;> simp

/-! ### The bits without a field -/

theorem statusLegal_iff {st : Word} :
    statusLegal st = true ↔ st &&& 0xFFFFFEF0#32 = 0#32 ∧ (statusErr st).toNat ≤ 4 := by
  simp [statusLegal]

theorem Err.code_le (e : Err) : e.code.toNat ≤ 4 := by
  cases e <;> decide

/-- Setting ERR and FAULT keeps the fieldless bits 0 (R38). -/
theorem statusLegal_setErr {st : Word} (e : Err) (h : statusLegal st = true) :
    statusLegal (setErr st e) = true := by
  rw [statusLegal_iff] at h ⊢
  refine ⟨?_, by rw [statusErr_setErr]; exact e.code_le⟩
  have hd : (setErr st e) &&& 0xFFFFFEF0#32 =
      (st &&& 0xFFFFFEF0#32) ||| (e.code.setWidth 32 &&& 0xFFFFFEF0#32) := by
    rw [setErr, BitVec.and_or_distrib_right, BitVec.and_assoc]
    rfl
  rw [hd, h.1]
  cases e <;> rfl

theorem statusLegal_setFault {st : Word} (h : statusLegal st = true) : statusLegal (setFault st) = true := by
  rw [statusLegal_iff] at h ⊢
  refine ⟨?_, by rw [statusErr_setFault]; exact h.2⟩
  rw [setFault, BitVec.and_or_distrib_right, h.1]
  rfl

/-! ### How a command ends -/

theorem State.finish_eq (s : State) (e : Err) :
    s.finish e = .next (s.setStatus (finishedStatus s e)) := rfl

theorem State.raise_eq (s : State) (e : Err) : s.raise e = .next (s.raised e) := rfl

end Sys2Proof.Machine
end

