-- ==== Sys2Proof/Laws/Invariant.lean ====
section
/-! SUPPORT. What the invariant of the machine says of the memories, and how it passes from one state to
another that differs in a few fields (R35, R38, R39, R41). -/

namespace Sys2Proof.Machine

/-- The cleared record is well formed (R45, R300). -/
theorem MiRecord.cleared_wf (c : Config) : (MiRecord.cleared c).Wf c where
  name := by simp [MiRecord.cleared]
  raw := by simp [MiRecord.cleared]
  info1 := by simp [MiRecord.cleared]
  info2 := by simp [MiRecord.cleared]
  info3 := by simp [MiRecord.cleared]
  info4 := by simp [MiRecord.cleared]
  padded := by
    have h (n : Nat) : paddedText (List.replicate n 0#8) = true := by
      have := paddedText_fieldBytes n [] rfl
      rwa [fieldBytes, List.take_nil, List.nil_append] at this
    simp [MiRecord.cleared, h]
  unpublished := fun _ => rfl
  winner := fun h => by simp [MiRecord.cleared] at h

/-- A published record is well formed when its decoder is registered and its texts are legal (R300, R301). -/
theorem State.publish_mi_wf (s : State) (k : Nat) (m : MessageInfo) (hk : k < s.cfg.decoders.length)
    (hd : s.cfg.decoders.length ≤ 2 ^ 31) (hm : m.textsLegal = true) : (s.publish k m).mi.Wf s.cfg where
  name := fieldBytes_length ..
  raw := fieldBytes_length ..
  info1 := fieldBytes_length ..
  info2 := fieldBytes_length ..
  info3 := fieldBytes_length ..
  info4 := fieldBytes_length ..
  padded := by
    simp only [MessageInfo.textsLegal, List.all_append, Bool.and_eq_true] at hm
    obtain ⟨⟨⟨⟨⟨h1, h2⟩, h3⟩, h4⟩, h5⟩, h6⟩ := hm
    simp [State.publish, paddedText_fieldBytes _ _ h1, paddedText_fieldBytes _ _ h2,
      paddedText_fieldBytes _ _ h3, paddedText_fieldBytes _ _ h4, paddedText_fieldBytes _ _ h5,
      paddedText_fieldBytes _ _ h6]
  unpublished := fun h => by simp [State.publish] at h
  winner := fun _ => by
    simp only [State.publish, BitVec.toNat_ofNat]
    rw [Nat.mod_eq_of_lt (by omega)]
    exact hk

/-- The memory right after reset has the canonical form (R45). -/
theorem State.reset_memory_wf (b : BufIx) : Memory.wf (State.reset.buf b).data := by
  have : (State.reset.buf b).data = [] := by simp [State.buf, State.reset, State.afterReset]
  rw [this]
  exact Memory.wf_nil

/-- The ring's one update keeps its canonical form and its bound (R272). -/
theorem State.produce_ring_wf {s : State} {level : Bool} {duration : Word} (h : ringWf s.ring) :
    ringWf (s.produce level duration).ring := sparseWrite_wf h

theorem State.produce_ring_bounded {s : State} {level : Bool} {duration : Word}
    (h : ∀ c ∈ s.ring, c.1 < s.cfg.ringSize) (hs : 1 ≤ s.cfg.ringSize) :
    ∀ c ∈ (s.produce level duration).ring, c.1 < s.cfg.ringSize :=
  sparseWrite_bounded h (Nat.mod_lt _ (by omega))

/-- The invariant looks at a state through these parts only. -/
theorem State.Inv.congr {s t : State} (h : s.Inv) (hcfg : t.cfg = s.cfg)
    (hbufs : ∀ b : BufIx, (t.buf b).Wf (s.cap b)) (hpats : ∀ k : PatIx, (t.pats[k]).plen ≤ 32)
    (hstatus : statusLegal t.status = true) (hmi : t.mi.Wf s.cfg) (hscan : ScannerWf t)
    (hring : t.ring = s.ring) : t.Inv where
  cfg := by rw [hcfg]; exact h.cfg
  bufs := fun b => by rw [State.cap, hcfg]; exact hbufs b
  pats := hpats
  status := hstatus
  mi := by rw [hcfg]; exact hmi
  scanner := hscan
  ringCanonical := by rw [hring]; exact h.ringCanonical
  ringBounded := by rw [hring, hcfg]; exact h.ringBounded

/-- A detected signal as SCAN takes it is well formed (R278, R281). -/
theorem ScannerWf.of_run {t : State} (h : t.scanBest ≠ 0#32) (hmin : t.cfg.minRun ≤ t.scanBest.toNat)
    (hmax : t.scanBest.toNat ≤ t.cfg.maxRun) (hring : t.scanBest.toNat ≤ t.cfg.ringSize)
    (hunit : t.cfg.durMin ≤ t.sigUnit.toNat) : ScannerWf t :=
  ⟨fun h0 => absurd h0 h, fun _ => hmin, ⟨hmax, hring⟩, fun _ => hunit⟩

/-- The scanner registers with no run held are well formed (R45, R285). -/
theorem ScannerWf.of_empty {t : State} (h : t.scanBest = 0#32) (h1 : t.sigReady = false)
    (h2 : t.sigStart = 0#32) (h3 : t.sigUnit = 0#32) : ScannerWf t :=
  ⟨fun _ => ⟨h1, h2, h3⟩, fun h0 => absurd h h0, by simp [h], fun h0 => absurd h h0⟩

end Sys2Proof.Machine
end

