-- ==== Sys2Proof/Laws/PerInstr.lean ====
section
/-! SUPPORT. The families of statements made once for each command. -/

namespace Sys2Proof.Laws

/-- The command's word is a legal command word (R112, R118). -/
def EncodeLegal.Statement (i : Instr) : Prop := legal (encode i) = true

theorem EncodeLegal.nop : EncodeLegal.Statement (.nop) :=
  legal_encodeFields (by simp [Opcode.uses]) (by simp [Opcode.uses]) (by simp [Opcode.uses]) (by simp [Opcode.uses])

theorem EncodeLegal.getbit (ba : BufIx) : EncodeLegal.Statement (.getbit ba) :=
  legal_encodeFields (by simp [Opcode.uses]) (by simp [Opcode.uses]) (by simp [Opcode.uses]) (by simp [Opcode.uses])

theorem EncodeLegal.setbit (ba : BufIx) : EncodeLegal.Statement (.setbit ba) :=
  legal_encodeFields (by simp [Opcode.uses]) (by simp [Opcode.uses]) (by simp [Opcode.uses]) (by simp [Opcode.uses])

theorem EncodeLegal.fill (ba : BufIx) (pa : PatIx) : EncodeLegal.Statement (.fill ba pa) :=
  legal_encodeFields (by simp [Opcode.uses]) (by simp [Opcode.uses]) (by simp [Opcode.uses]) (by simp [Opcode.uses])

theorem EncodeLegal.revb (ba : BufIx) : EncodeLegal.Statement (.revb ba) :=
  legal_encodeFields (by simp [Opcode.uses]) (by simp [Opcode.uses]) (by simp [Opcode.uses]) (by simp [Opcode.uses])

theorem EncodeLegal.setlen (ba : BufIx) : EncodeLegal.Statement (.setlen ba) :=
  legal_encodeFields (by simp [Opcode.uses]) (by simp [Opcode.uses]) (by simp [Opcode.uses]) (by simp [Opcode.uses])

theorem EncodeLegal.rdbyte (ba : BufIx) : EncodeLegal.Statement (.rdbyte ba) :=
  legal_encodeFields (by simp [Opcode.uses]) (by simp [Opcode.uses]) (by simp [Opcode.uses]) (by simp [Opcode.uses])

theorem EncodeLegal.wrbyte (ba : BufIx) : EncodeLegal.Statement (.wrbyte ba) :=
  legal_encodeFields (by simp [Opcode.uses]) (by simp [Opcode.uses]) (by simp [Opcode.uses]) (by simp [Opcode.uses])

theorem EncodeLegal.matchp (ba : BufIx) (pa : PatIx) : EncodeLegal.Statement (.matchp ba pa) :=
  legal_encodeFields (by simp [Opcode.uses]) (by simp [Opcode.uses]) (by simp [Opcode.uses]) (by simp [Opcode.uses])

theorem EncodeLegal.seek (ba : BufIx) (pa : PatIx) : EncodeLegal.Statement (.seek ba pa) :=
  legal_encodeFields (by simp [Opcode.uses]) (by simp [Opcode.uses]) (by simp [Opcode.uses]) (by simp [Opcode.uses])

theorem EncodeLegal.lcdec (ba : BufIx) (bb : BufIx) (pa : PatIx) (pb : PatIx) : EncodeLegal.Statement (.lcdec ba bb pa pb) :=
  legal_encodeFields (by simp [Opcode.uses]) (by simp [Opcode.uses]) (by simp [Opcode.uses]) (by simp [Opcode.uses])

theorem EncodeLegal.dmdec (ba : BufIx) (bb : BufIx) : EncodeLegal.Statement (.dmdec ba bb) :=
  legal_encodeFields (by simp [Opcode.uses]) (by simp [Opcode.uses]) (by simp [Opcode.uses]) (by simp [Opcode.uses])

theorem EncodeLegal.crc8 (ba : BufIx) : EncodeLegal.Statement (.crc8 ba) :=
  legal_encodeFields (by simp [Opcode.uses]) (by simp [Opcode.uses]) (by simp [Opcode.uses]) (by simp [Opcode.uses])

theorem EncodeLegal.scan : EncodeLegal.Statement (.scan) :=
  legal_encodeFields (by simp [Opcode.uses]) (by simp [Opcode.uses]) (by simp [Opcode.uses]) (by simp [Opcode.uses])

theorem EncodeLegal.sreset : EncodeLegal.Statement (.sreset) :=
  legal_encodeFields (by simp [Opcode.uses]) (by simp [Opcode.uses]) (by simp [Opcode.uses]) (by simp [Opcode.uses])

theorem EncodeLegal.dispatch (ba : BufIx) : EncodeLegal.Statement (.dispatch ba) :=
  legal_encodeFields (by simp [Opcode.uses]) (by simp [Opcode.uses]) (by simp [Opcode.uses]) (by simp [Opcode.uses])

end Sys2Proof.Laws
end

