-- ==== Sys2Proof/Laws/Run.lean ====
section
/-! SUPPORT. Runs of several steps: the first step taken off, and two runs joined. -/

namespace Sys2Proof.Machine

/-- A run whose first step answers `t` goes on from `t`. -/
theorem core_run_succ {k : Nat} {s t : State} (h : step s = .next t) :
    Sys2Proof.core.run (k + 1) s = Sys2Proof.core.run k t := by
  have h' : Sys2Proof.core.step s = .next t := h
  simp only [Host.Core.run, h']

/-- A run of `a` steps to `t` and then a run from `t` make one run. -/
theorem core_run_add (a b : Nat) (s t : State) (h : Sys2Proof.core.run a s = .next t) :
    Sys2Proof.core.run (a + b) s = Sys2Proof.core.run b t := by
  induction a generalizing s with
  | zero => rw [Nat.zero_add]; cases h; rfl
  | succ a ih =>
    rw [Nat.add_right_comm]
    cases hs : step s with
    | next u => rw [core_run_succ hs] at h ⊢; exact ih u h
    | fault r => cases r
    | refused r =>
      have h' : Sys2Proof.core.step s = .refused r := hs
      simp only [Host.Core.run, h'] at h
      cases h

end Sys2Proof.Machine
end

