-- ==== Sys2Proof/Laws/Step.lean ====
section
/-! SUPPORT. What a step can do, said once (R140, R141, R351): the inversion lemmas that later proofs cite
instead of unfolding the step. -/

namespace Sys2Proof.Machine

/-- A step with a next state: the machine is idle, or the environment's next event ran. -/
theorem step_next {s t : State} (h : step s = .next t) :
    (s.pending = [] ∧ t = s) ∨
    ∃ (e : Event) (rest : List Event), s.pending = e :: rest ∧
      runEvent e { s with pending := rest } = .next t := by
  simp only [step, runNext] at h
  split at h
  · rename_i hp
    exact .inl ⟨hp, (Host.Outcome.next.inj h).symm⟩
  · rename_i e rest hp
    exact .inr ⟨e, rest, hp, h⟩

/-- An event with a next state: what each of the four kinds does. -/
theorem runEvent_next {e : Event} {s t : State} (h : runEvent e s = .next t) :
    (∃ w o, e = .hostRead w o ∧ t = { s with readData := some (hostReadReg (hostReg s.cfg o) s) }) ∨
    (∃ w o v, e = .hostWrite w o v ∧ hostReg s.cfg o = .cmd ∧ issue v s = .next t) ∨
    (∃ w o v, e = .hostWrite w o v ∧ t = hostWriteReg (hostReg s.cfg o) v s) ∨
    (∃ l d, e = .produce l d ∧ t = s.produce l d) ∨
    (e = .reset ∧ t = s.coreReset) := by
  cases e with
  | hostRead w o =>
    simp only [runEvent, hostRead] at h
    split at h
    · exact .inl ⟨w, o, rfl, (Host.Outcome.next.inj h).symm⟩
    · simp at h
  | hostWrite w o v =>
    simp only [runEvent, hostWrite] at h
    split at h
    · split at h
      · exact .inr (.inl ⟨w, o, v, rfl, by assumption, h⟩)
      · exact .inr (.inr (.inl ⟨w, o, v, rfl, (Host.Outcome.next.inj h).symm⟩))
    · simp at h
  | produce l d => exact .inr (.inr (.inr (.inl ⟨l, d, rfl, (Host.Outcome.next.inj h).symm⟩)))
  | publishUnwritten => simp [runEvent] at h
  | reset => exact .inr (.inr (.inr (.inr ⟨rfl, (Host.Outcome.next.inj h).symm⟩)))

/-- A write to CMD: the decoded command runs, or the word is illegal (R141). -/
theorem issue_next {w : Word} {s t : State} (h : issue w s = .next t) :
    (∃ i, decode w = .ok i ∧ exec i s = .next t) ∨ (legal w = false ∧ t = s.raised .illegal) := by
  simp only [issue] at h
  split at h
  · exact .inl ⟨_, by assumption, h⟩
  · rename_i e he
    exact .inr ⟨legal_false_iff.2 ⟨e, he⟩, (Host.Outcome.next.inj h).symm⟩

/-- A write to a register other than CMD: the register there changes, or nothing does (R87, R89). -/
theorem hostWriteReg_cases (r : HostReg) (v : Word) (s : State) :
    (∃ k, r = .arg k ∧ hostWriteReg r v s = s.setArg k v) ∨
    (r = .dmprev ∧ hostWriteReg r v s = s.setDmprev (v.getLsbD 0)) ∨
    (∃ k, r = .patBits k ∧ hostWriteReg r v s = s.setPat k { s.pats[k] with bits := v }) ∨
    (∃ k, r = .patLen k ∧ hostWriteReg r v s = s.setPat k ((s.pats[k]).setLen v)) ∨
    ((∀ k, r ≠ .arg k) ∧ r ≠ .dmprev ∧ (∀ k, r ≠ .patBits k) ∧ (∀ k, r ≠ .patLen k) ∧
      hostWriteReg r v s = s) := by
  cases r <;> simp [hostWriteReg, State.setDmprev]

end Sys2Proof.Machine
end

