-- ==== Sys2Proof/Tests/Slice0.lean ====
section
/-! SUPPORT. Tests. The expected results are the spec's own: the vectors V0.1 to V8.5 of
95_test_vectors.md and the examples of the rules, named at each test. The `witness_` theorems show, for
each statement of Obligations.lean that has hypotheses, a state and operands that meet them. -/

namespace Sys2Proof.Tests

open Sys2Proof Sys2Proof.Machine

-- A hundred kernel evaluations waiting for each other would hold a thread and its stack each.
set_option Elab.async false

/-! ### Decoding: every word written out from R114 -/

/-- V0.1, V0.6, V0.10, V0.12, V0.15, V0.17, V0.19, and the command words of programs P1 and P3. -/
theorem test_decode_every_constructor :
    decode 0x00000000#32 = .ok .nop ∧
    decode 0x00000310#32 = .ok (.getbit 3) ∧
    decode 0x00000111#32 = .ok (.setbit 1) ∧
    decode 0x00007312#32 = .ok (.fill 3 7) ∧
    decode 0x00000113#32 = .ok (.revb 1) ∧
    decode 0x00000214#32 = .ok (.setlen 2) ∧
    decode 0x00000115#32 = .ok (.rdbyte 1) ∧
    decode 0x00000216#32 = .ok (.wrbyte 2) ∧
    decode 0x00002120#32 = .ok (.matchp 1 2) ∧
    decode 0x00003021#32 = .ok (.seek 0 3) ∧
    decode 0x00008E30#32 = .ok (.lcdec 2 3 0 1) ∧
    decode 0x00000440#32 = .ok (.dmdec 0 1) ∧
    decode 0x00000150#32 = .ok (.crc8 1) ∧
    decode 0x00000060#32 = .ok .scan ∧
    decode 0x00000061#32 = .ok .sreset ∧
    decode 0x00000270#32 = .ok (.dispatch 2) := by decide

/-- The bits of LCDEC b1, b2, p3, p4 written out field by field (R110): RSVD 0, PB 100, PA 011, BB 10,
BA 01, OP 0011 0000. -/
theorem test_decode_lcdec_bit_by_bit :
    decode 0b00000000000000_100_011_10_01_00110000#32 = .ok (.lcdec 1 2 3 4) := by decide

/-- R112 (a): reserved opcodes (V0.3 to V0.5). -/
theorem test_decode_refuses_reserved_opcodes :
    decode 0x00000001#32 = .error (.reservedOpcode 0x01#8) ∧
    decode 0x00000117#32 = .error (.reservedOpcode 0x17#8) ∧
    decode 0x000000FF#32 = .error (.reservedOpcode 0xFF#8) := by decide

/-- R112 (b): RSVD is not 0 (V0.8, V0.9, V0.14). -/
theorem test_decode_refuses_reserved_bits :
    decode 0x00040010#32 = .error (.reservedBits 1#14) ∧
    decode 0x80000000#32 = .error (.reservedBits 0x2000#14) ∧
    decode 0x00040030#32 = .error (.reservedBits 1#14) := by decide

/-- R112 (c): an unused field is not 0 (V0.2, V0.7, V0.11, V0.16, V0.18). -/
theorem test_decode_refuses_unused_fields :
    decode 0x00000100#32 = .error (.unusedField .nop) ∧
    decode 0x00001010#32 = .error (.unusedField .getbit) ∧
    decode 0x0000F312#32 = .error (.unusedField .fill) ∧
    decode 0x00001040#32 = .error (.unusedField .dmdec) ∧
    decode 0x00000160#32 = .error (.unusedField .scan) := by decide

/-- A table row's word with its bits above the row's width 0; a longer word is no command. -/
theorem test_decode_table_word :
    decodeTableWord 32 0x00000310 = some (.getbit 3) ∧ decodeTableWord 32 0x00000117 = none ∧
    decodeTableWord 8 0x60 = some .scan ∧ decodeTableWord 64 0x100000060 = none := by decide

/-- The assembler text of the spec's examples (R118). -/
theorem test_asm : (Instr.lcdec 2 3 0 1).asm = "LCDEC b2, b3, p0, p1" ∧ Instr.scan.asm = "SCAN" := by
  decide +kernel

/-! ### Well-formedness: each check refuses an ill-formed term -/

theorem test_operand_checks : bufOk 3 = true ∧ bufOk 4 = false ∧ patOk 7 = true ∧ patOk 8 = false := by
  decide

theorem test_config_tc_wf : Config.tc.wf = true := by decide +kernel

theorem test_config_refuses_capacity_zero : { Config.tc with capBytes := #v[32, 0, 16, 16] }.wf = false := by
  decide +kernel
theorem test_config_refuses_large_capacity :
    { Config.tc with capBytes := #v[32, 16, 16, 2 ^ 28 + 1] }.wf = false := by decide +kernel
theorem test_config_refuses_ring_size : { Config.tc with ringSize := 3 }.wf = false := by decide +kernel
theorem test_config_refuses_nclass : { Config.tc with nclass := 0 }.wf = false := by decide +kernel
theorem test_config_refuses_tol_div : { Config.tc with tolDiv := 0 }.wf = false := by decide +kernel
theorem test_config_refuses_dur_min : { Config.tc with durMin := 0 }.wf = false := by decide +kernel
theorem test_config_refuses_dur_max : { Config.tc with durMin := 5, durMax := 4 }.wf = false := by
  decide +kernel
theorem test_config_refuses_min_run : { Config.tc with minRun := 0 }.wf = false := by decide +kernel
theorem test_config_refuses_max_run : { Config.tc with maxRun := 0 }.wf = false := by decide +kernel
theorem test_config_refuses_decoder_count (ds : List DecoderEntry) (h : ds.length = 2 ^ 31 + 1) :
    { Config.tc with decoders := ds }.wf = false := by
  have hn : decide (ds.length ≤ 2 ^ 31) = false := by rw [h]; decide
  simp only [Config.wf, hn, Bool.and_false, Bool.false_and]
theorem test_config_refuses_name_max : { Config.tc with nameMax := 1025 }.wf = false := by decide +kernel
theorem test_config_refuses_raw_max : { Config.tc with rawMax := 0 }.wf = false := by decide +kernel
theorem test_config_refuses_info_max : { Config.tc with infoMax := 257 }.wf = false := by decide +kernel

/-! ### Small states -/

/-- A state with ARG0 to ARG3. -/
def withArgs (s : State) (a0 a1 a2 a3 : Word) : State := { s with args := #v[a0, a1, a2, a3] }

/-- A state with PATk holding a literal. -/
def withPat (s : State) (k : PatIx) (l : List Nat) : State :=
  s.setPat k ⟨BitVec.ofNat 32 (literalNat (bits l)), BitVec.ofNat 6 l.length⟩

/-- A state with the bytes and numbits of a buffer. -/
def withBytes (s : State) (b : BufIx) (l : List Nat) (n : Nat) : State :=
  s.setBuf b ⟨sparseOfFn 0#8 (fun j => BitVec.ofNat 8 (l.getD j 0)) l.length, BitVec.ofNat 32 n⟩

/-- A state after the producer has written pulses. -/
def withPulses (s : State) (ps : List (Bool × Nat)) : State :=
  ps.foldl (fun t p => t.produce p.1 (BitVec.ofNat 32 p.2)) s

/-- The first `n` bit positions of a buffer. -/
def firstBits (s : State) (b : BufIx) (n : Nat) : List Bool := (List.range n).map (s.readBit b)

/-- The first `n` bytes of a buffer, as numbers. -/
def firstBytes (s : State) (b : BufIx) (n : Nat) : List Nat :=
  (List.range n).map (fun j => (s.readByte b j).toNat)

/-- The answer is a next state of which `p` holds. -/
def answers (o : Answer) (p : State → Bool) : Bool :=
  match o with
  | .next t => p t
  | .fault _ => false
  | .refused _ => false

/-- The answer is OUT_OF_BOUNDS with FAULT and everything else as it was. -/
def raisesOutOfBounds (o : Answer) (s : State) : Bool :=
  answers o (fun t => decide (t = { s with status := 0x00000101#32 }))

/-! ### One step each -/

/-- V8.1. -/
theorem test_nop_keeps_fault :
    answers (exec .nop { State.reset with status := 0x00000102#32 })
      (fun t => t.status == 0x00000100#32) = true := by decide +kernel

/-- V1.3 and V1.4: BUF1 byte 0 = 0xA0. -/
theorem test_getbit_msb_first :
    answers (exec (.getbit 1) (withArgs (withBytes State.reset 1 [0xA0] 0) 2 0 0 0)) (fun t => t.res == 1#32) ∧
    answers (exec (.getbit 1) (withArgs (withBytes State.reset 1 [0xA0] 0) 7 0 0 0)) (fun t => t.res == 0#32) := by
  decide +kernel

/-- V1.5, V1.6, V1.7: capacity, not numbits, is the bound. -/
theorem test_getbit_bounds :
    answers (exec (.getbit 1) (withArgs State.reset 127 0 0 0)) (fun t => t.status == 0#32) ∧
    raisesOutOfBounds (exec (.getbit 1) (withArgs State.reset 128 0 0 0)) (withArgs State.reset 128 0 0 0) ∧
    raisesOutOfBounds (exec (.getbit 1) (withArgs State.reset 0xFFFFFFFF#32 0 0 0))
      (withArgs State.reset 0xFFFFFFFF#32 0 0 0) := by
  decide +kernel

/-- V1.8, V1.9, V1.10: only bit 0 of ARG1 counts. -/
theorem test_setbit :
    answers (exec (.setbit 1) (withArgs State.reset 7 1 0 0)) (fun t => t.readByte 1 0 == 0x01#8) ∧
    answers (exec (.setbit 1) (withArgs State.reset 127 3 0 0)) (fun t => t.readByte 1 15 == 0x01#8) ∧
    answers (exec (.setbit 1) (withArgs (withBytes State.reset 1 [0x01] 0) 0 2 0 0))
      (fun t => t.readByte 1 0 == 0x01#8) := by decide +kernel

/-- V1.11. -/
theorem test_setbit_bounds :
    raisesOutOfBounds (exec (.setbit 1) (withArgs State.reset 128 1 0 0)) (withArgs State.reset 128 1 0 0) := by
  decide +kernel

/-- V1.19: "01101" over 20 positions. -/
theorem test_fill_repeats :
    answers (exec (.fill 1 2) (withArgs (withPat State.reset 2 [0, 1, 1, 0, 1]) 20 0 0 0))
      (fun t => t.res == 20#32 && firstBytes t 1 4 == [0x6B, 0x5A, 0xD0, 0x00] && t.numbits 1 == 0) := by
  decide +kernel

/-- V1.15 and V1.20: the empty pattern writes nothing, a long fill is truncated. -/
theorem test_fill_corners :
    answers (exec (.fill 1 2) (withArgs State.reset 100 0 0 0)) (fun t => t.res == 0#32) ∧
    answers (exec (.fill 1 2) (withArgs (withPat State.reset 2 [1, 1, 0]) 130 0 0 0))
      (fun t => t.res == 128#32 && firstBytes t 1 4 == [0xDB, 0x6D, 0xB6, 0xDB] && t.status == 0#32) := by
  decide +kernel

/-- V1.21: BUF1 bytes 01 02 … 10. -/
theorem test_revb :
    answers (exec (.revb 1) (withBytes State.reset 1 (List.range' 1 16) 5))
      (fun t => firstBytes t 1 16 == (List.range' 1 16).reverse && t.numbits 1 == 5) := by decide +kernel

/-- V1.24, V1.25. -/
theorem test_setlen :
    answers (exec (.setlen 1) (withArgs (withBytes State.reset 1 [] 5) 128 0 0 0))
      (fun t => t.numbits 1 == 128) ∧
    raisesOutOfBounds (exec (.setlen 1) (withArgs (withBytes State.reset 1 [] 5) 129 0 0 0))
      (withArgs (withBytes State.reset 1 [] 5) 129 0 0 0) := by decide +kernel

/-- V1.28. -/
theorem test_rdbyte :
    answers (exec (.rdbyte 1) (withArgs (withBytes State.reset 1 [0, 0, 0, 0x9C] 0) 3 0 0 0))
      (fun t => t.res == 0x9C#32) := by decide +kernel

/-- V1.31 to V1.33. -/
theorem test_rdbyte_bounds :
    raisesOutOfBounds (exec (.rdbyte 1) { withArgs State.reset 16 0 0 0 with res := 0x1234#32 })
      { withArgs State.reset 16 0 0 0 with res := 0x1234#32 } ∧
    answers (exec (.rdbyte 0) (withArgs State.reset 31 0 0 0)) (fun t => t.status == 0#32) ∧
    raisesOutOfBounds (exec (.rdbyte 0) (withArgs State.reset 32 0 0 0)) (withArgs State.reset 32 0 0 0) := by
  decide +kernel

/-- V1.29, V1.30. -/
theorem test_wrbyte :
    answers (exec (.wrbyte 1) (withArgs State.reset 15 0x1FF 0 0)) (fun t => t.readByte 1 15 == 0xFF#8) ∧
    raisesOutOfBounds (exec (.wrbyte 1) (withArgs State.reset 16 1 0 0)) (withArgs State.reset 16 1 0 0) := by
  decide +kernel

/-- BUF0 of section 2.2, "1010001111000", with PAT3 = "00111100". -/
def searchState (a0 a1 : Word) : State :=
  withArgs (withPat (withBytes State.reset 0 [0xA3, 0xC0] 13) 3 [0, 0, 1, 1, 1, 1, 0, 0]) a0 a1 0 0

/-- V2.1 to V2.4, V2.6. -/
theorem test_match :
    answers (exec (.matchp 0 3) (searchState 4 0)) (fun t => t.res == 1#32) ∧
    answers (exec (.matchp 0 3) (searchState 0 0)) (fun t => t.res == 0#32) ∧
    answers (exec (.matchp 0 3) (searchState 5 0)) (fun t => t.res == 0#32) ∧
    answers (exec (.matchp 0 3) (searchState 6 0)) (fun t => t.res == 0#32) ∧
    answers (exec (.matchp 0 3) (searchState 0xFFFFFFFF#32 0)) (fun t => t.res == 0#32 && t.status == 0#32) := by
  decide +kernel

/-- V2.7 to V2.9: the empty pattern. -/
theorem test_match_empty :
    answers (exec (.matchp 0 4) (searchState 13 0)) (fun t => t.res == 1#32) ∧
    answers (exec (.matchp 0 4) (searchState 14 0)) (fun t => t.res == 0#32) := by decide +kernel

/-- V2.10, V2.12, V2.13. -/
theorem test_seek :
    answers (exec (.seek 0 3) (searchState 0 13)) (fun t => t.res == 4#32 && t.status == 0#32) ∧
    answers (exec (.seek 0 3) (searchState 0 5)) (fun t => t.res == 4#32) ∧
    answers (exec (.seek 0 3) (searchState 0 4))
      (fun t => t.res == 0xFFFFFFFF#32 && t.status == 2#32) := by decide +kernel

/-- V2.15, V2.18, V2.19: the lowest of overlapping matches, and the empty pattern. -/
theorem test_seek_overlap_and_empty :
    answers (exec (.seek 0 3) (withPat (searchState 0 0xFFFFFFFF#32) 3 [0, 0, 0])) (fun t => t.res == 3#32) ∧
    answers (exec (.seek 0 4) (searchState 13 1)) (fun t => t.res == 13#32) ∧
    answers (exec (.seek 0 4) (searchState 14 5)) (fun t => t.status == 2#32) := by decide +kernel

/-- BUF2 of V3.1, "110100110110100", with PAT0 = "100" and PAT1 = "110". -/
def lineState : State :=
  withPat (withPat (withBytes State.reset 2 [0xD3, 0x68] 15) 0 [1, 0, 0]) 1 [1, 1, 0]

/-- V3.11: later destination positions keep their bits. -/
theorem test_lcdec :
    answers (exec (.lcdec 2 3 0 1) (withBytes lineState 3 [0xFF, 0xFF] 0))
      (fun t => t.res == 5#32 && t.numbits 3 == 5 && firstBytes t 3 2 == [0xB7, 0xFF]) := by decide +kernel

/-- V3.12 in place, V3.7 with an empty zero template. -/
theorem test_lcdec_in_place_and_empty :
    answers (exec (.lcdec 2 2 0 1) lineState)
      (fun t => t.res == 5#32 && t.numbits 2 == 5 && firstBits t 2 5 == bits [1, 0, 1, 1, 0]) ∧
    answers (exec (.lcdec 2 3 4 1) lineState) (fun t => t.res == 128#32 && firstBytes t 3 1 == [0]) := by
  decide +kernel

/-- BUF2 of V4.1, "00101100". -/
def manchesterState (off : Word) (pv : Bool) : State :=
  { withArgs (withBytes State.reset 2 [0x2C] 8) off 0 0 0 with dmprev := pv }

/-- V4.1, V4.3, V4.4. -/
theorem test_dmdec :
    answers (exec (.dmdec 2 3) (manchesterState 0 true))
      (fun t => t.res == 4#32 && t.numbits 3 == 4 && firstBits t 3 4 == bits [1, 0, 1, 1] && !t.dmprev) ∧
    answers (exec (.dmdec 2 3) (manchesterState 2 true)) (fun t => t.res == 0#32 && t.dmprev) ∧
    answers (exec (.dmdec 2 3) (manchesterState 2 false))
      (fun t => t.res == 3#32 && firstBits t 3 3 == bits [0, 1, 1] && !t.dmprev) := by decide +kernel

/-- V4.14 in place, V4.5 with one symbol left. -/
theorem test_dmdec_in_place_and_tail :
    answers (exec (.dmdec 2 2) (manchesterState 0 true))
      (fun t => t.res == 4#32 && t.numbits 2 == 4 && firstBits t 2 4 == bits [1, 0, 1, 1] && !t.dmprev) ∧
    answers (exec (.dmdec 2 3) (manchesterState 7 true)) (fun t => t.res == 0#32 && t.dmprev) := by
  decide +kernel

/-- BUF1 of section 2.5: "123456789". -/
def crcState (a0 a1 a2 a3 : Word) : State :=
  withArgs (withBytes State.reset 1 [0x31, 0x32, 0x33, 0x34, 0x35, 0x36, 0x37, 0x38, 0x39] 0) a0 a1 a2 a3

/-- V5.19, V5.20, V5.22. -/
theorem test_crc8 :
    answers (exec (.crc8 1) (crcState 0 9 0 7)) (fun t => t.res == 0xF4#32) ∧
    answers (exec (.crc8 1) (crcState 0 9 0x1FF 0x107)) (fun t => t.res == 0xFB#32) ∧
    answers (exec (.crc8 1) (crcState 16 0 0x33 7)) (fun t => t.res == 0x33#32) := by decide +kernel

/-- V5.21, V5.23, V5.25: the sum does not wrap. -/
theorem test_crc8_bounds :
    raisesOutOfBounds (exec (.crc8 1) (crcState 8 9 0 7)) (crcState 8 9 0 7) ∧
    raisesOutOfBounds (exec (.crc8 1) (crcState 17 0 0x33 7)) (crcState 17 0 0x33 7) ∧
    raisesOutOfBounds (exec (.crc8 1) (crcState 0xFFFFFFFF#32 1 0 7)) (crcState 0xFFFFFFFF#32 1 0 7) := by
  decide +kernel

/-- The pulses of V6.8. -/
def v68 : State :=
  withPulses State.reset [(true, 250), (false, 250), (true, 500), (false, 500), (false, 20000)]

/-- V6.2: one window, a run before and after an out-of-range pulse, a run open at the end. -/
theorem test_scan :
    answers (exec .scan (withPulses State.reset
        [(true, 30000), (true, 250), (false, 255), (true, 505), (false, 245), (true, 250), (false, 510),
         (true, 245), (false, 20000), (true, 240)]))
      (fun t => t.res == 1#32 && t.scanLast == 9#32 && t.scanBest == 7#32 && t.sigReady && t.sigStart == 1#32 &&
        t.sigUnit == 248#32 && t.numbits 0 == 9 && firstBytes t 0 2 == [0xB4, 0x80]) := by decide +kernel

/-- V6.24: logical indexes wrap. -/
theorem test_scan_wraps :
    answers (exec .scan (withPulses { State.reset with widx := 0xFFFFFFFD#32, scanLast := 0xFFFFFFFD#32 }
        [(true, 250), (false, 250), (true, 500), (false, 250), (true, 250), (false, 20000)]))
      (fun t => t.res == 1#32 && t.scanLast == 3#32 && t.scanBest == 5#32 && t.sigStart == 0xFFFFFFFD#32 &&
        t.sigUnit == 250#32 && t.numbits 0 == 6 && firstBytes t 0 1 == [0xB4]) := by decide +kernel

/-- V6.25. -/
theorem test_sreset :
    answers (exec .sreset { withBytes v68 0 [0xB0] 6 with
        res := 1#32, scanLast := 5#32, scanBest := 4#32, sigReady := true, sigUnit := 250#32 })
      (fun t => t.scanLast == 5#32 && t.scanBest == 0#32 && !t.sigReady && t.sigUnit == 0#32 &&
        t.numbits 0 == 0 && firstBytes t 0 1 == [0] && t.mi.dec == 0xFFFFFFFF#32 && t.res == 1#32) := by
  decide +kernel

/-- The stream of R318, `n` of its symbols valid. -/
def toyotaState (n : Nat) : State :=
  withBytes { State.reset with sigReady := true, scanBest := 4#32, sigUnit := 250#32 } 0
    [0xA3, 0xCB, 0x55, 0x34, 0xD4, 0xB2, 0xAB, 0x32, 0xD2, 0xAD, 0x33, 0x54, 0xAA, 0xB5, 0x33, 0x2B, 0x2B,
     0x33, 0x33, 0x00] n

/-- A text in a field of 32 characters. -/
def text32 (l : List Char) : List Byte := fieldBytes 32 (ascii l)

/-- V7.1, V7.16. -/
theorem test_dispatch_toyota :
    answers (exec (.dispatch 0) (toyotaState 154))
      (fun t => t.res == 0#32 && t.status == 0#32 && t.mi.valid && t.mi.dec == 0#32 && t.mi.bitlen == 154#32 &&
        t.mi.name == text32 "Toyota TPMS".toList && t.mi.raw == text32 "A1B2C3D45E209F33FF".toList &&
        t.mi.info1 == text32 [] && t.mi.info2 == text32 "Temperature 25 C".toList && !t.sigReady) := by
  decide +kernel

/-- V7.4: one symbol short; V7.17: another buffer keeps SIG_READY. -/
theorem test_dispatch_no_match :
    answers (exec (.dispatch 0) (toyotaState 153))
      (fun t => t.res == 0xFFFFFFFF#32 && t.status == 3#32 && t.mi == MiRecord.cleared t.cfg) ∧
    answers (exec (.dispatch 2) (toyotaState 154)) (fun t => t.status == 3#32 && t.sigReady) := by
  decide +kernel

/-! ### The functions -/

/-- V5.1, V5.5, V5.16. -/
theorem test_crc_function :
    crc8 [0x31, 0x32, 0x33, 0x34, 0x35, 0x36, 0x37, 0x38, 0x39] 0x00#8 0x07#8 = 0xF4#8 ∧
    crc8 [0x31, 0x32, 0x33, 0x34, 0x35, 0x36, 0x37, 0x38, 0x39] 0x80#8 0x07#8 = 0xC0#8 ∧
    crc8 [0xA1, 0xB2, 0xC3, 0xD4, 0x5E, 0x20, 0x9F, 0x33] 0x80#8 0x07#8 = 0xFF#8 := by decide +kernel

/-- The temperatures of V7.11, V7.12, V7.13 and V7.14. -/
theorem test_temperature_texts :
    toyotaInfo2 [0, 0, 0, 0, 0, 0x00, 0x00] = ascii "Temperature -40 C".toList ∧
    toyotaInfo2 [0, 0, 0, 0, 0, 0xFF, 0xFF] = ascii "Temperature 215 C".toList ∧
    toyotaInfo2 [0, 0, 0, 0, 0, 0x80, 0x7F] = ascii "Temperature -40 C".toList ∧
    toyotaInfo2 [0, 0, 0, 0, 0, 0x14, 0x80] = ascii "Temperature 1 C".toList := by decide +kernel

/-- The example of R34: the literal "0011" is PATBITS 0x0000000C. -/
theorem test_pattern_literal : literalNat (bits [0, 0, 1, 1]) = 0x0000000C := by decide

/-- V4.15: the encoder of R235. -/
theorem test_dm_encode :
    dmEncode false (bits [0, 0, 1, 1]) = bits [1, 0, 1, 0, 1, 1, 0, 0] := by decide

/-! ### The step -/

/-- A word placed by the host is the one the next step runs, and what a NOP leaves is as before. -/
theorem test_step_runs_the_placed_word :
    answers (step (State.reset.withFetchWord 32 0x00000117))
      (fun t => t.status == 0x00000104#32 && t.pending.isEmpty) ∧
    answers (step (State.reset.withFetchWord 32 0x00000000)) (fun t => decide (t = State.reset)) := by
  decide +kernel

/-- A host read of CAPBYTES0, of a reserved offset and of CMD (R87, R89, R140). -/
theorem test_host_reads :
    answers (step { State.reset with pending := [.hostRead 32 0x090] }) (fun t => t.readData == some 32#32) ∧
    answers (step { State.reset with pending := [.hostRead 32 0x00C] }) (fun t => t.readData == some 0#32) ∧
    answers (step { State.reset with pending := [.hostRead 32 0x000] }) (fun t => t.readData == some 0#32) := by
  decide +kernel

/-- A text's characters are 1 to 255, and a published field ends in 0x00 bytes only (R300, R301). -/
theorem test_text_checks :
    (MessageInfo.mk [0x54, 0xFF] [] [] [] [] [0x01] 0).textsLegal = true ∧
    (MessageInfo.mk [0x54, 0x00, 0x50] [] [] [] [] [] 0).textsLegal = false ∧
    paddedText [0x54, 0x00, 0x00] = true ∧ paddedText [0x54, 0x00, 0x50] = false := by decide

/-- PATLEN stores min(v, 32) (R34). -/
theorem test_patlen_saturates :
    answers (step { State.reset with pending := [.hostWrite 32 0x07C 40] }) (fun t => (t.pats[7]).plen == 32) := by
  decide +kernel

/-! ### Witnesses: states and operands that meet the hypotheses of each statement -/

/-- `State.Inv` as a Bool. -/
def invCheck (s : State) : Bool :=
  s.cfg.wf &&
  decide (∀ b : BufIx, Memory.wf (s.buf b).data ∧ (∀ c ∈ (s.buf b).data, c.1 < s.cap b) ∧
    (s.buf b).numbits.toNat ≤ 8 * s.cap b) &&
  decide (∀ k : PatIx, (s.pats[k]).plen ≤ 32) && statusLegal s.status &&
  decide (s.mi.name.length = s.cfg.nameMax ∧ s.mi.raw.length = s.cfg.rawMax ∧
    s.mi.info1.length = s.cfg.infoMax ∧ s.mi.info2.length = s.cfg.infoMax ∧
    s.mi.info3.length = s.cfg.infoMax ∧ s.mi.info4.length = s.cfg.infoMax ∧
    (∀ field ∈ [s.mi.name, s.mi.raw, s.mi.info1, s.mi.info2, s.mi.info3, s.mi.info4], paddedText field = true) ∧
    (s.mi.valid = false → s.mi = MiRecord.cleared s.cfg) ∧
    (s.mi.valid = true → s.mi.dec.toNat < s.cfg.decoders.length)) &&
  decide ((s.scanBest = 0#32 → s.sigReady = false ∧ s.sigStart = 0#32 ∧ s.sigUnit = 0#32) ∧
    (s.scanBest ≠ 0#32 → s.cfg.minRun ≤ s.scanBest.toNat) ∧
    (s.scanBest.toNat ≤ s.cfg.maxRun ∧ s.scanBest.toNat ≤ s.cfg.ringSize) ∧
    (s.scanBest ≠ 0#32 → s.cfg.durMin ≤ s.sigUnit.toNat)) &&
  decide (ringWf s.ring ∧ ∀ c ∈ s.ring, c.1 < s.cfg.ringSize)

theorem inv_of_check {s : State} (h : invCheck s = true) : s.Inv := by
  simp only [invCheck, Bool.and_eq_true, decide_eq_true_eq] at h
  obtain ⟨⟨⟨⟨⟨⟨h1, h2⟩, h3⟩, h4⟩, m1, m2, m3, m4, m5, m6, m7, m8, m9⟩, s1, s2, s3, s4⟩, h7, h8⟩ := h
  exact ⟨h1, fun b => ⟨(h2 b).1, (h2 b).2.1, (h2 b).2.2⟩, h3, h4, ⟨m1, m2, m3, m4, m5, m6, m7, m8, m9⟩,
    ⟨s1, s2, s3, s4⟩, h7, h8⟩

/-! #### Words and the step -/

theorem witness_EncodeOfDecode : decode 0x0003FF30#32 = .ok (.lcdec 3 3 7 7) := by decide

theorem witness_StrictDecodingIsTheMaskTest :
    legal 0x00000117#32 = false ∧ ⟨.scan, 0x00000060#32, 0xFFFFFFFF#32⟩ ∈ opcodeTable ∧
    0x00000060#32 &&& 0xFFFFFFFF#32 = 0x00000060#32 := by decide

theorem witness_OpcodeRowsNeverOverlap :
    ⟨.getbit, 0x00000010#32, 0xFFFFFCFF#32⟩ ∈ opcodeTable ∧
    0x00000310#32 &&& 0xFFFFFCFF#32 = 0x00000010#32 := by decide

theorem witness_StepRunsTheDecodedCommand :
    ({ State.reset with pending := [.hostWrite 32 0x000 0x00000310#32, .reset] } : State).pending =
      .hostWrite 32 0x000 0x00000310#32 :: [.reset] ∧
    decode 0x00000310#32 = .ok (.getbit 3) := ⟨rfl, by decide⟩

/-- One word for each of the three reasons (V0.4, V0.9, V0.16), and the state of the rule's example. -/
theorem witness_IllegalWordRaisesIllegal :
    (∀ o : Opcode, opField 0x00000117#32 ≠ o.code) ∧ rsvdField 0x80000000#32 ≠ 0 ∧
    (opField 0x00001040#32 = Opcode.dmdec.code ∧ Opcode.dmdec.uses.pa = false ∧ paField 0x00001040#32 ≠ 0) ∧
    State.reset.status = 0#32 := by
  refine ⟨?_, by decide, by decide, rfl⟩
  intro o; cases o <;> decide

/-- Both sides: an environment in contract, and the first offset outside it. -/
theorem witness_OnlyBrokenContractsAreRefused :
    ([Event.hostRead 32 0x3FFC].head?.all Event.inContract = true) ∧
    ([Event.hostRead 32 0x4000].head?.all Event.inContract = false) ∧
    ([Event.publishUnwritten].head?.all Event.inContract = false) := by decide

theorem witness_StepKeepsInvariant :
    State.Inv { State.reset with pending := [.produce true 250] } ∧
    ∃ t, step { State.reset with pending := [.produce true 250] } = .next t :=
  ⟨inv_of_check (by decide +kernel), _, rfl⟩

theorem witness_ConfigurationIsNeverWritten : ∃ t, step (State.reset.withFetchWord 32 0x60) = .next t :=
  ⟨_, rfl⟩

/-- The three clauses: FAULT set before a command, the reset input, and a command that sets FAULT. -/
theorem witness_FaultIsStickyUntilReset :
    answers (step { State.reset with status := 0x00000102#32, pending := [.hostWrite 32 0x000 0#32] })
      (fun t => statusFault t.status) ∧
    answers (step { State.reset with status := 0x00000102#32, pending := [.reset] })
      (fun t => !statusFault t.status) ∧
    answers (step { withArgs State.reset 128 0 0 0 with pending := [.hostWrite 32 0x000 0x110#32] })
      (fun t => statusFault t.status && statusErr t.status == 1#4) := by decide +kernel

theorem witness_OutcomesAreThoseOfTheTable :
    answers (exec .nop State.reset) (fun t => statusErr t.status == 0#4) ∧ legal 0x00000100#32 = false ∧
    answers (issue 0x00000100#32 State.reset) (fun t => statusErr t.status == 4#4) := by decide +kernel

theorem witness_OutOfBoundsChangesOnlyStatus :
    answers (exec (.getbit 1) (withArgs State.reset 128 0 0 0))
      (fun t => statusErr t.status == Err.outOfBounds.code) = true := by decide +kernel

theorem witness_CommandsNeverWriteTheirOperands : ∃ t, exec (.fill 1 2) State.reset = .next t := ⟨_, rfl⟩

/-- Commands that meet each clause: SETBIT writes no RES, no DMPREV, no scanner register and no MI. -/
theorem witness_RegistersAreWrittenOnlyByTheirCommands :
    answers (exec (.setbit 1) State.reset) (fun _ => true) ∧
    Instr.opcode (.setbit 1) ∉
      [.getbit, .fill, .rdbyte, .matchp, .seek, .lcdec, .dmdec, .crc8, .scan, .dispatch] ∧
    Instr.opcode (.setbit 1) ≠ .dmdec ∧ Instr.setbit 1 ≠ .scan ∧ Instr.setbit 1 ≠ .sreset ∧
    Instr.setbit 1 ≠ .dispatch 0 ∧ Instr.opcode (.setbit 1) ≠ .dispatch := by decide +kernel

/-- A command that changes bytes, and one that changes numbits. -/
theorem witness_BuffersAreWrittenOnlyByTheirCommands :
    answers (exec (.wrbyte 1) (withArgs State.reset 15 1 0 0))
      (fun t => decide ((State.reset.buf 1).data ≠ (t.buf 1).data)) ∧
    answers (exec (.setlen 1) (withArgs State.reset 128 0 0 0))
      (fun t => decide ((State.reset.buf 1).numbits ≠ (t.buf 1).numbits)) := by decide +kernel

/-! #### NOP and the BitBuffer commands -/

theorem witness_NopOnlyClearsErr : ({ State.reset with status := 0x00000102#32 } : State).status = 0x00000102#32 :=
  rfl

/-- Each bound at its last value within. -/
theorem witness_GetbitRdbyteSetlenComplete :
    (withArgs State.reset 127 0 0 0).argNat 0 < (withArgs State.reset 127 0 0 0).capBits 1 ∧
    (withArgs State.reset 15 0 0 0).argNat 0 < (withArgs State.reset 15 0 0 0).cap 1 ∧
    (withArgs State.reset 128 0 0 0).argNat 0 ≤ (withArgs State.reset 128 0 0 0).capBits 1 := by decide +kernel

/-- Each bound at its first value outside. -/
theorem witness_OperandsOutOfBoundsRaise :
    (withArgs State.reset 128 0 0 0).capBits 1 ≤ (withArgs State.reset 128 0 0 0).argNat 0 ∧
    (withArgs State.reset 129 0 0 0).capBits 1 < (withArgs State.reset 129 0 0 0).argNat 0 ∧
    (withArgs State.reset 16 0 0 0).cap 1 ≤ (withArgs State.reset 16 0 0 0).argNat 0 ∧
    (withArgs State.reset 16 1 0 0).cap 1 <
      (withArgs State.reset 16 1 0 0).argNat 0 + (withArgs State.reset 16 1 0 0).argNat 1 := by decide +kernel

theorem witness_SetbitWritesOneBit :
    (withArgs State.reset 127 1 0 0).Inv ∧
    (withArgs State.reset 127 1 0 0).argNat 0 < (withArgs State.reset 127 1 0 0).capBits 1 :=
  ⟨inv_of_check (by decide +kernel), by decide +kernel⟩

/-- Both clauses: the last position within and the first beyond. -/
theorem witness_SetbitThenGetbitReturnsTheBit :
    ((withArgs State.reset 127 1 0 0).Inv ∧ (withArgs State.reset 127 1 0 0).argBit 1 = true ∧
      (withArgs State.reset 127 1 0 0).argNat 0 < (withArgs State.reset 127 1 0 0).capBits 1) ∧
    ((withArgs State.reset 128 0 0 0).Inv ∧ (withArgs State.reset 128 0 0 0).argBit 1 = false ∧
      (withArgs State.reset 128 0 0 0).capBits 1 ≤ (withArgs State.reset 128 0 0 0).argNat 0) :=
  ⟨⟨inv_of_check (by decide +kernel), by decide +kernel⟩, inv_of_check (by decide +kernel), by decide +kernel⟩

/-- A state with a pattern, an empty pattern and a buffer that is not all zero. -/
theorem witness_FillRepeatsThePattern :
    (withArgs (withPat (withBytes State.reset 1 [0xFF] 3) 2 [1, 1, 0]) 130 0 0 0).Inv ∧
    ((withArgs (withPat (withBytes State.reset 1 [0xFF] 3) 2 [1, 1, 0]) 130 0 0 0).pats[2]).plen = 3 :=
  ⟨inv_of_check (by decide +kernel), by decide +kernel⟩

theorem witness_RevbReversesTheByteOrder : (withBytes State.reset 1 (List.range' 1 16) 5).Inv :=
  inv_of_check (by decide +kernel)

theorem witness_WrbyteWritesOneByte :
    (withArgs State.reset 15 0x1FF 0 0).Inv ∧
    (withArgs State.reset 15 0x1FF 0 0).argNat 0 < (withArgs State.reset 15 0x1FF 0 0).cap 1 :=
  ⟨inv_of_check (by decide +kernel), by decide +kernel⟩

/-! #### PatternSearch and the decoders -/

/-- Both clauses: a match that ends inside numbits, and a position from which it would run past it. -/
theorem witness_MatchComparesWithinNumbits :
    (searchState 4 0).matchesAt 0 3 ((searchState 4 0).argNat 0) ∧
    ¬ (searchState 6 0).matchesAt 0 3 ((searchState 6 0).argNat 0) := by
  unfold State.matchesAt
  decide +kernel

/-- The first clause, found at the last position of the range: [0, 5) with the match at 4. -/
theorem witness_SeekFindsTheLowestMatch :
    (searchState 0 5).Inv ∧ (searchState 0 5).argNat 0 ≤ 4 ∧
    4 < (searchState 0 5).argNat 0 + (searchState 0 5).argNat 1 ∧ (searchState 0 5).matchesAt 0 3 4 ∧
    (∀ p, p < 4 → ¬ (searchState 0 5).matchesAt 0 3 p) := by
  refine ⟨inv_of_check (by decide +kernel), ?_⟩
  unfold State.matchesAt
  decide +kernel

/-- The second clause, the range one shorter: [0, 4). -/
theorem witness_SeekFindsTheLowestMatch_none :
    (searchState 0 4).Inv ∧ (searchState 0 4).argNat 0 + (searchState 0 4).argNat 1 = 4 ∧
    (∀ p, p < 4 → ¬ (searchState 0 4).matchesAt 0 3 p) := by
  refine ⟨inv_of_check (by decide +kernel), ?_⟩
  unfold State.matchesAt
  decide +kernel

/-- The clauses of R194: a position past numbits, a SEEK that finds and one that does not. -/
theorem witness_SearchLaws :
    (searchState 6 0).Inv ∧
    (searchState 6 0).numbits 0 < (searchState 6 0).argNat 0 + ((searchState 6 0).pats[3]).plen ∧
    answers (exec (.seek 0 3) (searchState 0 5)) (fun u => decide (u.res ≠ notFound)) ∧
    answers (exec (.seek 0 3) (searchState 0 4)) (fun u => decide (u.res = notFound)) :=
  ⟨inv_of_check (by decide +kernel), by decide +kernel⟩

theorem witness_LcdecFollowsTheLineCode : lineState.Inv := inv_of_check (by decide +kernel)

theorem witness_LcdecInPlaceEqualsSeparate :
    lineState.Inv ∧ (2 : BufIx) ≠ 3 ∧ lineState.cap 2 = lineState.cap 3 ∧ 1 ≤ (lineState.pats[0]).plen ∧
    1 ≤ (lineState.pats[1]).plen := ⟨inv_of_check (by decide +kernel), by decide +kernel⟩

/-- At the last offset that an empty template matches: ARG0 = numbits. -/
theorem witness_EmptyZeroTemplateFillsTheDestination :
    (withArgs lineState 15 0 0 0).Inv ∧ ((withArgs lineState 15 0 0 0).pats[4]).plen = 0 ∧
    (withArgs lineState 15 0 0 0).argNat 0 ≤ (withArgs lineState 15 0 0 0).numbits 2 :=
  ⟨inv_of_check (by decide +kernel), by decide +kernel⟩

/-- V3.1: the data 1, 0, 1, 1, 0 encodes to the fifteen symbols of BUF2 (condition (c), first case). -/
theorem witness_LineCodeRoundTrip :
    lineState.Inv ∧ 1 ≤ (lineState.pats[0]).plen ∧ 1 ≤ (lineState.pats[1]).plen ∧
    ¬ (lineState.patElems 0 <+: lineState.patElems 1) ∧ ¬ (lineState.patElems 1 <+: lineState.patElems 0) ∧
    (lcEncode (lineState.patElems 0) (lineState.patElems 1) (bits [1, 0, 1, 1, 0])).length = 15 ∧
    (∀ k, k < 15 → (lcEncode (lineState.patElems 0) (lineState.patElems 1) (bits [1, 0, 1, 1, 0]))[k]? =
      some (lineState.readBit 2 (lineState.argNat 0 + k))) ∧
    lineState.numbits 2 = lineState.argNat 0 + 15 ∧ (bits [1, 0, 1, 1, 0]).length ≤ lineState.capBits 3 :=
  ⟨inv_of_check (by decide +kernel), by decide +kernel⟩

/-- The second case of condition (c): three data bits, after which "000" matches neither template. -/
theorem witness_LineCodeRoundTrip_tail :
    (withBytes lineState 2 [0xD0, 0x00] 9).Inv ∧
    (lcEncode (lineState.patElems 0) (lineState.patElems 1) (bits [1, 0])).length = 6 ∧
    (∀ k, k < 6 → (lcEncode (lineState.patElems 0) (lineState.patElems 1) (bits [1, 0]))[k]? =
      some ((withBytes lineState 2 [0xD0, 0x00] 9).readBit 2 k)) ∧
    6 ≤ (withBytes lineState 2 [0xD0, 0x00] 9).numbits 2 ∧
    ¬ (withBytes lineState 2 [0xD0, 0x00] 9).matchesAt 2 0 6 ∧
    ¬ (withBytes lineState 2 [0xD0, 0x00] 9).matchesAt 2 1 6 := by
  refine ⟨inv_of_check (by decide +kernel), ?_⟩
  unfold State.matchesAt
  decide +kernel

theorem witness_DmdecFollowsTheTable : (manchesterState 0 true).Inv := inv_of_check (by decide +kernel)

/-- V4.1: the data 1, 0, 1, 1 from level 1 encodes to "00101100". -/
theorem witness_DiffManchesterRoundTrip :
    (manchesterState 0 true).Inv ∧ (manchesterState 0 true).cfg.dmTable = DmTable.default ∧
    (bits [1, 0, 1, 1]).length ≤ (manchesterState 0 true).capBits 3 ∧
    (∀ k, k < 8 → (dmEncode (manchesterState 0 true).dmprev (bits [1, 0, 1, 1]))[k]? =
      some ((manchesterState 0 true).readBit 2 ((manchesterState 0 true).argNat 0 + k))) ∧
    (manchesterState 0 true).numbits 2 = (manchesterState 0 true).argNat 0 + 8 :=
  ⟨inv_of_check (by decide +kernel), by decide +kernel⟩

/-! #### CRC8 -/

/-- The last byte range within the capacity, and len = 0 at its end (V5.24, V5.22). -/
theorem witness_Crc8Completes :
    (crcState 0 16 0 7).argNat 0 + (crcState 0 16 0 7).argNat 1 ≤ (crcState 0 16 0 7).cap 1 ∧
    (crcState 16 0 0x33 7).argNat 0 + (crcState 16 0 0x33 7).argNat 1 ≤ (crcState 16 0 0x33 7).cap 1 ∧
    (crcState 16 0 0x33 7).argNat 1 = 0 := by decide +kernel

theorem witness_CrcChainsAndVanishesOnItself : ([0x31] : List Byte) ≠ [] := by decide

theorem witness_CrcDetectsEveryByteChange : (0x07#8).getLsbD 0 = true ∧ (0xF0#8) ≠ 0xF1#8 := by decide

/-! #### The scanner -/

theorem witness_ClassAverageStaysBetweenItsDurations :
    ([800, 899] : List Nat) ≠ [] ∧ (∀ d ∈ [800, 899], 800 ≤ d ∧ d ≤ 899) ∧ (TimingClass.mk 0 0).cnt = 0 := by
  decide

/-- V6.12's table after 800 and 900: 899 joins class 0 although class 1 would take it too, and the table that
results; 700 is accepted by neither, |700 - 800| * 8 being equal to the average, and opens the empty class. -/
theorem witness_RunEndsAtItsFirstBoundary_joins :
    joinRun Config.tc ⟨[], [⟨800, 1⟩, ⟨900, 1⟩, ⟨0, 0⟩]⟩ ⟨true, 899#32⟩ =
      some ⟨[], [⟨849, 2⟩, ⟨900, 1⟩, ⟨0, 0⟩]⟩ ∧
    joinRun Config.tc ⟨[], [⟨800, 1⟩, ⟨900, 1⟩, ⟨0, 0⟩]⟩ ⟨true, 700#32⟩ =
      some ⟨[], [⟨800, 1⟩, ⟨900, 1⟩, ⟨700, 1⟩]⟩ := by decide +kernel

/-- The three reasons to reject, each at its boundary: below DUR_MIN, above DUR_MAX, and full classes of which
none accepts; the last duration within DUR_MIN and DUR_MAX joins (V6.9, V6.10, V6.11). -/
theorem witness_RunEndsAtItsFirstBoundary_rejects :
    joinRun Config.tc (ClassTable.empty 3) ⟨true, 0#32⟩ = none ∧
    joinRun Config.tc (ClassTable.empty 3) ⟨true, 10001#32⟩ = none ∧
    joinRun Config.tc ⟨[], [⟨100, 1⟩, ⟨200, 1⟩, ⟨400, 1⟩]⟩ ⟨true, 800#32⟩ = none ∧
    (joinRun Config.tc (ClassTable.empty 3) ⟨true, 1#32⟩).isSome ∧
    (joinRun Config.tc (ClassTable.empty 3) ⟨true, 10000#32⟩).isSome := by decide +kernel

/-- A run of length 0 and a run with a pulse (V6.9, V6.8). -/
theorem witness_RunEndsAtItsFirstBoundary :
    (measureRun Config.tc (withPulses State.reset [(true, 0)]).ringAt 0#32 1).len = 0 ∧
    (measureRun Config.tc v68.ringAt 0#32 5).len = 4 := by decide +kernel

/-- A window that starts at SCAN_LAST. -/
theorem witness_ScanWindowHoldsOnlyLivePulses :
    v68.Inv ∧ (v68.widx - v68.scanLast).toNat ≤ v68.cfg.ringSize :=
  ⟨inv_of_check (by decide +kernel), by decide +kernel⟩

/-- Both clauses for positions: below the count and at it (V6.8: six bits). -/
theorem witness_ConversionSamplesTheLevels :
    (256 : Nat) < 2 ^ 32 ∧ min 256 (runSymbols v68.ringAt 0#32 ⟨4, 250⟩).length = 6 ∧
    runSymbols v68.ringAt 0#32 ⟨4, 250⟩ = bits [1, 0, 1, 1, 0, 0] := by decide +kernel

/-- V6.8: the walk's first run has four pulses and qualifies. -/
theorem witness_ScanHoldsTheLongestRun :
    v68.Inv ∧ v68.walkVisits 0 ∧ v68.walkQualifies 0 ∧ v68.cfg.minRun ≤ (v68.walkRun 0).len := by
  refine ⟨inv_of_check (by decide +kernel), ?_⟩
  unfold State.walkVisits State.walkQualifies
  decide +kernel

/-- V6.6: an empty window, in which the walk measures no run. -/
theorem witness_ScanHoldsTheLongestRun_none :
    State.reset.Inv ∧ ∀ k, ¬ State.reset.walkVisits k :=
  ⟨inv_of_check (by decide +kernel), fun _ h => absurd h (Nat.not_lt_zero _)⟩

/-- V6.20: the second run reaches the end of the window. -/
theorem witness_ScanHoldsTheLongestRun_open :
    (withPulses State.reset [(false, 20000), (true, 250), (false, 250), (true, 250)]).walkVisits 1 ∧
    (withPulses State.reset [(false, 20000), (true, 250), (false, 250), (true, 250)]).walkRunOpen 1 := by
  unfold State.walkVisits State.walkRunOpen
  decide +kernel

theorem witness_ScanIsIdempotent : v68.Inv ∧ ∃ t, exec .scan v68 = .next t :=
  ⟨inv_of_check (by decide +kernel), _, rfl⟩

theorem witness_ScanLeavesAtMostOneOpenRun : v68.Inv ∧ ∃ t, exec .scan v68 = .next t :=
  witness_ScanIsIdempotent

/-! #### The registry -/

/-- The clauses of R301 at the boundary: character 31 of 32, and the first one past a text of one. -/
theorem witness_PublishTruncatesAndPads : 31 < 32 ∧ 31 < (List.replicate 40 0x58#8).length ∧
    ([0x58#8] : List Byte).length ≤ 1 := by decide

/-- V7.1: the first decoder claims the buffer. -/
theorem witness_DispatchFirstMatchWins :
    (toyotaState 154).cfg.decoders[0]? = some ⟨"Toyota TPMS", .toyotaTpms⟩ ∧
    (runDecoder (toyotaState 154).cfg .toyotaTpms ((toyotaState 154).buf 0) ((toyotaState 154).cap 0)).isSome ∧
    (∀ (j : Nat) (e' : DecoderEntry), j < 0 → (toyotaState 154).cfg.decoders[j]? = some e' →
      runDecoder (toyotaState 154).cfg e'.fn ((toyotaState 154).buf 0) ((toyotaState 154).cap 0) = none) :=
  ⟨rfl, by decide +kernel, fun _ _ h => absurd h (Nat.not_lt_zero _)⟩

/-- V7.4: no decoder claims it. -/
theorem witness_DispatchFirstMatchWins_none :
    ∀ e ∈ (toyotaState 153).cfg.decoders,
      runDecoder (toyotaState 153).cfg e.fn ((toyotaState 153).buf 0) ((toyotaState 153).cap 0) = none := by
  intro e he
  rw [List.mem_singleton.mp he]
  decide +kernel

/-- Both outcomes of R305. -/
theorem witness_NoPartialPublication :
    answers (exec (.dispatch 0) (toyotaState 154)) (fun t => t.mi.valid) ∧
    answers (exec (.dispatch 0) (toyotaState 153)) (fun t => !t.mi.valid) := by decide +kernel

/-- The nine bytes of R318. -/
def toyotaRaw : List Byte := [0xA1, 0xB2, 0xC3, 0xD4, 0x5E, 0x20, 0x9F, 0x33, 0xFF]

/-- The frame of R318: S1 at position 4, the data from position 10 on. -/
theorem witness_ToyotaFrameIsDecoded :
    (toyotaState 154).Inv ∧ (toyotaState 154).cfg.dmTable = DmTable.default ∧
    (toyotaState 154).cfg.decoders = ⟨"Toyota TPMS", .toyotaTpms⟩ :: [] ∧
    toyotaSyncs[0]? = some (bits [0, 0, 1, 1, 1, 1, 0, 0]) ∧
    (∀ (j : Nat) (sync' : List Bool) (q : Nat), j < 0 → toyotaSyncs[j]? = some sync' →
      matchAt ((toyotaState 154).buf 0) q sync' = false) ∧
    matchAt ((toyotaState 154).buf 0) 4 (bits [0, 0, 1, 1, 1, 1, 0, 0]) = true ∧
    (∀ q, q < 4 → matchAt ((toyotaState 154).buf 0) q (bits [0, 0, 1, 1, 1, 1, 0, 0]) = false) ∧
    toyotaRaw.length = 9 ∧ crc8 (toyotaRaw.take 8) 0x80#8 0x07#8 = toyotaRaw.getD 8 0#8 ∧
    4 + 8 - 2 + 144 ≤ (toyotaState 154).numbits 0 ∧
    (∀ k, k < 144 → (dmEncode true (streamBits toyotaRaw))[k]? =
      some ((toyotaState 154).readBit 0 (4 + 8 - 2 + k))) :=
  ⟨inv_of_check (by decide +kernel), rfl, rfl, by decide +kernel,
    fun _ _ _ h => absurd h (Nat.not_lt_zero _), by decide +kernel⟩

theorem witness_ToyotaChecksumGate :
    (toyotaDecode DmTable.default ((toyotaState 154).buf 0)).isSome = true := by decide +kernel

/-! #### The host, the producer and reset -/

/-- Reads of the fields narrower than a word, over set and clear bits (R87: SCAN_STAT, PATLEN7, NUMBITS0,
MI_NAME[0]). -/
theorem test_host_read_fields :
    answers (step { toyotaState 154 with pending := [.hostRead 32 0x030] }) (fun t => t.readData == some 1#32) ∧
    answers (step { withPat State.reset 7 [0, 0, 1] with pending := [.hostRead 32 0x07C] })
      (fun t => t.readData == some 3#32) ∧
    answers (step { toyotaState 154 with pending := [.hostRead 32 0x080] }) (fun t => t.readData == some 154#32) ∧
    answers (step { State.reset.publish 0 ⟨ascii ['T'], [], [], [], [], [], 0⟩ with
      pending := [.hostRead 32 0x1000] }) (fun t => t.readData == some 0x54#32) := by decide +kernel

/-- One offset for each kind of register that the clauses name. -/
theorem witness_HostReadsHaveNoSideEffects_registers :
    hostReg Config.tc 0x004 = .status ∧ hostReg Config.tc 0x008 = .res ∧ hostReg Config.tc 0x01C = .arg 3 ∧
    hostReg Config.tc 0x020 = .dmprev ∧ hostReg Config.tc 0x024 = .widx ∧ hostReg Config.tc 0x028 = .scanLast ∧
    hostReg Config.tc 0x02C = .scanBest ∧ hostReg Config.tc 0x030 = .scanStat ∧
    hostReg Config.tc 0x034 = .sigStart ∧ hostReg Config.tc 0x038 = .sigUnit ∧
    hostReg Config.tc 0x078 = .patBits 7 ∧ hostReg Config.tc 0x07C = .patLen 7 ∧
    hostReg Config.tc 0x08C = .numbits 3 ∧ hostReg Config.tc 0x09C = .capBytes 3 ∧
    hostReg Config.tc 0x0A0 = .miStat ∧ hostReg Config.tc 0x0A4 = .miDec ∧ hostReg Config.tc 0x0A8 = .miBitlen ∧
    hostReg Config.tc 0x107C = .miName 31 ∧ hostReg Config.tc 0x207C = .miRaw 31 ∧
    hostReg Config.tc 0x307C = .miInfo 0 31 ∧ hostReg Config.tc 0x347C = .miInfo 1 31 ∧
    hostReg Config.tc 0x387C = .miInfo 2 31 ∧ hostReg Config.tc 0x3C7C = .miInfo 3 31 := by decide +kernel

/-- The last offset of the block, and CMD. -/
theorem witness_HostReadsHaveNoSideEffects :
    0x3FFC % 4 = 0 ∧ hostReg Config.tc 0x00C = .reserved ∧
    ({ State.reset with pending := [.hostRead 32 0x3FFC] } : State).pending = .hostRead 32 0x3FFC :: [] :=
  ⟨by decide, by decide +kernel, rfl⟩

/-- One offset for each clause, the last register of each bank. -/
theorem witness_HostWritesChangeOneRegister :
    hostReg Config.tc 0x01C = .arg 3 ∧ hostReg Config.tc 0x020 = .dmprev ∧
    hostReg Config.tc 0x078 = .patBits 7 ∧ hostReg Config.tc 0x07C = .patLen 7 ∧
    hostReg Config.tc 0x004 = .status ∧
    ({ State.reset with pending := [.hostWrite 32 0x07C 40] } : State).pending = .hostWrite 32 0x07C 40 :: [] :=
  ⟨by decide +kernel, by decide +kernel, by decide +kernel, by decide +kernel, by decide +kernel, rfl⟩

/-- One access for each of the three reasons, and the answers. -/
theorem witness_BadHostAccessesAreRefused :
    step { State.reset with pending := [.hostRead 16 0x004] } = .refused (.hostContract 16 0x004) ∧
    step { State.reset with pending := [.hostWrite 32 0x002 1] } = .refused (.hostContract 32 0x002) ∧
    step { State.reset with pending := [.hostRead 32 0x4000] } = .refused (.hostContract 32 0x4000) :=
  ⟨rfl, rfl, rfl⟩

/-- TC, with the boundaries of the reserved range and of a string window. -/
theorem witness_RegisterMapIsTheTable :
    Config.tc.wf = true ∧ hostReg Config.tc 0x0AC = .reserved ∧ hostReg Config.tc 0x0FFC = .reserved ∧
    hostReg Config.tc 0x107C = .miName 31 ∧ hostReg Config.tc 0x1080 = .reserved := by decide +kernel

theorem witness_ProducerWritesThenPublishes :
    State.Inv { State.reset with widx := 0xFFFFFFFF#32, pending := [.produce true 250] } ∧
    answers (step { State.reset with widx := 0xFFFFFFFF#32, pending := [.produce true 250] })
      (fun t => t.widx == 0#32 && t.ringAt 0xFFFFFFFF#32 == ⟨true, 250#32⟩) :=
  ⟨inv_of_check (by decide +kernel), by decide +kernel⟩

theorem witness_ResetGivesEveryCoreValue :
    answers (step { toyotaState 154 with pending := [.reset] }) (fun t => decide (t = State.reset)) = true := by
  decide +kernel

/-- The longest literal. -/
theorem witness_PatMacroLoadsTheLiteral : (List.replicate 32 true).length ≤ 32 := by decide

/-- A whole buffer, all of it valid. -/
theorem witness_LoadMacroLoadsTheBytes :
    State.reset.Inv ∧ (List.replicate 16 0xA5#8).length ≤ State.reset.cap 1 ∧
    (128#32).toNat ≤ State.reset.capBits 1 := ⟨inv_of_check (by decide +kernel), by decide +kernel⟩

end Sys2Proof.Tests
end

/-! SUPPORT. What a command and a step can do, and what every operation on the state keeps: the lemmas on which
the statements about the whole machine rest, then those statements (10_state.md, R30 to R45). -/

namespace Sys2Proof.Machine

/-! ### What a command can do -/

/-- `Completes s i u e`: the command `i`, run in `s` with its operands within bounds, has made the writes that
lead to `u` and ends in `finish(e)` (R142, R144 to R303). -/
inductive Completes (s : State) : Instr → State → Err → Prop
  | nop : Completes s .nop s .ok
  | getbit {b} (h : s.argNat 0 < s.capBits b) :
      Completes s (.getbit b) (s.setRes (s.readBit b (s.argNat 0)).toNat) .ok
  | setbit {b} (h : s.argNat 0 < s.capBits b) :
      Completes s (.setbit b) (s.writeBit b (s.argNat 0) (s.argBit 1)) .ok
  | fill {b k m} (hm : m = fillCount (s.argNat 0) (s.capBits b) (s.pats[k]).plen) :
      Completes s (.fill b k) ((s.setData b
        (fillBits (fun i => (s.pats[k]).elem (i % (s.pats[k]).plen)) m (s.buf b).data)).setRes m) .ok
  | revb {b} : Completes s (.revb b) (s.setData b (reverseBytes (s.cap b) (s.buf b).data)) .ok
  | setlen {b} (h : s.argNat 0 ≤ s.capBits b) : Completes s (.setlen b) (s.setNumbits b (s.argNat 0)) .ok
  | rdbyte {b} (h : s.argNat 0 < s.cap b) :
      Completes s (.rdbyte b) (s.setRes (s.readByte b (s.argNat 0)).toNat) .ok
  | wrbyte {b} (h : s.argNat 0 < s.cap b) :
      Completes s (.wrbyte b) (s.setData b (memWrite (s.buf b).data (s.argNat 0) (s.argByte 1))) .ok
  | matchp {b k} :
      Completes s (.matchp b k) (s.setRes (matchAt (s.buf b) (s.argNat 0) (s.patElems k)).toNat) .ok
  | seekFound {b k p} (h : seekFrom (s.buf b) (s.argNat 0) (s.argNat 1) (s.patElems k) = some p) :
      Completes s (.seek b k) (s.setRes p) .ok
  | seekNotFound {b k} (h : seekFrom (s.buf b) (s.argNat 0) (s.argNat 1) (s.patElems k) = none) :
      Completes s (.seek b k) (s.setRes notFound.toNat) .notFound
  | lcdec {b d z o r} (hr : r = lcLoop b d (s.patElems z) (s.patElems o) (s.capBits d) s (s.argNat 0) 0) :
      Completes s (.lcdec b d z o) ((r.1.setNumbits d r.2).setRes r.2) .ok
  | dmdec {b d r} (hr : r = dmState s b d (s.argNat 0) s.dmprev) :
      Completes s (.dmdec b d) (((r.out.setNumbits d r.count).setRes r.count).setDmprev r.level) .ok
  | crc8 {b} (h : s.argNat 0 + s.argNat 1 ≤ s.cap b) :
      Completes s (.crc8 b) (s.setRes
        (Machine.crc8 (memBytes (s.buf b).data (s.argNat 0) (s.argNat 1)) (s.argByte 2) (s.argByte 3)).toNat) .ok
  | scan {a} (ha : a = scanWalk s.cfg s.ringAt s.scanWindow s.scanWindow.avail 0 ⟨s, s.widx, false⟩) :
      Completes s .scan ((a.st.setScanLast a.newLast).setRes a.copied.toNat) .ok
  | sreset : Completes s .sreset s.clearScanner.clearMi .ok
  | dispatchClaimed {b k m} (h : firstDecoded s.cfg (s.buf b) (s.cap b) s.cfg.decoders 0 = some (k, m)) :
      Completes s (.dispatch b) (((s.beginDispatch b).publish k m).setRes k) .ok
  | dispatchUnclaimed {b} (h : firstDecoded s.cfg (s.buf b) (s.cap b) s.cfg.decoders 0 = none) :
      Completes s (.dispatch b) ((s.beginDispatch b).setRes notFound.toNat) .noMatch

/-- Everything a command can do (R142): out of its bounds it raises and writes STATUS alone; else it makes its
writes and finishes with its code. -/
theorem exec_next {i : Instr} {s t : State} (h : exec i s = .next t) :
    (possibleErrs i s = [.outOfBounds] ∧ t = s.raised .outOfBounds) ∨
    ∃ u e, Completes s i u e ∧ t = u.setStatus (finishedStatus u e) := by
  have finishes {u : State} {e : Err} (hc : Completes s i u e) (h : u.finish e = .next t) :
      ∃ u e, Completes s i u e ∧ t = u.setStatus (finishedStatus u e) :=
    ⟨u, e, hc, (Host.Outcome.next.inj h).symm⟩
  have bounded {p : Prop} [Decidable p] {u : State} (hp : p → possibleErrs i s = [.outOfBounds])
      (hc : ¬ p → Completes s i u .ok)
      (h : (if p then s.raise .outOfBounds else u.finish .ok) = .next t) :
      (possibleErrs i s = [.outOfBounds] ∧ t = s.raised .outOfBounds) ∨
      ∃ u e, Completes s i u e ∧ t = u.setStatus (finishedStatus u e) := by
    split at h
    · exact .inl ⟨hp ‹p›, (Host.Outcome.next.inj h).symm⟩
    · exact .inr (finishes (hc ‹¬ p›) h)
  cases i with
  | nop => exact .inr (finishes .nop h)
  | getbit b => exact bounded (fun hp => if_pos hp) (fun hp => .getbit (not_le.1 hp)) h
  | setbit b => exact bounded (fun hp => if_pos hp) (fun hp => .setbit (not_le.1 hp)) h
  | fill b k => exact .inr (finishes (.fill rfl) h)
  | revb b => exact .inr (finishes .revb h)
  | setlen b => exact bounded (fun hp => if_pos hp) (fun hp => .setlen (not_lt.1 hp)) h
  | rdbyte b => exact bounded (fun hp => if_pos hp) (fun hp => .rdbyte (not_le.1 hp)) h
  | wrbyte b => exact bounded (fun hp => if_pos hp) (fun hp => .wrbyte (not_le.1 hp)) h
  | matchp b k => exact .inr (finishes .matchp h)
  | seek b k =>
    simp only [exec, execSeek] at h
    split at h
    · exact .inr (finishes (.seekFound ‹_›) h)
    · exact .inr (finishes (.seekNotFound ‹_›) h)
  | lcdec b d z o => exact .inr (finishes (.lcdec rfl) h)
  | dmdec b d => exact .inr (finishes (.dmdec rfl) h)
  | crc8 b => exact bounded (fun hp => if_pos hp) (fun hp => .crc8 (not_lt.1 hp)) h
  | scan => exact .inr (finishes (.scan rfl) h)
  | sreset => exact .inr (finishes .sreset h)
  | dispatch b =>
    simp only [exec, execDispatch] at h
    split at h
    · exact .inr (finishes (.dispatchClaimed ‹_›) h)
    · exact .inr (finishes (.dispatchUnclaimed ‹_›) h)

/-! ### What a command leaves alone -/

/-- LCDEC writes RES and its destination buffer, STATUS apart (R211). -/
theorem Completes.lcdec_frame {s u : State} {e : Err} {b d : BufIx} {z o : PatIx}
    (h : Completes s (.lcdec b d z o) u e) :
    u = { s with bufs := u.bufs, res := u.res } ∧ OtherBufsSame d s u := by
  cases h with
  | @lcdec _ _ _ _ r hr =>
    obtain ⟨hframe, hothers⟩ := lcLoop_frame b d (s.patElems z) (s.patElems o) (s.capBits d) s (s.argNat 0) 0
    rw [← hr] at hframe hothers
    refine ⟨?_, fun c hc => (r.1.setNumbits_otherBufsSame d r.2 c hc).trans (hothers c hc)⟩
    rw [hframe]
    rfl

/-- DMDEC writes RES, DMPREV and its destination buffer, STATUS apart (R233). -/
theorem Completes.dmdec_frame {s u : State} {e : Err} {b d : BufIx} (h : Completes s (.dmdec b d) u e) :
    u = { s with bufs := u.bufs, res := u.res, dmprev := u.dmprev } ∧ OtherBufsSame d s u := by
  cases h with
  | @dmdec _ _ r hr =>
    obtain ⟨hframe, hothers⟩ := dmState_frame s b d (s.argNat 0) s.dmprev
    rw [← hr] at hframe hothers
    refine ⟨?_, fun c hc => (r.out.setNumbits_otherBufsSame d r.count c hc).trans (hothers c hc)⟩
    rw [hframe]
    rfl

/-- SCAN writes RES, BUF0 and the scanner registers, STATUS apart (R281 to R284). -/
theorem Completes.scan_frame {s u : State} {e : Err} (h : Completes s .scan u e) :
    u = { s with bufs := u.bufs, res := u.res, scanLast := u.scanLast, scanBest := u.scanBest,
                 sigReady := u.sigReady, sigStart := u.sigStart, sigUnit := u.sigUnit } ∧
      OtherBufsSame 0 s u := by
  cases h with
  | scan ha =>
    obtain ⟨hframe, hothers⟩ :=
      scanWalk_frame s.cfg s.ringAt s.scanWindow s.scanWindow.avail 0 ⟨s, s.widx, false⟩
    rw [← ha] at hframe hothers
    refine ⟨?_, hothers⟩
    rw [hframe]
    rfl

/-- No command writes its operands, the producer's state or the environment's (R32, R34, R40, R42). -/
theorem Completes.operands_eq {s u : State} {i : Instr} {e : Err} (h : Completes s i u e) :
    u.args = s.args ∧ u.pats = s.pats ∧ u.ring = s.ring ∧ u.widx = s.widx ∧ u.cfg = s.cfg ∧
    u.pending = s.pending ∧ u.readData = s.readData := by
  cases i with
  | lcdec b d z o => rw [h.lcdec_frame.1]; simp
  | dmdec b d => rw [h.dmdec_frame.1]; simp
  | scan => rw [h.scan_frame.1]; simp
  | _ => cases h <;> simp

/-- Settles O15: the writes a command makes before it finishes, and STATUS, are none of these fields. -/
theorem commandsNeverWriteTheirOperands : Obligations.CommandsNeverWriteTheirOperands := by
  intro i s t h
  rcases exec_next h with ⟨-, rfl⟩ | ⟨u, e, hu, rfl⟩
  · simp
  · simpa using hu.operands_eq

/-- Which commands write RES, DMPREV, the scanner registers and the MessageInfo record (R33, R37, R39, R41,
R44). -/
theorem Completes.registers_eq {s u : State} {i : Instr} {e : Err} (h : Completes s i u e) :
    (i.opcode ∉ [.getbit, .fill, .rdbyte, .matchp, .seek, .lcdec, .dmdec, .crc8, .scan, .dispatch] →
      u.res = s.res) ∧
    (i.opcode ≠ .dmdec → u.dmprev = s.dmprev) ∧
    (i ≠ .scan → i ≠ .sreset →
      u.scanLast = s.scanLast ∧ u.scanBest = s.scanBest ∧ u.sigStart = s.sigStart ∧ u.sigUnit = s.sigUnit) ∧
    (i ≠ .scan → i ≠ .sreset → i ≠ .dispatch 0 → u.sigReady = s.sigReady) ∧
    (i ≠ .sreset → i.opcode ≠ .dispatch → u.mi = s.mi) := by
  cases i with
  | lcdec b d z o => rw [h.lcdec_frame.1]; simp [Instr.opcode]
  | dmdec b d => rw [h.dmdec_frame.1]; simp [Instr.opcode]
  | scan => rw [h.scan_frame.1]; simp [Instr.opcode]
  | dispatch b => cases h <;> simp +contextual [Instr.opcode]
  | _ => cases h <;> simp [Instr.opcode]

/-- Settles O16: the end of a command writes STATUS alone, and its other writes are those listed. -/
theorem registersAreWrittenOnlyByTheirCommands : Obligations.RegistersAreWrittenOnlyByTheirCommands := by
  intro i s t h
  rcases exec_next h with ⟨-, rfl⟩ | ⟨u, e, hu, rfl⟩
  · simp
  · simpa using hu.registers_eq

/-! ### Which buffers a command writes -/

/-- The one buffer that a command may write: its operand, the destination of a decode, BUF0 of the scanner
(R94). -/
def destBuf : Instr → BufIx
  | .nop | .scan | .sreset => 0
  | .getbit b | .setbit b | .fill b _ | .revb b | .setlen b | .rdbyte b | .wrbyte b | .matchp b _ | .seek b _
  | .lcdec _ b _ _ | .dmdec _ b | .crc8 b | .dispatch b => b

theorem Completes.otherBufsSame {s u : State} {i : Instr} {e : Err} (h : Completes s i u e) :
    OtherBufsSame (destBuf i) s u := by
  cases i with
  | lcdec b d z o => exact h.lcdec_frame.2
  | dmdec b d => exact h.dmdec_frame.2
  | scan => exact h.scan_frame.2
  | sreset => cases h; exact s.setBuf_otherBufsSame 0 ⟨[], 0#32⟩
  | setbit b => cases h; exact s.writeBit_otherBufsSame b _ _
  | fill b k => cases h; exact s.setData_otherBufsSame b _
  | revb b => cases h; exact s.setData_otherBufsSame b _
  | wrbyte b => cases h; exact s.setData_otherBufsSame b _
  | setlen b => cases h; exact s.setNumbits_otherBufsSame b _
  | nop | getbit | rdbyte | matchp | seek | crc8 | dispatch => cases h <;> exact fun _ _ => rfl

/-- A buffer with a changed part is the one written. -/
theorem OtherBufsSame.eq_of_changed {α : Type} {b c : BufIx} {s t : State} (h : OtherBufsSame b s t)
    {part : BitBuffer → α} (hc : part (s.buf c) ≠ part (t.buf c)) : b = c := by
  by_contra hne
  exact hc (by rw [h c (Ne.symm hne)])

/-- Which commands write the bytes of a buffer (R35, R92, R94). -/
theorem Completes.data_changed {s u : State} {i : Instr} {e : Err} (h : Completes s i u e) {b : BufIx}
    (hb : (s.buf b).data ≠ (u.buf b).data) :
    i = .setbit b ∨ (∃ p, i = .fill b p) ∨ i = .revb b ∨ i = .wrbyte b ∨
      (∃ c p q, i = .lcdec c b p q) ∨ (∃ c, i = .dmdec c b) ∨ ((i = .scan ∨ i = .sreset) ∧ b = 0) := by
  obtain rfl := h.otherBufsSame.eq_of_changed hb
  cases i with
  | setlen => cases h; simp at hb
  | nop | getbit | rdbyte | matchp | seek | crc8 | dispatch => cases h <;> exact absurd rfl hb
  | setbit | fill | revb | wrbyte | lcdec | dmdec | scan | sreset => simp [destBuf]

/-- Which commands write the numbits of a buffer (R35, R92, R94). -/
theorem Completes.numbits_changed {s u : State} {i : Instr} {e : Err} (h : Completes s i u e) {b : BufIx}
    (hb : (s.buf b).numbits ≠ (u.buf b).numbits) :
    i = .setlen b ∨ (∃ c p q, i = .lcdec c b p q) ∨ (∃ c, i = .dmdec c b) ∨
      ((i = .scan ∨ i = .sreset) ∧ b = 0) := by
  obtain rfl := h.otherBufsSame.eq_of_changed hb
  cases i with
  | setbit | fill | revb | wrbyte => cases h; simp at hb
  | nop | getbit | rdbyte | matchp | seek | crc8 | dispatch => cases h <;> exact absurd rfl hb
  | setlen | lcdec | dmdec | scan | sreset => simp [destBuf]

/-- Settles O17: the end of a command writes no buffer, and its other writes are those listed. -/
theorem buffersAreWrittenOnlyByTheirCommands : Obligations.BuffersAreWrittenOnlyByTheirCommands := by
  intro i s t b h
  rcases exec_next h with ⟨-, rfl⟩ | ⟨u, e, hu, rfl⟩
  · exact ⟨fun hb => absurd rfl hb, fun hb => absurd rfl hb⟩
  · exact ⟨fun hb => hu.data_changed hb, fun hb => hu.numbits_changed hb⟩

/-! ### What a step keeps -/

/-- What every piece of a step keeps, the step keeps (R351): taking the event off the list, a host read, a host
write, a command, an illegal word, the producer's step and reset. -/
theorem step_preserves {P : State → Prop}
    (env : ∀ (s : State) (events : List Event) (word : Option Word), P s →
      P { s with pending := events, readData := word })
    (write : ∀ (s : State) (r : HostReg) (v : Word), P s → P (hostWriteReg r v s))
    (command : ∀ (i : Instr) (s t : State), P s → exec i s = .next t → P t)
    (illegal : ∀ s : State, P s → P (s.raised .illegal))
    (produce : ∀ (s : State) (level : Bool) (duration : Word), P s → P (s.produce level duration))
    (reset : ∀ s : State, P s → P s.coreReset)
    {s t : State} (hs : P s) (h : step s = .next t) : P t := by
  rcases step_next h with ⟨-, rfl⟩ | ⟨e, rest, -, he⟩
  · exact hs
  · have hs' : P { s with pending := rest } := env s rest s.readData hs
    rcases runEvent_next he with
      ⟨w, o, -, rfl⟩ | ⟨w, o, v, -, -, hi⟩ | ⟨w, o, v, -, rfl⟩ | ⟨l, d, -, rfl⟩ | ⟨-, rfl⟩
    · exact env _ _ _ hs'
    · rcases issue_next hi with ⟨i, -, hx⟩ | ⟨-, rfl⟩
      · exact command i _ t hs' hx
      · exact illegal _ hs'
    · exact write _ _ v hs'
    · exact produce _ l d hs'
    · exact reset _ hs'

/-- What a register write keeps for each of the writable registers, it keeps (R87, R89, R90). -/
theorem hostWriteReg_preserves {P : State → Prop} {s : State} (r : HostReg) (v : Word) (hs : P s)
    (arg : ∀ k, P (s.setArg k v)) (dmprev : P (s.setDmprev (v.getLsbD 0)))
    (patBits : ∀ k, P (s.setPat k { s.pats[k] with bits := v }))
    (patLen : ∀ k, P (s.setPat k ((s.pats[k]).setLen v))) : P (hostWriteReg r v s) := by
  rcases hostWriteReg_cases r v s with
    ⟨k, -, h⟩ | ⟨-, h⟩ | ⟨k, -, h⟩ | ⟨k, -, h⟩ | ⟨-, -, -, -, h⟩ <;> rw [h]
  · exact arg k
  · exact dmprev
  · exact patBits k
  · exact patLen k
  · exact hs

/-- Settles O11: no piece of a step writes the configuration (R42). -/
theorem configurationIsNeverWritten : Obligations.ConfigurationIsNeverWritten := by
  intro s t h
  refine step_preserves (P := fun u => u.cfg = s.cfg) (fun _ _ _ hu => hu) (fun u r v hu => ?_)
    (fun i u t hu hx => ?_) (fun _ hu => hu) (fun _ _ _ hu => hu) (fun _ hu => hu) rfl h
  · exact hostWriteReg_preserves (P := fun u => u.cfg = s.cfg) r v hu (fun _ => hu) hu (fun _ => hu) (fun _ => hu)
  · obtain ⟨-, -, -, -, hcfg, -, -⟩ := commandsNeverWriteTheirOperands i u t hx
    exact hcfg.trans hu

/-! ### The invariant, one rule for each operation on the state -/

section
variable {s : State}

theorem State.Inv.facts (h : s.Inv) : s.cfg.Facts := Config.facts h.cfg

/-- Every buffer's length in bits fits 32 bits (R6, R9). -/
theorem State.Inv.capBits_lt (h : s.Inv) (b : BufIx) : 8 * s.cap b < 2 ^ 32 := by
  have : 8 * s.cap b ≤ 2 ^ 31 := h.facts.capBits_le b
  omega

/-- The scanner registers agree in every state that has the same ones; a signal may have been consumed
(R39, R303). -/
theorem ScannerWf.congr {t : State} (h : ScannerWf s) (hcfg : t.cfg = s.cfg) (hbest : t.scanBest = s.scanBest)
    (hstart : t.sigStart = s.sigStart) (hunit : t.sigUnit = s.sigUnit)
    (hready : s.sigReady = false → t.sigReady = false) : ScannerWf t where
  empty := fun h0 => by
    obtain ⟨h1, h2, h3⟩ := h.empty (hbest ▸ h0)
    exact ⟨hready h1, hstart.trans h2, hunit.trans h3⟩
  least := by rw [hcfg, hbest]; exact h.least
  most := by rw [hcfg, hbest]; exact h.most
  unit := by rw [hcfg, hbest, hunit]; exact h.unit

/-- The argument registers, RES, DMPREV, SCAN_LAST, WIDX and the environment's fields are no part of the
invariant. -/
theorem State.Inv.of_outside {t : State} (h : s.Inv)
    (ht : t = { s with args := t.args, res := t.res, dmprev := t.dmprev, scanLast := t.scanLast,
                       widx := t.widx, pending := t.pending, readData := t.readData }) : t.Inv := by
  rw [ht]
  exact h.congr rfl h.bufs h.pats h.status h.mi (h.scanner.congr rfl rfl rfl rfl id) rfl

theorem State.Inv.withEnvironment (h : s.Inv) (events : List Event) (word : Option Word) :
    State.Inv { s with pending := events, readData := word } :=
  h.of_outside rfl

theorem State.Inv.setRes (h : s.Inv) (v : Nat) : (s.setRes v).Inv :=
  h.of_outside rfl

theorem State.Inv.setDmprev (h : s.Inv) (v : Bool) : (s.setDmprev v).Inv :=
  h.of_outside rfl

theorem State.Inv.setScanLast (h : s.Inv) (v : Word) : (s.setScanLast v).Inv :=
  h.of_outside rfl

theorem State.Inv.setArg (h : s.Inv) (k : ArgIx) (v : Word) : (s.setArg k v).Inv :=
  h.of_outside rfl

theorem State.Inv.setPat (h : s.Inv) (k : PatIx) {p : PatReg} (hp : p.plen ≤ 32) : (s.setPat k p).Inv :=
  h.congr rfl h.bufs
    (fun j => by
      rw [s.setPat_get]
      split
      · exact hp
      · exact h.pats j)
    h.status h.mi (h.scanner.congr rfl rfl rfl rfl id) rfl

theorem State.Inv.setStatus (h : s.Inv) {v : Word} (hv : statusLegal v = true) : (s.setStatus v).Inv :=
  h.congr rfl h.bufs h.pats hv h.mi (h.scanner.congr rfl rfl rfl rfl id) rfl

theorem State.Inv.finished (h : s.Inv) (e : Err) : (s.setStatus (finishedStatus s e)).Inv :=
  h.setStatus (statusLegal_setErr e h.status)

theorem State.Inv.raised (h : s.Inv) (e : Err) : (s.raised e).Inv :=
  h.setStatus (statusLegal_setFault (statusLegal_setErr e h.status))

theorem State.Inv.setBuf (h : s.Inv) {b : BufIx} {x : BitBuffer} (hx : x.Wf (s.cap b)) : (s.setBuf b x).Inv :=
  h.congr rfl (State.bufs_wf_setBuf h.bufs hx) h.pats h.status h.mi (h.scanner.congr rfl rfl rfl rfl id) rfl

/-- New bytes that are canonical and within the capacity (R35, R81). -/
theorem State.Inv.setData (h : s.Inv) {b : BufIx} {m : Memory} (hm : Memory.wf m)
    (hb : ∀ c ∈ m, c.1 < s.cap b) : (s.setData b m).Inv :=
  h.setBuf ⟨hm, hb, (h.bufs b).numbits⟩

theorem State.Inv.setNumbits (h : s.Inv) {b : BufIx} {n : Nat} (hn : n ≤ s.capBits b) :
    (s.setNumbits b n).Inv :=
  h.setBuf ((h.bufs b).setNumbits hn (h.capBits_lt b))

theorem State.Inv.writeBit (h : s.Inv) {b : BufIx} {p : Nat} (hp : p < s.capBits b) (v : Bool) :
    (s.writeBit b p v).Inv :=
  h.setBuf ((h.bufs b).bitWrite hp)

/-- A decode passes through states that meet the invariant (R210, R232). -/
theorem Decoding.inv {t : State} {d : BufIx} (hd : Decoding d s t) (h : s.Inv) : t.Inv := by
  have hbufs : ∀ b : BufIx, (t.buf b).Wf (s.cap b) := fun b => by
    by_cases hb : b = d
    · subst hb
      exact ⟨hd.canonical, hd.bounded, by rw [hd.numbits]; exact (h.bufs b).numbits⟩
    · rw [hd.others b hb]
      exact h.bufs b
  rw [hd.frame]
  exact h.congr rfl hbufs h.pats h.status h.mi (h.scanner.congr rfl rfl rfl rfl id) rfl

theorem State.Inv.clearMi (h : s.Inv) : s.clearMi.Inv :=
  h.congr rfl h.bufs h.pats h.status (MiRecord.cleared_wf _) (h.scanner.congr rfl rfl rfl rfl id) rfl

theorem State.Inv.beginDispatch (h : s.Inv) (b : BufIx) : (s.beginDispatch b).Inv :=
  h.congr rfl h.bufs h.pats h.status (MiRecord.cleared_wf _)
    (h.scanner.congr rfl rfl rfl rfl fun h0 => by simp [h0]) rfl

theorem State.Inv.publish (h : s.Inv) {k : Nat} {m : MessageInfo} (hk : k < s.cfg.decoders.length)
    (hm : m.textsLegal = true) : (s.publish k m).Inv :=
  h.congr rfl h.bufs h.pats h.status (s.publish_mi_wf k m hk h.facts.decCount hm)
    (h.scanner.congr rfl rfl rfl rfl id) rfl

theorem State.Inv.clearScanner (h : s.Inv) : s.clearScanner.Inv :=
  h.congr rfl (State.bufs_wf_setBuf h.bufs (BitBuffer.Wf.empty _)) h.pats h.status h.mi
    (ScannerWf.of_empty rfl rfl rfl rfl) rfl

/-- A run that may become the detected signal, taken, leaves scanner registers that agree (R278, R281). -/
theorem State.Inv.takeSignal (h : s.Inv) (ring : Word → Pulse) (k0 : Word) {r : Run}
    (hmin : s.cfg.minRun ≤ r.len) (hmax : r.len ≤ s.cfg.maxRun) (hring : r.len ≤ s.cfg.ringSize)
    (hunit : s.cfg.durMin ≤ r.unit) (hlt : r.unit < 2 ^ 32) : (s.takeSignal ring k0 r).Inv := by
  have hpos := h.facts.minRun
  have hsize := h.facts.ringSize_bounds.2
  have hlen : (BitVec.ofNat 32 r.len).toNat = r.len := by
    rw [BitVec.toNat_ofNat, Nat.mod_eq_of_lt (by omega)]
  refine h.congr rfl
    (State.bufs_wf_setBuf h.bufs (convertRun_wf ring (s.cap 0) k0 r (h.capBits_lt 0)))
    h.pats h.status h.mi (ScannerWf.of_run ?_ ?_ ?_ ?_ ?_) rfl
  · intro h0
    rw [State.takeSignal_scanBest, ← BitVec.toNat_inj, hlen, BitVec.toNat_zero] at h0
    omega
  · simpa [hlen] using hmin
  · simpa [hlen] using hmax
  · simpa [hlen] using hring
  · rw [State.takeSignal_sigUnit, BitVec.toNat_ofNat, Nat.mod_eq_of_lt hlt]
    exact hunit

theorem State.Inv.produce (h : s.Inv) (level : Bool) (duration : Word) : (s.produce level duration).Inv where
  cfg := h.cfg
  bufs := h.bufs
  pats := h.pats
  status := h.status
  mi := h.mi
  scanner := h.scanner.congr rfl rfl rfl rfl id
  ringCanonical := State.produce_ring_wf h.ringCanonical
  ringBounded := State.produce_ring_bounded h.ringBounded h.facts.ringSize_bounds.1

end

/-- A core right after reset meets the invariant, for every configuration and ring that do (R45, R371). -/
theorem State.afterReset_inv {c : Config} {ring : List (Nat × Pulse)} (widx : Word) (hc : c.wf = true)
    (hring : ringWf ring) (hbound : ∀ x ∈ ring, x.1 < c.ringSize) : (State.afterReset c ring widx).Inv where
  cfg := hc
  bufs := fun b => by
    have hb : (State.afterReset c ring widx).buf b = ⟨[], 0#32⟩ := by simp [State.buf, State.afterReset]
    rw [hb]
    exact BitBuffer.Wf.empty _
  pats := fun k => by simp [State.afterReset, PatReg.plen]
  status := (by decide : statusLegal 0#32 = true)
  mi := MiRecord.cleared_wf c
  scanner := ScannerWf.of_empty rfl rfl rfl rfl
  ringCanonical := hring
  ringBounded := hbound

theorem State.Inv.coreReset {s : State} (h : s.Inv) : s.coreReset.Inv :=
  (State.afterReset_inv s.widx h.cfg h.ringCanonical h.ringBounded).withEnvironment s.pending s.readData

/-! ### Every command keeps the invariant -/

/-- The scan window holds at most RING_SIZE pulses (R279). -/
theorem State.scanWindow_avail_le (s : State) : s.scanWindow.avail ≤ s.cfg.ringSize := by
  simp only [State.scanWindow]
  split <;> simp_all

/-- Every run that SCAN copies is one R281 allows, so the walk keeps the invariant (R280, R281). -/
theorem scanWalk_inv {s : State} (h : s.Inv) (n i : Nat) (newLast : Word) :
    (scanWalk s.cfg s.ringAt s.scanWindow n i ⟨s, newLast, false⟩).st.Inv := by
  have walk := scanWalk_induct (c := s.cfg) (ring := s.ringAt) (w := s.scanWindow)
    (fun a => a.st.Inv ∧ a.st.cfg = s.cfg) ?_ n i ⟨s, newLast, false⟩ ⟨h, rfl⟩
  · exact walk.1
  · intro j a _ ⟨ha, hcfg⟩
    generalize hk : s.scanWindow.base + BitVec.ofNat 32 j = k0
    have hlen := measureRun_len_le s.cfg s.ringAt k0 (s.scanWindow.avail - j)
    have hunit := measureRun_unit_bounds (c := s.cfg) (ring := s.ringAt) (k0 := k0)
      (maxn := s.scanWindow.avail - j)
    generalize measureRun s.cfg s.ringAt k0 (s.scanWindow.avail - j) = r at hlen hunit
    have hwin := s.scanWindow_avail_le
    have hpos := h.facts.minRun
    simp only [scanVisit]
    split
    · rename_i hcopy
      simp only [copyCondition, Bool.and_eq_true, decide_eq_true_eq, hcfg] at hcopy
      obtain ⟨⟨hmin, -⟩, -⟩ := hcopy
      obtain ⟨hlo, hhi⟩ := hunit (by omega)
      exact ⟨ha.takeSignal s.ringAt k0 (by rw [hcfg]; exact hmin) (by rw [hcfg]; exact hlen.2)
        (by rw [hcfg]; omega) (by rw [hcfg]; exact hlo) hhi, hcfg⟩
    · exact ⟨ha, hcfg⟩

/-- The writes of a command that completes keep the invariant. -/
theorem Completes.inv {s u : State} {i : Instr} {e : Err} (hc : Completes s i u e) (h : s.Inv) : u.Inv := by
  cases hc with
  | nop => exact h
  | getbit | rdbyte | matchp | seekFound | seekNotFound | crc8 => exact h.setRes _
  | setbit hp => exact h.writeBit hp _
  | @fill b k m hm =>
    have hbound : m ≤ 8 * s.cap b := hm ▸ fillCount_le ..
    exact (h.setData (fillBits_wf (h.bufs b).canonical) (fillBits_bounded (h.bufs b).bounded hbound)).setRes _
  | revb => exact h.setData reverseBytes_wf reverseBytes_bounded
  | setlen hn => exact h.setNumbits hn
  | @wrbyte b hi =>
    have hb := (h.bufs b).memWrite (v := s.argByte 1) hi
    exact h.setData hb.canonical hb.bounded
  | @lcdec b d z o r hr =>
    obtain ⟨cur, hspec⟩ := lcLoop_spec b d (s.patElems z) (s.patElems o) (s.capBits d) s (s.argNat 0) 0
      (h.bufs d) (by omega)
    rw [← hr] at hspec
    have hcount : r.2 ≤ r.1.capBits d := by
      rw [State.capBits, hspec.dec.cfg]
      have := hspec.room_le
      simp only [State.capBits] at this
      omega
    exact ((hspec.dec.inv h).setNumbits hcount).setRes _
  | @dmdec b d r hr =>
    obtain ⟨hdec, lv, hspec⟩ := dmState_spec s b d (s.argNat 0) s.dmprev (h.bufs d)
    rw [← hr] at hdec hspec
    have hcount : r.count ≤ r.out.capBits d := by
      rw [State.capBits, hdec.cfg]
      have := hspec.room_le
      simp only [State.capBits] at this
      omega
    exact (((hdec.inv h).setNumbits hcount).setRes _).setDmprev _
  | scan ha =>
    subst ha
    exact ((scanWalk_inv h ..).setScanLast _).setRes _
  | sreset => exact h.clearScanner.clearMi
  | @dispatchClaimed b k m hd =>
    obtain ⟨j, d, rfl, hj, hm, -⟩ := (firstDecoded_spec ..).1 k m hd
    have hk : 0 + j < s.cfg.decoders.length := by
      obtain ⟨hlt, -⟩ := List.getElem?_eq_some_iff.1 hj
      omega
    exact ((h.beginDispatch b).publish hk (runDecoder_textsLegal hm)).setRes _
  | dispatchUnclaimed => exact (h.beginDispatch _).setRes _

/-- Every command keeps the invariant, whether it completes or raises. -/
theorem exec_inv (i : Instr) (s t : State) (h : s.Inv) (hx : exec i s = .next t) : t.Inv := by
  rcases exec_next hx with ⟨-, rfl⟩ | ⟨u, e, hu, rfl⟩
  · exact h.raised _
  · exact (hu.inv h).finished e

/-! ### The invariant of the machine -/

/-- Every register write keeps the invariant: PATLENk stores min(v, 32) (R34). -/
theorem hostWriteReg_inv (s : State) (r : HostReg) (v : Word) (h : s.Inv) : (hostWriteReg r v s).Inv :=
  hostWriteReg_preserves r v h (fun k => h.setArg k v) (h.setDmprev _) (fun k => h.setPat k (h.pats k))
    (fun k => h.setPat k (by rw [PatReg.setLen_plen]; omega))

/-- Settles O9: each piece of a step keeps the invariant. -/
theorem stepKeepsInvariant : Obligations.StepKeepsInvariant := fun _ _ =>
  step_preserves (fun _ events word h => h.withEnvironment events word) hostWriteReg_inv exec_inv
    (fun _ h => h.raised _) (fun _ level duration h => h.produce level duration) (fun _ h => h.coreReset)

/-- TC meets the constraints of R6 (R7). -/
theorem tc_wf : Config.tc.wf = true := by decide +kernel

/-- Settles O10: the test configuration meets R6, and the empty ring is canonical. -/
theorem resetMeetsInvariant : Obligations.ResetMeetsInvariant :=
  State.afterReset_inv 0#32 tc_wf sparseWf_nil (by simp)

/-! ### Reset and host writes -/

theorem State.coreReset_buf (s : State) (b : BufIx) : s.coreReset.buf b = ⟨[], 0#32⟩ := by
  simp [State.buf, State.coreReset, State.afterReset]

/-- Settles O58: the step is `coreReset`, whose fields are those of R45. -/
theorem resetGivesEveryCoreValue : Obligations.ResetGivesEveryCoreValue := by
  intro s rest hp
  refine ⟨{ s with pending := rest }.coreReset, by simp [step, runNext, hp, runEvent], ?_⟩
  refine ⟨fun k => ?_, rfl, rfl, fun k => ?_, fun b i => ?_, fun b => ?_, rfl, rfl, rfl, rfl, rfl, rfl, rfl,
    rfl, rfl, ?_, rfl, rfl, rfl, rfl⟩
  · simp [State.coreReset, State.afterReset]
  · simp [State.coreReset, State.afterReset, PatReg.plen]
  · rw [State.readByte, State.coreReset_buf, memRead_nil]
  · rw [State.numbits, State.coreReset_buf]
    rfl
  · simp only [State.coreReset, State.afterReset, MiRecord.cleared, List.mem_append, List.mem_replicate]
    tauto

/-- A host write within the contract and not to CMD is the write of the register there (R87, R90). -/
theorem step_hostWrite {s : State} {rest : List Event} {offset : Nat} {v : Word}
    (hp : s.pending = .hostWrite 32 offset v :: rest) (ha : offset % 4 = 0) (hle : offset ≤ 0x3FFC)
    (h0 : offset ≠ 0x000) :
    step s = .next (hostWriteReg (hostReg s.cfg offset) v { s with pending := rest }) := by
  have hdef : hostDefined 32 offset = true := by simp [hostDefined, ha, hle]
  have hcmd : hostReg s.cfg offset ≠ .cmd := fun h => h0 (hostReg_eq_cmd h ha)
  simp only [step, runNext, hp, runEvent, hostWrite, hdef, if_true]

/-- A 1-bit field reads back as bit 0 of the word written (R37, R87). -/
theorem bitWord_getLsbD_zero (v : Word) : bitWord (v.getLsbD 0) = v &&& 1#32 := by
  rw [BitVec.and_one_eq_setWidth_ofBool_getLsbD]
  cases v.getLsbD 0 <;> rfl

/-- PATLENk reads back the length of the pattern, the other bits 0 (R34, R87). -/
theorem hostReadReg_patLen_toNat (s : State) (k : PatIx) :
    (hostReadReg (.patLen k) s).toNat = (s.pats[k]).plen :=
  BitVec.toNat_setWidth_of_le (by omega)

/-- Settles O54: one case for each writable register, and one for the registers a write ignores. -/
theorem hostWritesChangeOneRegister : Obligations.HostWritesChangeOneRegister := by
  intro s rest offset v hp ha hle h0
  refine ⟨_, step_hostWrite hp ha hle h0, ?_⟩
  generalize hostReg s.cfg offset = r
  rcases hostWriteReg_cases r v { s with pending := rest } with
    ⟨k, rfl, h⟩ | ⟨rfl, h⟩ | ⟨k, rfl, h⟩ | ⟨k, rfl, h⟩ | ⟨h1, h2, h3, h4, h⟩ <;> rw [h]
  · refine ⟨rfl, fun hk => absurd rfl (hk k), fun _ => rfl, fun _ => rfl, nofun, ?_, nofun, nofun⟩
    rintro _ ⟨⟩
    have hk := State.setArg_get { s with pending := rest } k k v
    rw [if_pos rfl] at hk
    exact ⟨hk, hk, fun j hj => by rw [State.setArg_get, if_neg hj]⟩
  · refine ⟨rfl, fun _ => rfl, fun _ => rfl, fun hd => absurd rfl hd, fun _ => ⟨rfl, ?_⟩, nofun, nofun, nofun⟩
    exact bitWord_getLsbD_zero v
  · refine ⟨rfl, fun _ => rfl, fun hk => absurd rfl (hk k).1, fun _ => rfl, nofun, nofun, ?_, nofun⟩
    rintro _ ⟨⟩
    have hk := State.setPat_get { s with pending := rest } k k { s.pats[k] with bits := v }
    rw [if_pos rfl] at hk
    exact ⟨hk, congrArg PatReg.bits hk, fun j hj => by rw [State.setPat_get, if_neg hj]⟩
  · refine ⟨rfl, fun _ => rfl, fun hk => absurd rfl (hk k).2, fun _ => rfl, nofun, nofun, nofun, ?_⟩
    rintro _ ⟨⟩
    have hk := State.setPat_get { s with pending := rest } k k ((s.pats[k]).setLen v)
    rw [if_pos rfl] at hk
    rw [hostReadReg_patLen_toNat, hk, PatReg.setLen_plen]
    exact ⟨rfl, rfl, rfl, fun j hj => by rw [State.setPat_get, if_neg hj]⟩
  · simp [h1, h2, h3, h4]

end Sys2Proof.Machine

/-! SUPPORT. What a host access does within the contract of R88 and outside it, and where each row of the
register map stands (20_memory.md, R87 to R90). -/

namespace Sys2Proof.Machine

/-! ### Host accesses -/

/-- A step with an event pending is that event, taken off the list (R351). -/
theorem step_of_pending {s : State} {e : Event} {rest : List Event} (hp : s.pending = e :: rest) :
    step s = runEvent e { s with pending := rest } := by
  simp only [step, runNext, hp]

/-- The contract's three conditions on a host access (R88). -/
theorem hostDefined_iff {width offset : Nat} :
    hostDefined width offset = true ↔ width = 32 ∧ offset % 4 = 0 ∧ offset ≤ 0x3FFC := by
  simp [hostDefined, and_assoc]

/-- No register of the map shows the events still to come (R87). -/
theorem hostReadReg_pending (r : HostReg) (s : State) (events : List Event) :
    hostReadReg r { s with pending := events } = hostReadReg r s := by
  cases r <;> rfl

/-- A host read within the contract puts the register's content in `readData`; nothing else changes but the
list of events (R90). -/
theorem step_hostRead {s : State} {rest : List Event} {offset : Nat}
    (hp : s.pending = .hostRead 32 offset :: rest) (ha : offset % 4 = 0) (hle : offset ≤ 0x3FFC) :
    step s = .next { s with pending := rest, readData := some (hostReadReg (hostReg s.cfg offset) s) } := by
  rw [step_of_pending hp, runEvent, hostRead, if_pos (hostDefined_iff.2 ⟨rfl, ha, hle⟩),
    hostReadReg_pending]

/-- Settles O53: the word read is `hostReadReg` of the register at the offset, and each clause names that
register. -/
theorem hostReadsHaveNoSideEffects : Obligations.HostReadsHaveNoSideEffects := by
  intro s rest offset hp ha hle
  have content {r : HostReg} {w : Word} (hw : hostReadReg r s = w) (hr : hostReg s.cfg offset = r) :
      hostReadReg (hostReg s.cfg offset) s = w := hr ▸ hw
  have hcmd : offset = 0x000 → hostReg s.cfg offset = .cmd := fun h => h ▸ rfl
  exact ⟨_, step_hostRead hp ha hle, rfl,
    content rfl, fun h => content rfl (hcmd h), content rfl, content rfl, fun _ => content rfl,
    content rfl, content rfl, content rfl, content rfl, content rfl, content rfl, content rfl,
    fun _ => content rfl, fun _ => content rfl, fun _ => content rfl, fun _ => content rfl,
    content rfl, content rfl, content rfl, fun _ => content rfl, fun _ => content rfl,
    fun _ => content rfl, fun _ => content rfl, fun _ => content rfl, fun _ => content rfl⟩

/-- Settles O55: outside the contract `hostDefined` is false, and both accesses take their refusing branch. -/
theorem badHostAccessesAreRefused : Obligations.BadHostAccessesAreRefused := by
  intro s rest width offset v hbad
  have hundef : ¬ hostDefined width offset = true := by
    rw [hostDefined_iff]
    omega
  refine ⟨fun hp => ?_, fun hp => ?_⟩
  · rw [step_of_pending hp, runEvent, hostRead, if_neg hundef]
  · rw [step_of_pending hp, runEvent, hostWrite, if_neg hundef]

/-! ### The rows of the register map (R87) -/

theorem hostReg_arg (c : Config) (k : ArgIx) : hostReg c (0x010 + 4 * k.val) = .arg k := by
  fin_cases k <;> rfl

theorem hostReg_patBits (c : Config) (k : PatIx) : hostReg c (0x040 + 8 * k.val) = .patBits k := by
  fin_cases k <;> rfl

theorem hostReg_patLen (c : Config) (k : PatIx) : hostReg c (0x044 + 8 * k.val) = .patLen k := by
  fin_cases k <;> rfl

theorem hostReg_numbits (c : Config) (b : BufIx) : hostReg c (0x080 + 4 * b.val) = .numbits b := by
  fin_cases b <;> rfl

theorem hostReg_capBytes (c : Config) (b : BufIx) : hostReg c (0x090 + 4 * b.val) = .capBytes b := by
  fin_cases b <;> rfl

/-- Between MI_BITLEN and the first string window every offset is reserved (R87, R89). -/
theorem hostReg_gap (c : Config) {o : Nat} (hlo : 0x0AC ≤ o) (hhi : o ≤ 0x0FFC) :
    hostReg c o = .reserved := by
  rw [hostReg_high c o hlo, if_pos (by omega)]

theorem hostReg_nameWindow (c : Config) {j : Nat} (hj : j < 1024) :
    hostReg c (0x1000 + 4 * j) = if j < c.nameMax then .miName j else .reserved := by
  have hchar : (0x1000 + 4 * j - 0x1000) / 4 = j := by omega
  rw [hostReg_high c _ (by omega), if_neg (by omega), if_pos (by omega), hchar]

theorem hostReg_rawWindow (c : Config) {j : Nat} (hj : j < 1024) :
    hostReg c (0x2000 + 4 * j) = if j < c.rawMax then .miRaw j else .reserved := by
  have hchar : (0x2000 + 4 * j - 0x2000) / 4 = j := by omega
  rw [hostReg_high c _ (by omega), if_neg (by omega), if_neg (by omega), if_pos (by omega), hchar]

/-- The four info windows are 0x400 bytes apart, so window and character are the quotient and the remainder
of the offset (R87). -/
theorem hostReg_infoWindow (c : Config) (n : Fin 4) {j : Nat} (hj : j < 256) :
    hostReg c (0x3000 + 0x400 * n.val + 4 * j) = if j < c.infoMax then .miInfo n j else .reserved := by
  have hchar : (0x3000 + 0x400 * n.val + 4 * j - 0x3000) % 0x400 / 4 = j := by omega
  have hquot : (0x3000 + 0x400 * n.val + 4 * j - 0x3000) / 0x400 = n.val := by omega
  have hwindow : Fin.ofNat 4 n.val = n := Fin.ext (Nat.mod_eq_of_lt n.isLt)
  rw [hostReg_high c _ (by omega), if_neg (by omega), if_neg (by omega), if_neg (by omega), hchar, hquot,
    hwindow]

/-- Settles O56: the single registers stand at literal offsets, and each bank and window is a row above. -/
theorem registerMapIsTheTable : Obligations.RegisterMapIsTheTable := by
  intro c _
  exact ⟨rfl, rfl, rfl, rfl, hostReg_arg c, rfl, rfl, rfl, rfl, rfl, rfl, rfl, rfl,
    fun k => ⟨hostReg_patBits c k, hostReg_patLen c k⟩,
    fun b => ⟨hostReg_numbits c b, hostReg_capBytes c b⟩, rfl, rfl, rfl,
    fun _ => hostReg_gap c, fun _ => hostReg_nameWindow c, fun _ => hostReg_rawWindow c,
    fun n _ => hostReg_infoWindow c n⟩

end Sys2Proof.Machine

/-! SUPPORT. How a command's fields, its word and its row of the opcode table determine each other
(30_encoding.md, R110 to R118). -/

namespace Sys2Proof.Machine

/-! ### From the command to its word and back -/

/-- The fields of a command's word are the command's operands (R111, R118). -/
theorem build_encode (i : Instr) : i.opcode.build (encode i) = i := by
  cases i <;> simp [Instr.opcode, Opcode.build, encode, baField_encodeFields, bbField_encodeFields,
    paField_encodeFields, pbField_encodeFields]

/-- The word of a command built from `w` has the fields of `w` that the opcode uses, and 0 in the others
(R112, R118). -/
theorem encode_build (o : Opcode) (w : Word) : encode (o.build w) = encodeFields o
    (if o.uses.ba then (baField w).toFin else 0) (if o.uses.bb then (bbField w).toFin else 0)
    (if o.uses.pa then (paField w).toFin else 0) (if o.uses.pb then (pbField w).toFin else 0) := by
  cases o <;> rfl

/-- Every command's word is made of its opcode's fields and nothing else (R110, R112). -/
theorem encode_fields (i : Instr) : opField (encode i) = i.opcode.code ∧ rsvdField (encode i) = 0 ∧
    i.opcode.unusedZero (encode i) = true := by
  have hword := encode_build i.opcode (encode i)
  rw [build_encode] at hword
  rw [hword]
  exact ⟨opField_encodeFields .., rsvdField_encodeFields .., encodeFields_unusedZero
    (by simp +contextual) (by simp +contextual) (by simp +contextual) (by simp +contextual)⟩

/-- Settles O1: the word passes the three tests of R112, and its fields build the command again. -/
theorem decodeOfEncode : Obligations.DecodeOfEncode := by
  intro i
  obtain ⟨hop, hrsvd, hunused⟩ := encode_fields i
  exact decode_eq_ok_iff.2 ⟨i.opcode, hop, hrsvd, hunused, (build_encode i).symm⟩

/-- A field that is 0 when unused loses nothing when the encoder writes it only if used (R112, R118). -/
theorem ofFin_usedField {n : Nat} {used : Bool} {x : BitVec n} (h : used = false → x = 0) :
    BitVec.ofFin (if used then x.toFin else 0) = x := by
  cases used with
  | true => rfl
  | false => exact (h rfl).symm

/-- Settles O2: the word and the encoding agree in each of the six fields. -/
theorem encodeOfDecode : Obligations.EncodeOfDecode := by
  intro w i h
  obtain ⟨o, hop, hrsvd, hunused, rfl⟩ := decode_eq_ok_iff.1 h
  obtain ⟨hba, hbb, hpa, hpb⟩ := Opcode.unusedZero_iff.1 hunused
  rw [encode_build]
  apply word_ext
  · rw [opField_encodeFields, hop]
  · rw [baField_encodeFields, ofFin_usedField hba]
  · rw [bbField_encodeFields, ofFin_usedField hbb]
  · rw [paField_encodeFields, ofFin_usedField hpa]
  · rw [pbField_encodeFields, ofFin_usedField hpb]
  · rw [rsvdField_encodeFields, hrsvd]
    rfl

/-! ### The match and mask table (R115) -/

/-- A row's test is the three conditions of R112 for its opcode. -/
theorem row_matches_iff {w : Word} {row : OpcodeRow} (hrow : row ∈ opcodeTable) :
    w &&& row.mask = row.mtch ↔
      opField w = row.op.code ∧ rsvdField w = 0 ∧ row.op.unusedZero w = true := by
  obtain ⟨⟨hopM, hop⟩, ⟨hbaM, hba⟩, ⟨hbbM, hbb⟩, ⟨hpaM, hpa⟩, ⟨hpbM, hpb⟩, ⟨hrsM, hrs⟩⟩ :=
    opcodeTable_fields row hrow
  have ones2 (x : BitVec 2) : x &&& 3#2 = x := BitVec.and_allOnes
  have ones3 (x : BitVec 3) : x &&& 7#3 = x := BitVec.and_allOnes
  have opOnes : opField w &&& 255#8 = opField w := BitVec.and_allOnes
  have rsvdOnes : rsvdField w &&& 16383#14 = rsvdField w := BitVec.and_allOnes
  rw [word_and_eq_iff, hopM, hop, hbaM, hba, hbbM, hbb, hpaM, hpa, hpbM, hpb, hrsM, hrs, opOnes, rsvdOnes,
    unusedField_and_iff (ones2 _), unusedField_and_iff (ones2 _), unusedField_and_iff (ones3 _),
    unusedField_and_iff (ones3 _), Opcode.unusedZero_iff]
  tauto

/-- A row matches the words that decode to its opcode. -/
theorem row_matches_iff_decode {w : Word} {row : OpcodeRow} (hrow : row ∈ opcodeTable) :
    w &&& row.mask = row.mtch ↔ ∃ i : Instr, decode w = .ok i ∧ i.opcode = row.op := by
  rw [row_matches_iff hrow]
  constructor
  · rintro ⟨hop, hrsvd, hunused⟩
    exact ⟨_, decode_eq_ok_iff.2 ⟨row.op, hop, hrsvd, hunused, rfl⟩, Opcode.build_opcode ..⟩
  · rintro ⟨i, hi, hrowOp⟩
    obtain ⟨o, hop, hrsvd, hunused, rfl⟩ := decode_eq_ok_iff.1 hi
    rw [Opcode.build_opcode] at hrowOp
    subst hrowOp
    exact ⟨hop, hrsvd, hunused⟩

/-- Every opcode has a row. -/
theorem exists_row (o : Opcode) : ∃ row ∈ opcodeTable, row.op = o := by
  cases o <;> decide

/-- An opcode has one row only. -/
theorem row_eq_of_op_eq {r1 r2 : OpcodeRow} (h1 : r1 ∈ opcodeTable) (h2 : r2 ∈ opcodeTable)
    (h : r1.op = r2.op) : r1 = r2 :=
  List.inj_on_of_nodup_map (f := OpcodeRow.op) (by decide) h1 h2 h

/-- Legality field by field (R112). -/
theorem legal_iff_fields {w : Word} : legal w = true ↔
    ∃ o : Opcode, opField w = o.code ∧ rsvdField w = 0 ∧ o.unusedZero w = true := by
  simp only [legal_iff, decode_eq_ok_iff]
  constructor
  · rintro ⟨i, o, hop, hrsvd, hunused, -⟩
    exact ⟨o, hop, hrsvd, hunused⟩
  · rintro ⟨o, hop, hrsvd, hunused⟩
    exact ⟨_, o, hop, hrsvd, hunused, rfl⟩

/-- A legal word is one that a row of the table matches (R115). -/
theorem legal_iff_row_matches {w : Word} :
    legal w = true ↔ ∃ row ∈ opcodeTable, w &&& row.mask = row.mtch := by
  rw [legal_iff]
  constructor
  · rintro ⟨i, hi⟩
    obtain ⟨row, hrow, hop⟩ := exists_row i.opcode
    exact ⟨row, hrow, (row_matches_iff_decode hrow).2 ⟨i, hi, hop.symm⟩⟩
  · rintro ⟨row, hrow, hw⟩
    obtain ⟨i, hi, -⟩ := (row_matches_iff_decode hrow).1 hw
    exact ⟨i, hi⟩

/-- An illegal word raises ILLEGAL in every state (R145). -/
theorem issue_of_not_legal {w : Word} (h : legal w = false) (s : State) :
    issue w s = .next (s.raised .illegal) := by
  obtain ⟨e, he⟩ := legal_false_iff.1 h
  rw [issue, he]
  rfl

/-- Settles O3: R112 field by field, row by row and over the whole table. -/
theorem strictDecodingIsTheMaskTest : Obligations.StrictDecodingIsTheMaskTest := by
  intro w
  refine ⟨?_, fun _ => row_matches_iff_decode, legal_iff_row_matches, issue_of_not_legal⟩
  simp only [legal_iff_fields, Opcode.unusedZero_iff]

/-- Settles O4: the word decodes to one command, whose opcode both rows have. -/
theorem opcodeRowsNeverOverlap : Obligations.OpcodeRowsNeverOverlap := by
  intro w r1 r2 h1 h2 hw1 hw2
  obtain ⟨i, hi, hop1⟩ := (row_matches_iff_decode h1).1 hw1
  obtain ⟨j, hj, hop2⟩ := (row_matches_iff_decode h2).1 hw2
  obtain rfl : i = j := Except.ok.inj (hi.symm.trans hj)
  exact row_eq_of_op_eq h1 h2 (hop1.symm.trans hop2)

end Sys2Proof.Machine

/-! SUPPORT. The host's pseudo-instructions of R120, step by step: what each register write and each command of
an expansion leaves. -/

namespace Sys2Proof.Machine

/-! ### The steps of an expansion -/

/-- A write to CMD of a command's word runs the command (R140, R141). -/
theorem step_command (s : State) (i : Instr) (rest : List Event) :
    step { s with pending := command i :: rest } = exec i { s with pending := rest } := by
  have hissue : issue (encode i) { s with pending := rest } = exec i { s with pending := rest } := by
    rw [issue, decodeOfEncode i]
  exact hissue

theorem step_regWrite_arg (s : State) (k : ArgIx) (v : Word) (rest : List Event) :
    step { s with pending := regWrite (argOffset k) v :: rest } =
      .next ({ s with pending := rest }.setArg k v) := by
  rw [step_hostWrite rfl (by simp only [argOffset]; omega) (by simp only [argOffset]; omega)
    (by simp only [argOffset]; omega), argOffset, hostReg_arg, hostWriteReg]

theorem step_regWrite_patLen (s : State) (k : PatIx) (v : Word) (rest : List Event) :
    step { s with pending := regWrite (patLenOffset k) v :: rest } =
      .next ({ s with pending := rest }.setPat k ((s.pats[k]).setLen v)) := by
  rw [step_hostWrite rfl (by simp only [patLenOffset]; omega) (by simp only [patLenOffset]; omega)
    (by simp only [patLenOffset]; omega), patLenOffset, hostReg_patLen, hostWriteReg]

theorem step_regWrite_patBits (s : State) (k : PatIx) (v : Word) (rest : List Event) :
    step { s with pending := regWrite (patBitsOffset k) v :: rest } =
      .next ({ s with pending := rest }.setPat k { s.pats[k] with bits := v }) := by
  rw [step_hostWrite rfl (by simp only [patBitsOffset]; omega) (by simp only [patBitsOffset]; omega)
    (by simp only [patBitsOffset]; omega), patBitsOffset, hostReg_patBits, hostWriteReg]

/-- A run goes on after a write to an argument register. -/
theorem run_regWrite_arg (n : Nat) (s : State) (k : ArgIx) (v : Word) (rest : List Event) :
    Sys2Proof.core.run (n + 1) { s with pending := regWrite (argOffset k) v :: rest } =
      Sys2Proof.core.run n { s.setArg k v with pending := rest } :=
  core_run_succ (step_regWrite_arg s k v rest)

/-- `MNEM fields, #a0`: the command runs with ARG0 set (R120). -/
theorem run_macroArg1 {s t : State} {i : Instr} {a0 : Word} {rest : List Event}
    (h : exec i { s.setArg 0 a0 with pending := rest } = .next t) :
    Sys2Proof.core.run 2 { s with pending := macroArg1 i a0 ++ rest } = .next t :=
  (run_regWrite_arg 1 s 0 a0 (command i :: rest)).trans
    (core_run_succ ((step_command (s.setArg 0 a0) i rest).trans h))

/-- `MNEM fields, #a0, #a1`: the command runs with ARG0 and ARG1 set (R120). -/
theorem run_macroArg2 {s t : State} {i : Instr} {a0 a1 : Word} {rest : List Event}
    (h : exec i { (s.setArg 0 a0).setArg 1 a1 with pending := rest } = .next t) :
    Sys2Proof.core.run 3 { s with pending := macroArg2 i a0 a1 ++ rest } = .next t :=
  (run_regWrite_arg 2 s 0 a0 (regWrite (argOffset 1) a1 :: command i :: rest)).trans <|
    (run_regWrite_arg 1 (s.setArg 0 a0) 1 a1 (command i :: rest)).trans
      (core_run_succ ((step_command ((s.setArg 0 a0).setArg 1 a1) i rest).trans h))

/-! ### `PAT k = "s"` -/

/-- The register that holds a literal's length and number has the literal's elements (R12, R34). -/
theorem elems_of_literal {lit : List Bool} (h : lit.length ≤ 32) (p : PatReg) :
    { p.setLen (BitVec.ofNat 32 lit.length) with bits := BitVec.ofNat 32 (literalNat lit) }.elems = lit := by
  have hlen : (p.setLen (BitVec.ofNat 32 lit.length)).plen = lit.length := by
    rw [PatReg.setLen_plen, BitVec.toNat_ofNat]
    omega
  apply List.ext_getElem
  · rw [PatReg.elems_length]
    exact hlen
  · intro i _ hi
    have h32 : i < 32 := by omega
    simp only [PatReg.elems, List.getElem_map, List.getElem_range, PatReg.elem, BitVec.getLsbD_ofNat, h32,
      decide_true, Bool.true_and, literalNat_testBit, List.getD_eq_getElem _ _ hi]

/-- Settles O59: PATLEN and PATBITS are written one after the other, and together they spell the literal. -/
theorem patMacroLoadsTheLiteral : Obligations.PatMacroLoadsTheLiteral := by
  intro s k lit rest hlen
  let u := { s with pending := rest }.setPat k ((s.pats[k]).setLen (BitVec.ofNat 32 lit.length))
  let p : PatReg := { u.pats[k] with bits := BitVec.ofNat 32 (literalNat lit) }
  have hu : u.pats[k] = (s.pats[k]).setLen (BitVec.ofNat 32 lit.length) := by
    rw [State.setPat_get, if_pos rfl]
  have hrun : Sys2Proof.core.run 2 { s with pending := macroPat k lit ++ rest } = .next (u.setPat k p) :=
    (core_run_succ (step_regWrite_patLen s k _ _)).trans (core_run_succ (step_regWrite_patBits u k _ rest))
  refine ⟨u.setPat k p, hrun, ?_, fun j hj => ?_, rfl⟩
  · rw [State.patElems, State.setPat_get, if_pos rfl]
    simp only [p, hu]
    exact elems_of_literal hlen _
  · rw [State.setPat_get, if_neg hj, State.setPat_get, if_neg hj]

/-! ### `LOAD bN, [h0, …, hm], nbits` -/

/-- `WRBYTE` within the capacity writes the byte and finishes with OK (R167). -/
theorem exec_wrbyte_of_lt {s : State} {b : BufIx} (h : s.argNat 0 < s.cap b) : exec (.wrbyte b) s =
    .next ((s.setData b (memWrite (s.buf b).data (s.argNat 0) (s.argByte 1))).setStatus
      (finishedStatus s .ok)) := by
  simp only [exec, execWrbyte, if_neg (Nat.not_le.2 h)]
  rfl

/-- `SETLEN` within the capacity writes numbits and finishes with OK (R165). -/
theorem exec_setlen_of_le {s : State} {b : BufIx} (h : s.argNat 0 ≤ s.capBits b) : exec (.setlen b) s =
    .next ((s.setNumbits b (s.argNat 0)).setStatus (finishedStatus s .ok)) := by
  simp only [exec, execSetlen, if_neg (Nat.not_lt.2 h)]
  rfl

/-- `t` is `s` with `bytes` written to BUF b from index `i` on, by commands that raised no error. -/
structure BytesLoaded (b : BufIx) (i : Nat) (bytes : List Byte) (s t : State) : Prop where
  inv : t.Inv
  cfg : t.cfg = s.cfg
  bytes : ∀ j, t.readByte b j = if j < i then s.readByte b j else bytes.getD (j - i) (s.readByte b j)
  others : OtherBufsSame b s t
  fault : statusFault t.status = statusFault s.status

theorem BytesLoaded.nil {b : BufIx} {i : Nat} {s : State} (h : s.Inv) (rest : List Event) :
    BytesLoaded b i [] s { s with pending := rest } where
  inv := h.of_outside rfl
  cfg := rfl
  bytes _ := by simp [State.readByte, State.buf]
  others _ _ := rfl
  fault := rfl

/-- The first byte written, then the others from the next index on. -/
theorem BytesLoaded.cons {b : BufIx} {i : Nat} {x : Byte} {xs : List Byte} {s u t : State}
    (hx : BytesLoaded b i [x] s u) (hxs : BytesLoaded b (i + 1) xs u t) : BytesLoaded b i (x :: xs) s t where
  inv := hxs.inv
  cfg := hxs.cfg.trans hx.cfg
  bytes j := by
    rw [hxs.bytes j, hx.bytes j]
    rcases Nat.lt_trichotomy j i with hlt | rfl | hgt
    · simp [hlt, Nat.lt_succ_of_lt hlt]
    · simp
    · obtain ⟨k, rfl⟩ := Nat.exists_eq_add_of_lt hgt
      have hk : i + k + 1 - i = k + 1 := by omega
      have hk' : i + k + 1 - (i + 1) = k := by omega
      simp [hk, hk', Nat.not_lt.2 (Nat.le_of_lt hgt)]
  others c hc := (hxs.others c hc).trans (hx.others c hc)
  fault := hxs.fault.trans hx.fault

/-- One byte of `LOAD`: ARG0 and ARG1 are set, and WRBYTE writes ARG1[7:0] (R120, R167). -/
theorem run_loadByte {s : State} {b : BufIx} {i : Nat} {x : Byte} {rest : List Event} (h : s.Inv)
    (hi : i < s.cap b) : ∃ t : State, Sys2Proof.core.run 3
      { s with pending := macroArg2 (.wrbyte b) (BitVec.ofNat 32 i) (x.setWidth 32) ++ rest } = .next t ∧
      t.pending = rest ∧ BytesLoaded b i [x] s t := by
  let v := { (s.setArg 0 (BitVec.ofNat 32 i)).setArg 1 (x.setWidth 32) with pending := rest }
  have hv : v.Inv := h.of_outside rfl
  have hindex : v.argNat 0 = i := by
    have hcap := h.capBits_lt b
    rw [State.argNat, State.setArg_get, if_neg (by decide), State.setArg_get, if_pos rfl,
      BitVec.toNat_ofNat, Nat.mod_eq_of_lt (by omega)]
  have hbyte : v.argByte 1 = x := by
    rw [State.argByte, State.setArg_get, if_pos rfl, BitVec.setWidth_setWidth_of_le x (by omega),
      BitVec.setWidth_eq]
  have hexec := exec_wrbyte_of_lt (hindex.trans_lt hi : v.argNat 0 < v.cap b)
  rw [hindex, hbyte] at hexec
  refine ⟨_, run_macroArg2 hexec, rfl, exec_inv _ _ _ hv hexec, rfl, fun j => ?_,
    State.setData_otherBufsSame v b _, statusFault_setErr ..⟩
  rw [State.setStatus_readByte_eq, State.readByte, State.buf_setData_self]
  rcases Nat.lt_trichotomy j i with hlt | rfl | hgt
  · rw [memRead_memWrite_ne (by omega), if_pos hlt]
    rfl
  · rw [memRead_memWrite_self (hv.bufs b).canonical]
    simp
  · have hj : [x].length ≤ j - i := by simp only [List.length_singleton]; omega
    rw [memRead_memWrite_ne (by omega), if_neg (by omega), List.getD_eq_default _ _ hj]
    rfl

/-- The WRBYTE part of `LOAD`, byte after byte (R120). -/
theorem run_macroLoadBytes {s : State} {b : BufIx} {rest : List Event} (bytes : List Byte) (i : Nat) (h : s.Inv)
    (hcap : i + bytes.length ≤ s.cap b) : ∃ t : State,
      Sys2Proof.core.run (3 * bytes.length) { s with pending := macroLoadBytes b i bytes ++ rest } = .next t ∧
      t.pending = rest ∧ BytesLoaded b i bytes s t := by
  induction bytes generalizing s i with
  | nil => exact ⟨_, rfl, rfl, .nil h rest⟩
  | cons x xs ih =>
    rw [List.length_cons] at hcap
    obtain ⟨u, hrun, hpending, hx⟩ :=
      run_loadByte (x := x) (rest := macroLoadBytes b (i + 1) xs ++ rest) h (i := i) (b := b) (by omega)
    have hcapU : i + 1 + xs.length ≤ u.cap b := by
      rw [State.cap, hx.cfg, ← State.cap]
      omega
    obtain ⟨t, hrest, ht, hxs⟩ := ih (i + 1) hx.inv hcapU
    refine ⟨t, ?_, ht, hx.cons hxs⟩
    rw [macroLoadBytes, List.append_assoc, List.length_cons, Nat.mul_add_one, Nat.add_comm,
      core_run_add _ _ _ _ hrun, ← hrest, ← hpending]

/-- Settles O60: the bytes by induction along the list, then SETLEN. -/
theorem loadMacroLoadsTheBytes : Obligations.LoadMacroLoadsTheBytes := by
  intro s b bytes nbits rest h hlen hbits
  obtain ⟨u, hrun, hpending, hu⟩ := run_macroLoadBytes (s := s) (b := b)
    (rest := macroArg1 (.setlen b) nbits ++ rest) bytes 0 h (by omega)
  let v := { u.setArg 0 nbits with pending := rest }
  have hv : v.argNat 0 = nbits.toNat := by rw [State.argNat, State.setArg_get, if_pos rfl]
  have hbitsV : v.argNat 0 ≤ v.capBits b := by
    rw [hv, State.capBits, show v.cfg = s.cfg from hu.cfg]
    exact hbits
  have hsetlen := run_macroArg1 (exec_setlen_of_le hbitsV)
  let t := (v.setNumbits b (v.argNat 0)).setStatus (finishedStatus v .ok)
  have hread (i : Nat) : t.readByte b i = bytes.getD i (s.readByte b i) := by
    have hi := hu.bytes i
    rw [if_neg (Nat.not_lt_zero i), Nat.sub_zero] at hi
    rw [← hi, State.setStatus_readByte_eq, State.readByte, State.data_setNumbits]
    rfl
  refine ⟨t, ?_, fun i hi => ?_, fun i hi => ?_, ?_, ?_, statusErr_setErr .., ?_, rfl⟩
  · rw [macroLoad, List.append_assoc, core_run_add _ _ _ _ hrun, ← hsetlen, ← hpending]
  · rw [hread, List.getD_eq_getElem _ _ hi, List.getElem?_eq_getElem hi]
  · rw [hread, List.getD_eq_default _ _ hi]
  · rw [State.setStatus_numbits_eq, State.numbits, State.buf_setNumbits_self, hv, BitVec.ofNat_toNat,
      BitVec.setWidth_eq]
  · exact fun c hc => (v.setNumbits_otherBufsSame b _ c hc).trans (hu.others c hc)
  · exact (statusFault_setErr ..).trans hu.fault

end Sys2Proof.Machine

/-! SUPPORT. How a command is issued (40_command_issue.md, R140 to R145): the write to CMD, the illegal word, NOP,
and when a step of the machine has a next state. -/

namespace Sys2Proof.Machine

/-! ### A write to CMD -/

/-- A write to CMD issues the word written (R140). -/
theorem step_hostWrite_cmd {s : State} {rest : List Event} {w : Word}
    (hp : s.pending = .hostWrite 32 0x000 w :: rest) : step s = issue w { s with pending := rest } := by
  rw [step_of_pending hp, runEvent, hostWrite, if_pos (hostDefined_iff.2 (by decide))]
  rfl

/-- A legal word issues the command it decodes to (R141). -/
theorem issue_of_decode {w : Word} {i : Instr} (h : decode w = .ok i) (s : State) : issue w s = exec i s := by
  rw [issue, h]

/-- Settles O6: the write issues the word, and the word is legal. -/
theorem stepRunsTheDecodedCommand : Obligations.StepRunsTheDecodedCommand := by
  intro s rest w i hp hw
  rw [step_hostWrite_cmd hp, issue_of_decode hw]

/-! ### STATUS after `raise Error` and after NOP -/

theorem State.raised_err (s : State) (e : Err) : statusErr (s.raised e).status = e.code :=
  (statusErr_setFault _).trans (statusErr_setErr ..)

theorem State.raised_fault (s : State) (e : Err) : statusFault (s.raised e).status = true :=
  statusFault_setFault _

theorem exec_nop (s : State) : exec .nop s = .next (s.setStatus (finishedStatus s .ok)) := rfl

/-- Settles O18: NOP is `finish(OK)` on the state as it is. -/
theorem nopOnlyClearsErr : Obligations.NopOnlyClearsErr := by
  refine ⟨fun s => ⟨_, exec_nop s, statusErr_setErr .., statusFault_setErr .., rfl⟩, fun s hs => ?_⟩
  rw [exec_nop, finishedStatus, hs]
  rfl

/-! ### An illegal word -/

/-- No two opcodes share a code (R114). -/
theorem opcode_eq_of_code_eq {o p : Opcode} (h : o.code = p.code) : o = p :=
  Option.some.inj (by rw [← Opcode.ofCode_code, h, Opcode.ofCode_code])

/-- A legal word has none of R145's reasons. Since OP names one opcode only, the unused fields are 0 for whichever
opcode the third reason looks at. -/
theorem fields_of_legal {w : Word} (h : legal w = true) :
    (∃ o : Opcode, opField w = o.code) ∧ rsvdField w = 0 ∧
      ∀ o : Opcode, opField w = o.code → o.unusedZero w = true := by
  obtain ⟨o, hop, hrsvd, hunused⟩ := legal_iff_fields.1 h
  refine ⟨⟨o, hop⟩, hrsvd, fun p hp => ?_⟩
  obtain rfl : o = p := opcode_eq_of_code_eq (hop.symm.trans hp)
  exact hunused

/-- Settles O7: each of the three reasons contradicts a field of a legal word, and the issue of a word that is not
legal is `raise Error(ILLEGAL)`. -/
theorem illegalWordRaisesIllegal : Obligations.IllegalWordRaisesIllegal := by
  refine ⟨fun s w hreason => ?_, fun s hs => ?_⟩
  · have hillegal : legal w = false := by
      rw [← Bool.not_eq_true]
      intro hlegal
      obtain ⟨⟨o, hop⟩, hrsvd, hunused⟩ := fields_of_legal hlegal
      rcases hreason with hnone | hbits | ⟨p, hp, hfield⟩
      · exact hnone o hop
      · exact hbits hrsvd
      · obtain ⟨hba, hbb, hpa, hpb⟩ := Opcode.unusedZero_iff.1 (hunused p hp)
        rcases hfield with ⟨hu, hne⟩ | ⟨hu, hne⟩ | ⟨hu, hne⟩ | ⟨hu, hne⟩
        · exact hne (hba hu)
        · exact hne (hbb hu)
        · exact hne (hpa hu)
        · exact hne (hpb hu)
    exact ⟨_, issue_of_not_legal hillegal s, s.raised_err .illegal, s.raised_fault .illegal, rfl⟩
  · refine ⟨_, issue_of_not_legal (by decide) s, ?_, rfl⟩
    rw [State.raised, hs]
    rfl

/-! ### When a step has a next state -/

/-- A command that tests a bound has a next state on both sides of it (R142). -/
theorem raise_or_finish_next (p : Prop) [Decidable p] (s u : State) (e f : Err) :
    ∃ t : State, (if p then s.raise e else u.finish f) = .next t := by
  split
  · exact ⟨_, s.raise_eq e⟩
  · exact ⟨_, u.finish_eq f⟩

/-- Every command has a next state, from every state: it ends in `finish` or in `raise Error`, and nothing in the
core faults (R142, R340). -/
theorem exec_total (i : Instr) (s : State) : ∃ t : State, exec i s = .next t := by
  cases i with
  | nop | fill _ _ | revb _ | matchp _ _ | lcdec _ _ _ _ | dmdec _ _ | scan | sreset =>
    exact ⟨_, State.finish_eq _ .ok⟩
  | getbit _ | setbit _ | setlen _ | rdbyte _ | wrbyte _ | crc8 _ => exact raise_or_finish_next ..
  | seek b k =>
    simp only [exec, execSeek]
    split
    · exact ⟨_, State.finish_eq _ .ok⟩
    · exact ⟨_, State.finish_eq _ .notFound⟩
  | dispatch b =>
    simp only [exec, execDispatch]
    split
    · exact ⟨_, State.finish_eq _ .ok⟩
    · exact ⟨_, State.finish_eq _ .noMatch⟩

/-- Every word has a next state, legal or not (R141, R145). -/
theorem issue_total (w : Word) (s : State) : ∃ t : State, issue w s = .next t := by
  cases hw : decode w with
  | ok i => exact issue_of_decode hw s ▸ exec_total i s
  | error e => exact ⟨_, issue_of_not_legal (legal_false_iff.2 ⟨e, hw⟩) s⟩

theorem hostRead_next_iff {width offset : Nat} {s : State} :
    (∃ t : State, hostRead width offset s = .next t) ↔ hostDefined width offset = true := by
  rw [hostRead]
  split <;> simp [*]

/-- Within the contract of R88 the write has a next state: at CMD because every word has one, elsewhere because a
register write has no other outcome. -/
theorem hostWrite_next_iff {width offset : Nat} {v : Word} {s : State} :
    (∃ t : State, hostWrite width offset v s = .next t) ↔ hostDefined width offset = true := by
  rw [hostWrite]
  split
  · refine iff_of_true ?_ ‹_›
    split
    · exact issue_total v s
    · exact ⟨_, rfl⟩
  · simp [*]

/-- An event has a next state exactly when it keeps the contract (R88, R97). -/
theorem runEvent_next_iff {e : Event} {s : State} :
    (∃ t : State, runEvent e s = .next t) ↔ e.inContract = true := by
  cases e with
  | hostRead w o => exact hostRead_next_iff
  | hostWrite w o v => exact hostWrite_next_iff
  | produce l d => exact iff_of_true ⟨_, rfl⟩ rfl
  | publishUnwritten => simp [runEvent, Event.inContract]
  | reset => exact iff_of_true ⟨_, rfl⟩ rfl

/-- An idle machine stays as it is (R354). -/
theorem step_of_idle {s : State} (hp : s.pending = []) : step s = .next s := by
  simp only [step, runNext, hp]

/-- Settles O8: an idle step always answers, and a step with an event pending answers as its event does. -/
theorem onlyBrokenContractsAreRefused : Obligations.OnlyBrokenContractsAreRefused := by
  intro s
  cases hp : s.pending with
  | nil => exact iff_of_true ⟨s, step_of_idle hp⟩ rfl
  | cons e rest =>
    rw [step_of_pending hp, List.head?_cons, Option.all_some]
    exact runEvent_next_iff

end Sys2Proof.Machine

/-! SUPPORT. The BitBuffer commands (41_bitbuffer.md, R160 to R168): how each of them ends, what the buffer reads
after it, and what it leaves alone. -/

namespace Sys2Proof.Machine

/-! ### How a command ends, for every command -/

/-- A command whose writes are made ends in `finish` (R142): with `exec_next`, `Completes` says exactly what a
command within its bounds does. -/
theorem Completes.exec_eq {s u : State} {i : Instr} {e : Err} (h : Completes s i u e) :
    exec i s = .next (u.setStatus (finishedStatus u e)) := by
  cases h with
  | nop | fill | revb | matchp | lcdec | dmdec | scan | sreset => subst_vars; rfl
  | getbit h | setbit h | rdbyte h | wrbyte h => exact if_neg (Nat.not_le.2 h)
  | setlen h | crc8 h => exact if_neg (Nat.not_lt.2 h)
  | seekFound h | seekNotFound h => rw [exec, execSeek, h]; rfl
  | dispatchClaimed h | dispatchUnclaimed h => rw [exec, execDispatch]; simp only [h]; rfl

/-- No command completes where R344 gives OUT_OF_BOUNDS alone. -/
theorem Completes.possibleErrs_ne {s u : State} {i : Instr} {e : Err} (h : Completes s i u e) :
    possibleErrs i s ≠ [.outOfBounds] := by
  cases h with
  | getbit h | setbit h | rdbyte h | wrbyte h => simp [possibleErrs, Nat.not_le.2 h]
  | setlen h | crc8 h => simp [possibleErrs, Nat.not_lt.2 h]
  | _ => simp [possibleErrs]

/-- A command whose operands are out of its bounds raises (R160, R251, R342). -/
theorem exec_of_outOfBounds {i : Instr} {s : State} (h : possibleErrs i s = [.outOfBounds]) :
    exec i s = .next (s.raised .outOfBounds) := by
  obtain ⟨t, ht⟩ := exec_total i s
  rcases exec_next ht with ⟨-, rfl⟩ | ⟨u, e, hu, -⟩
  · exact ht
  · exact absurd h hu.possibleErrs_ne

/-- Settles O20: past its bound each of the six has OUT_OF_BOUNDS as its only outcome. -/
theorem operandsOutOfBoundsRaise : Obligations.OperandsOutOfBoundsRaise := fun _ _ =>
  ⟨fun h => ⟨exec_of_outOfBounds (if_pos h), exec_of_outOfBounds (if_pos h)⟩,
    fun h => exec_of_outOfBounds (if_pos h),
    fun h => ⟨exec_of_outOfBounds (if_pos h), exec_of_outOfBounds (if_pos h)⟩,
    fun h => exec_of_outOfBounds (if_pos h)⟩

/-! ### Values stored in registers -/

/-- A bit stored in a 32-bit register (R33, R161). -/
theorem ofNat_bool_toNat (v : Bool) : BitVec.ofNat 32 v.toNat = bitWord v := by
  cases v <;> rfl

/-- Settles O19: the three ways to complete, with the stored number read back as a word. -/
theorem getbitRdbyteSetlenComplete : Obligations.GetbitRdbyteSetlenComplete := by
  intro s b
  refine ⟨fun h => ?_, fun h => ?_, fun h => ⟨_, exec_setlen_of_le h, ?_, s.data_setNumbits .., ?_⟩⟩
  · rw [(Completes.getbit h).exec_eq, State.setRes, ofNat_bool_toNat]
    rfl
  · rw [(Completes.rdbyte h).exec_eq, State.setRes, BitVec.ofNat_toNat]
    rfl
  · rw [State.setStatus_buf_eq, State.buf_setNumbits_self, State.argNat, BitVec.ofNat_toNat, BitVec.setWidth_eq]
    rfl
  · exact ⟨s.setNumbits_otherBufsSame b _, rfl, rfl, rfl⟩

/-! ### What a buffer reads after its bytes are replaced -/

@[simp] theorem State.readByte_setData_self (s : State) (b : BufIx) (m : Memory) (i : Nat) :
    (s.setData b m).readByte b i = memRead m i := by
  rw [State.readByte, State.buf_setData_self]

@[simp] theorem State.readBit_setData_self (s : State) (b : BufIx) (m : Memory) (p : Nat) :
    (s.setData b m).readBit b p = bitRead m p := by
  rw [State.readBit, State.buf_setData_self]

/-- Bit k of byte i in stream order, the most significant first (R82). -/
theorem bitRead_eq_getLsbD (m : Memory) (i : Nat) {k : Nat} (hk : k < 8) :
    bitRead m (8 * i + k) = (memRead m i).getLsbD (7 - k) := by
  have hbyte : (8 * i + k) / 8 = i := by omega
  have hbit : (8 * i + k) % 8 = k := by omega
  rw [bitRead, hbyte, hbit]

/-- The old bytes put back restore every buffer. -/
theorem State.bufs_setData_restore {s t : State} {b : BufIx} (hothers : OtherBufsSame b s t)
    (hnumbits : (t.buf b).numbits = (s.buf b).numbits) : (t.setData b (s.buf b).data).bufs = s.bufs := by
  refine State.bufs_ext fun c => ?_
  by_cases hc : c = b
  · subst hc
    rw [State.buf_setData_self]
    exact congrArg (BitBuffer.mk _) hnumbits
  · rw [t.setData_otherBufsSame b _ c hc, hothers c hc]

/-! ### SETBIT -/

/-- Settles O21: SETBIT is one bit write. -/
theorem setbitWritesOneBit : Obligations.SetbitWritesOneBit := by
  intro s b hinv h
  have hread (q : Nat) := s.readBit_writeBit b b (s.argNat 0) q (s.argBit 1) (hinv.bufs b).canonical
  refine ⟨_, (Completes.setbit h).exec_eq, ?_, fun p hp => ?_, s.numbits_writeBit ..,
    s.writeBit_otherBufsSame b _ _, rfl, rfl, rfl⟩
  · exact (hread _).trans (if_pos ⟨rfl, rfl⟩)
  · exact (hread p).trans (if_neg fun hsame => hp hsame.2)

/-- Settles O22: past the capacity both raise; within it GETBIT reads what the bit write left there. -/
theorem setbitThenGetbitReturnsTheBit : Obligations.SetbitThenGetbitReturnsTheBit := by
  rintro s b v hinv rfl
  have hread (c : BufIx) (q : Nat) := s.readBit_writeBit b c (s.argNat 0) q (s.argBit 1) (hinv.bufs b).canonical
  refine ⟨fun h => ?_, fun h => ?_⟩
  · obtain ⟨hraise, -⟩ := operandsOutOfBoundsRaise s b
    obtain ⟨hget, hset⟩ := hraise h
    exact ⟨_, _, hget, s.raised_err _, hset, s.raised_err _⟩
  · let t := (s.writeBit b (s.argNat 0) (s.argBit 1)).setStatus (finishedStatus s .ok)
    have hget := (Completes.getbit (s := t) (b := b) h).exec_eq
    have hbit : t.readBit b (t.argNat 0) = s.argBit 1 := (hread b _).trans (if_pos ⟨rfl, rfl⟩)
    rw [hbit] at hget
    exact ⟨t, _, (Completes.setbit h).exec_eq, hget, ofNat_bool_toNat _,
      fun c p hne => (hread c p).trans (if_neg fun ⟨hc, hp⟩ => hne (Prod.ext hc hp))⟩

/-! ### FILL -/

/-- Settles O23: FILL is `fillBits`, and its count fits RES because it is at most capbits. -/
theorem fillRepeatsThePattern : Obligations.FillRepeatsThePattern := by
  intro s b k hinv
  let m := fillCount (s.argNat 0) (s.capBits b) (s.pats[k]).plen
  let f := fun i => (s.pats[k]).elem (i % (s.pats[k]).plen)
  have hread (p : Nat) : (s.setData b (fillBits f m (s.buf b).data)).readBit b p =
      if p < m then f p else s.readBit b p :=
    (s.readBit_setData_self ..).trans (bitRead_fillBits (hinv.bufs b).canonical)
  refine ⟨_, m, (Completes.fill rfl).exec_eq, rfl, fun p hp => (hread p).trans (if_pos hp),
    fun p hp => (hread p).trans (if_neg (Nat.not_lt.2 hp)), ?_, s.numbits_setData ..,
    s.setData_otherBufsSame b _, rfl, rfl⟩
  have hle : m ≤ 8 * s.cap b := fillCount_le ..
  exact (BitVec.toNat_ofNat ..).trans (Nat.mod_eq_of_lt (hle.trans_lt (hinv.capBits_lt b)))

/-! ### REVB -/

/-- Settles O24: REVB is `reverseBytes`, its own inverse on bytes within the capacity. -/
theorem revbReversesTheByteOrder : Obligations.RevbReversesTheByteOrder := by
  intro s b hinv
  let r := (s.setData b (reverseBytes (s.cap b) (s.buf b).data)).setStatus (finishedStatus s .ok)
  have hothers : OtherBufsSame b s r := s.setData_otherBufsSame b _
  have hnumbits : (r.buf b).numbits = (s.buf b).numbits := s.numbits_setData ..
  have htwice : reverseBytes (r.cap b) (r.buf b).data = (s.buf b).data := by
    rw [State.setStatus_buf_eq, State.buf_setData_self]
    exact reverseBytes_reverseBytes (hinv.bufs b).canonical (hinv.bufs b).bounded
  refine ⟨r, _, Completes.revb.exec_eq, fun j hj => ?_, hnumbits, hothers, rfl, rfl, rfl,
    Completes.revb.exec_eq, ?_⟩
  · exact (s.readByte_setData_self ..).trans (memRead_reverseBytes hj)
  · exact (congrArg (fun m => (r.setData b m).bufs) htwice).trans (State.bufs_setData_restore hothers hnumbits)

/-! ### WRBYTE -/

/-- Settles O25: WRBYTE is one byte write, and the byte's bits are read most significant first. -/
theorem wrbyteWritesOneByte : Obligations.WrbyteWritesOneByte := by
  intro s b hinv h
  have hself := memRead_memWrite_self (i := s.argNat 0) (v := s.argByte 1) (hinv.bufs b).canonical
  refine ⟨_, exec_wrbyte_of_lt h, ?_, fun k hk => ?_, fun i hi => ?_, s.numbits_setData ..,
    s.setData_otherBufsSame b _, rfl, rfl, rfl⟩
  · exact (s.readByte_setData_self ..).trans (hself.trans (BitVec.setWidth_eq_extractLsb' (by omega)))
  · have h8 : 7 - k < 8 := by omega
    rw [State.setStatus_readBit_eq, State.readBit_setData_self, bitRead_eq_getLsbD _ _ hk, hself, State.argByte,
      BitVec.getLsbD_setWidth, decide_eq_true h8, Bool.true_and]
    rfl
  · exact (s.readByte_setData_self ..).trans (memRead_memWrite_ne hi)

end Sys2Proof.Machine

/-! SUPPORT. MATCH and SEEK (42_patternsearch.md, R190 to R194): the match and seek functions on a pattern register
read as what R190 and R192 say of the state, and RES as it holds their answers. -/

namespace Sys2Proof.Machine

section

variable {s : State} {b : BufIx} {k : PatIx}

/-! ### The functions on a pattern register -/

/-- The match function fails exactly where R190's conditions do. -/
theorem matchAt_patElems_eq_false {pos : Nat} :
    matchAt (s.buf b) pos (s.patElems k) = false ↔ ¬ s.matchesAt b k pos := by
  rw [← matchAt_patElems, Bool.not_eq_true]

/-- R192's NOT_FOUND, in R190's terms. -/
theorem seekFrom_patElems_eq_none {start mx : Nat} :
    seekFrom (s.buf b) start mx (s.patElems k) = none ↔
      ∀ p, start ≤ p → p < start + mx → ¬ s.matchesAt b k p := by
  simp only [seekFrom_none_iff, matchAt_patElems_eq_false]

/-- R192's position found, in R190's terms. -/
theorem seekFrom_patElems_eq_some {start mx r : Nat} :
    seekFrom (s.buf b) start mx (s.patElems k) = some r ↔
      start ≤ r ∧ r < start + mx ∧ s.matchesAt b k r ∧ ∀ p, start ≤ p → p < r → ¬ s.matchesAt b k p := by
  rw [← matchAt_patElems]
  simp only [← matchAt_patElems_eq_false]
  exact ⟨seekFrom_some, fun ⟨hstart, hend, hmatch, hlow⟩ => seekFrom_eq_some hstart hend hmatch hlow⟩

/-- A position found is below NOT_FOUND: it is at most numbits, and so at most a multiple of 8 below 2^32 (D12). -/
theorem seekFrom_lt_notFound (hinv : s.Inv) {start mx r : Nat} {pat : List Bool}
    (h : seekFrom (s.buf b) start mx pat = some r) : r < notFound.toNat := by
  have hr := seekFrom_le_numbits h
  have hnumbits := (hinv.bufs b).numbits
  have hcap := hinv.capBits_lt b
  have hnotFound : notFound.toNat = 4294967295 := rfl
  omega

/-! ### The commands -/

/-- SEEK changes no buffer, and RES tells apart and holds every answer of the seek function (R192, R193). -/
theorem exec_seek_res (hinv : s.Inv) : ∃ u : State, exec (.seek b k) s = .next u ∧ u.bufs = s.bufs ∧
    seekFrom (s.buf b) (s.argNat 0) (s.argNat 1) (s.patElems k) =
      if u.res = notFound then none else some u.res.toNat := by
  cases hs : seekFrom (s.buf b) (s.argNat 0) (s.argNat 1) (s.patElems k) with
  | none => exact ⟨_, (Completes.seekNotFound hs).exec_eq, rfl, rfl⟩
  | some r =>
    have hr := seekFrom_lt_notFound hinv hs
    have hres : (BitVec.ofNat 32 r).toNat = r :=
      (BitVec.toNat_ofNat ..).trans (Nat.mod_eq_of_lt (hr.trans notFound.isLt))
    have hne : BitVec.ofNat 32 r ≠ notFound := fun he => hr.ne (hres.symm.trans (congrArg BitVec.toNat he))
    exact ⟨_, (Completes.seekFound hs).exec_eq, rfl, (congrArg some hres.symm).trans (if_neg hne).symm⟩

end

/-- Settles O26: RES is the match function's answer, read through `matchAt_patElems`. -/
theorem matchComparesWithinNumbits : Obligations.MatchComparesWithinNumbits := by
  intro s b k
  refine ⟨_, Completes.matchp.exec_eq, fun hmatch => ?_, fun hmatch => ?_, rfl⟩
  · rw [matchAt_patElems.2 hmatch]
    rfl
  · rw [matchAt_patElems_eq_false.2 hmatch]
    rfl

/-- Settles O27: the two ways SEEK completes. -/
theorem seekFindsTheLowestMatch : Obligations.SeekFindsTheLowestMatch := fun _ _ _ _ =>
  ⟨fun _ hstart hend hmatch hlow =>
      (Completes.seekFound (seekFrom_patElems_eq_some.2 ⟨hstart, hend, hmatch, hlow⟩)).exec_eq,
    fun hnone => (Completes.seekNotFound (seekFrom_patElems_eq_none.2 hnone)).exec_eq⟩

/-- Settles O28: MATCH by O26, SEEK by what RES says of the seek function's answer. -/
theorem searchLaws : Obligations.SearchLaws := by
  intro s b k hinv
  obtain ⟨t, ht, -, hfalse, hframe⟩ := matchComparesWithinNumbits s b k
  obtain ⟨u, hu, hbufs, hseek⟩ := exec_seek_res (b := b) (k := k) hinv
  refine ⟨t, u, ht, hu, fun hpast => hfalse fun ⟨hwithin, _⟩ => Nat.not_lt.2 hwithin hpast, fun hne => ?_, ?_,
    by rw [hframe], hbufs⟩
  · exact seekFrom_patElems_eq_some.1 (hseek.trans (if_neg hne))
  · rw [← seekFrom_patElems_eq_none, hseek]
    simp

end Sys2Proof.Machine

/-! SUPPORT. LCDEC (43_linecode.md, R210 to R213): what it leaves, read through the line-code loop's specification;
then, for non-empty templates, the decode as a chain of symbols of the source as it stood, which is the same in
place and not (R212) and which an encoded sequence determines (R213). -/

namespace Sys2Proof.Machine

/-! ### The command -/

theorem State.patElems_length (s : State) (k : PatIx) : (s.patElems k).length = (s.pats[k]).plen :=
  PatReg.elems_length _

/-- A new numbits leaves every bit alone. -/
@[simp] theorem State.readBit_setNumbits (s : State) (b c : BufIx) (n p : Nat) :
    (s.setNumbits b n).readBit c p = s.readBit c p :=
  congrArg (bitRead · p) (s.data_setNumbits b c n)

/-- Of the state after it, a match during the decode reads the destination's bits alone. -/
theorem matchesDuring_congr {s t u : State} {b d : BufIx} {k : PatIx} {n pos : Nat}
    (h : t.readBit d = u.readBit d) : MatchesDuring s t b d k n pos ↔ MatchesDuring s u b d k n pos := by
  simp only [MatchesDuring, h]

/-- Settles O29: the loop's specification, the count fitting RES and numbits because it is at most capbits. -/
theorem lcdecFollowsTheLineCode : Obligations.LcdecFollowsTheLineCode := by
  intro s b d z o hinv
  obtain ⟨cur, hspec⟩ := lcLoop_spec b d (s.patElems z) (s.patElems o) (s.capBits d) s (s.argNat 0) 0
    (hinv.bufs d) (by omega)
  generalize hr : lcLoop b d (s.patElems z) (s.patElems o) (s.capBits d) s (s.argNat 0) 0 = r at hspec
  have hc : Completes s (.lcdec b d z o) ((r.1.setNumbits d r.2).setRes r.2) .ok := .lcdec hr.symm
  obtain ⟨hframe, hothers⟩ := hc.lcdec_frame
  let t := ((r.1.setNumbits d r.2).setRes r.2).setStatus (finishedStatus s .ok)
  have hexec : exec (.lcdec b d z o) s = .next t := by
    have hstatus : r.1.status = s.status := by rw [hspec.dec.frame]
    rw [hc.exec_eq, finishedStatus, State.setRes_status, State.setNumbits_status, hstatus]
    rfl
  have hread : t.readBit d = r.1.readBit d := funext fun p => by simp [t]
  have hle : r.2 ≤ s.capBits d := by simpa using hspec.room_le
  have hcount : (BitVec.ofNat 32 r.2).toNat = r.2 :=
    (BitVec.toNat_ofNat ..).trans (Nat.mod_eq_of_lt (hle.trans_lt (hinv.capBits_lt d)))
  refine ⟨t, r.2, cur, hexec, hspec.start, hle, fun k hk => ?_, ?_, hcount, ?_, fun p hp => ?_,
    hothers, rfl, ?_⟩
  · simpa only [LcEmits, duringMatch_patElems, State.patElems_length, matchesDuring_congr hread, hread] using
      hspec.emits k (Nat.zero_le k) hk
  · simpa only [duringMatch_patElems, matchesDuring_congr hread, Nat.zero_add] using hspec.stop
  · rw [State.numbits, State.setStatus_buf_eq, State.setRes_buf_eq, State.buf_setNumbits_self]
    exact hcount
  · rw [hread]
    exact hspec.kept p (.inr hp)
  · exact congrArg (State.setStatus · (finishedStatus s .ok)) hframe

/-! ### A match while the decode runs -/

/-- The empty template matches at every position up to numbits (R190). -/
theorem matchesDuring_of_empty {s t : State} {b d : BufIx} {k : PatIx} {n pos : Nat} (hk : (s.pats[k]).plen = 0)
    (hpos : pos ≤ s.numbits b) : MatchesDuring s t b d k n pos :=
  ⟨by omega, fun i hi => by omega⟩

/-- A match at or past the output reads the source as it stood (R212). -/
theorem matchesDuring_iff_matchesAt {s t : State} {b d : BufIx} {k : PatIx} {n pos : Nat} (h : n ≤ pos) :
    MatchesDuring s t b d k n pos ↔ s.matchesAt b k pos := by
  have hread (i : Nat) : (if b = d ∧ pos + i < n then t.readBit d (pos + i) else s.readBit b (pos + i)) =
      s.readBit b (pos + i) := if_neg fun ⟨_, hlt⟩ => by omega
  simp only [MatchesDuring, State.matchesAt, hread]

/-- Settles O31: the source position stays at ARG0, where the zero template matches at every step. -/
theorem emptyZeroTemplateFillsTheDestination : Obligations.EmptyZeroTemplateFillsTheDestination := by
  intro s b d z o hinv hempty hoff
  obtain ⟨t, cnt, cur, hexec, hstart, -, hemits, hstop, hres, hnumbits, -⟩ :=
    lcdecFollowsTheLineCode s b d z o hinv
  have hmatch {k : Nat} (hk : cur k = s.argNat 0) : MatchesDuring s t b d z k (cur k) :=
    matchesDuring_of_empty hempty (hk ▸ hoff)
  have emits_zero {k : Nat} (hk : k < cnt) (hcur : cur k = s.argNat 0) :
      t.readBit d k = false ∧ cur (k + 1) = s.argNat 0 := by
    rcases hemits k hk with ⟨-, hbit, hnext⟩ | ⟨hno, -⟩
    · exact ⟨hbit, by omega⟩
    · exact absurd (hmatch hcur) hno
  have hcur (k : Nat) (hk : k ≤ cnt) : cur k = s.argNat 0 := by
    induction k with
    | zero => exact hstart
    | succ k ih => exact (emits_zero hk (ih (Nat.le_of_succ_le hk))).2
  have hfull : cnt = s.capBits d := hstop.resolve_right fun ⟨hno, _⟩ => hno (hmatch (hcur cnt le_rfl))
  subst hfull
  exact ⟨t, hexec, hres, hnumbits, fun p hp => (emits_zero hp (hcur p hp.le)).1⟩

/-! ### The decode as a chain of source symbols -/

/-- The template that stands for a data bit (R213). -/
def lcTemplate (zero one : List Bool) (v : Bool) : List Bool := if v then one else zero

/-- The bit the line-code function emits at a source position; none where it stops (R210). -/
def lcSymbol (x : BitBuffer) (zero one : List Bool) (pos : Nat) : Option Bool :=
  if matchAt x pos zero then some false else if matchAt x pos one then some true else none

/-- The line-code function stops where neither template matches (R210). -/
theorem lcSymbol_eq_none {x : BitBuffer} {zero one : List Bool} {pos : Nat} :
    lcSymbol x zero one pos = none ↔ matchAt x pos zero = false ∧ matchAt x pos one = false := by
  cases hzero : matchAt x pos zero <;> simp [lcSymbol, hzero]

/-- `out` and `cur` are the bits and the source positions of a line-code decode from `off` of a source that does
not change meanwhile, `n` its count and `room` the destination's capacity (R210). -/
structure LcChain (x : BitBuffer) (zero one : List Bool) (off room n : Nat) (out : Nat → Bool)
    (cur : Nat → Nat) : Prop where
  start : cur 0 = off
  le : n ≤ room
  emits : ∀ k, k < n → lcSymbol x zero one (cur k) = some (out k) ∧
    cur (k + 1) = cur k + (lcTemplate zero one (out k)).length
  stop : n = room ∨ lcSymbol x zero one (cur n) = none

section

variable {x : BitBuffer} {zero one : List Bool} {off room n m : Nat} {out out' : Nat → Bool} {cur cur' : Nat → Nat}

theorem LcChain.bit_eq (h : LcChain x zero one off room n out cur) (h' : LcChain x zero one off room m out' cur')
    {k : Nat} (hn : k < n) (hm : k < m) (hcur : cur k = cur' k) : out k = out' k :=
  Option.some.inj ((h.emits k hn).1.symm.trans (hcur ▸ (h'.emits k hm).1))

theorem LcChain.cur_eq (h : LcChain x zero one off room n out cur) (h' : LcChain x zero one off room m out' cur')
    {k : Nat} (hn : k ≤ n) (hm : k ≤ m) : cur k = cur' k := by
  induction k with
  | zero => exact h.start.trans h'.start.symm
  | succ k ih =>
    have hcur := ih (Nat.le_of_succ_le hn) (Nat.le_of_succ_le hm)
    rw [(h.emits k hn).2, (h'.emits k hm).2, hcur, h.bit_eq h' hn hm hcur]

/-- A decode does not stop where another goes on. -/
theorem LcChain.count_le (h : LcChain x zero one off room n out cur)
    (h' : LcChain x zero one off room m out' cur') : n ≤ m := by
  by_contra hlt
  have hm : m < n := Nat.lt_of_not_le hlt
  rcases h'.stop with hfull | hnone
  · exact hlt (hfull ▸ h.le)
  · have hsome := (h.emits m hm).1
    rw [h.cur_eq h' hm.le le_rfl, hnone] at hsome
    exact absurd hsome (by simp)

/-- The source, the templates and the capacity determine the decode. -/
theorem LcChain.unique (h : LcChain x zero one off room n out cur)
    (h' : LcChain x zero one off room m out' cur') : n = m ∧ ∀ k, k < n → out k = out' k := by
  obtain rfl : n = m := le_antisymm (h.count_le h') (h'.count_le h)
  exact ⟨rfl, fun k hk => h.bit_eq h' hk hk (h.cur_eq h' hk.le hk.le)⟩

end

/-- With two non-empty templates LCDEC, in place or not, is a chain of symbols of the source as it stood: the
output never overtakes the source position (R212). -/
theorem exec_lcdec_chain {s : State} {b d : BufIx} {z o : PatIx} (hinv : s.Inv) (hz : 1 ≤ (s.pats[z]).plen)
    (ho : 1 ≤ (s.pats[o]).plen) : ∃ (t : State) (cur : Nat → Nat), exec (.lcdec b d z o) s = .next t ∧
      LcChain (s.buf b) (s.patElems z) (s.patElems o) (s.argNat 0) (s.capBits d) t.res.toNat (t.readBit d) cur ∧
      t.numbits d = t.res.toNat ∧ (∀ p, t.res.toNat ≤ p → t.readBit d p = s.readBit d p) ∧
      OtherBufsSame d s t := by
  obtain ⟨t, cnt, cur, hexec, hstart, hle, hemits, hstop, rfl, hnumbits, hkept, hothers, -⟩ :=
    lcdecFollowsTheLineCode s b d z o hinv
  have hcur (k : Nat) (hk : k ≤ t.res.toNat) : k ≤ cur k := by
    induction k with
    | zero => exact Nat.zero_le _
    | succ k ih =>
      have := ih (Nat.le_of_succ_le hk)
      rcases hemits k hk with ⟨-, -, hnext⟩ | ⟨-, -, -, hnext⟩ <;> omega
  refine ⟨t, cur, hexec, ⟨hstart, hle, fun k hk => ?_, hstop.imp_right ?_⟩, hnumbits, hkept, hothers⟩
  · have hemit := hemits k hk
    simp only [matchesDuring_iff_matchesAt (hcur k hk.le), ← matchAt_patElems] at hemit
    rcases hemit with ⟨hzero, hbit, hnext⟩ | ⟨hnotzero, hone, hbit, hnext⟩
    · rw [hbit, hnext, ← State.patElems_length]
      exact ⟨if_pos hzero, rfl⟩
    · rw [hbit, hnext, ← State.patElems_length]
      exact ⟨(if_neg hnotzero).trans (if_pos hone), rfl⟩
  · simp only [matchesDuring_iff_matchesAt (hcur _ le_rfl), ← matchAt_patElems_eq_false]
    exact lcSymbol_eq_none.2

/-- Settles O30: both decodes are the one chain of the source's symbols. -/
theorem lcdecInPlaceEqualsSeparate : Obligations.LcdecInPlaceEqualsSeparate := by
  intro s b d z o hinv _ hcap hz ho
  obtain ⟨t, cur, ht, hchain, hnumbits, hkept, hothers⟩ := exec_lcdec_chain (b := b) (d := b) hinv hz ho
  obtain ⟨u, cur', hu, hchain', hnumbits', -⟩ := exec_lcdec_chain (b := b) (d := d) hinv hz ho
  have hroom : s.capBits b = s.capBits d := congrArg (8 * ·) hcap
  rw [hroom] at hchain
  obtain ⟨hcount, hbits⟩ := hchain.unique hchain'
  exact ⟨t, u, ht, hu, BitVec.eq_of_toNat_eq hcount, by rw [hnumbits, hnumbits', hcount], hbits, hkept, hothers⟩

/-! ### The round trip -/

/-- The valid bits of a buffer, position 0 first (R35, R82). -/
def BitBuffer.validBits (x : BitBuffer) : List Bool := (List.range x.numbits.toNat).map (bitRead x.data)

/-- A list is read from a position on exactly when it lies within the valid bits and each of its bits is read. -/
theorem isPrefix_validBits_iff {x : BitBuffer} {pos : Nat} {l : List Bool} (hpos : pos ≤ x.numbits.toNat) :
    l <+: x.validBits.drop pos ↔
      pos + l.length ≤ x.numbits.toNat ∧ ∀ i, i < l.length → l[i]? = some (bitRead x.data (pos + i)) := by
  have hread {i : Nat} (hi : pos + i < x.numbits.toNat) :
      (x.validBits.drop pos)[i]? = some (bitRead x.data (pos + i)) := by
    simp [BitBuffer.validBits, hi]
  constructor
  · intro h
    have hlen : pos + l.length ≤ x.numbits.toNat := by
      have := h.length_le
      simp only [BitBuffer.validBits, List.length_drop, List.length_map, List.length_range] at this
      omega
    refine ⟨hlen, fun i hi => ?_⟩
    rw [← hread (by omega), List.prefix_iff_getElem?.1 h i hi, List.getElem?_eq_getElem hi]
  · rintro ⟨hlen, hbits⟩
    refine List.prefix_iff_getElem?.2 fun i hi => ?_
    rw [hread (by omega), ← hbits i hi, List.getElem?_eq_getElem hi]

/-- The match function, on the valid bits as a list (R190). -/
theorem matchAt_iff_prefix {x : BitBuffer} {pos : Nat} {pat : List Bool} (hpos : pos ≤ x.numbits.toNat) :
    matchAt x pos pat = true ↔ pat <+: x.validBits.drop pos := by
  rw [matchAt_iff, isPrefix_validBits_iff hpos]
  refine and_congr Iff.rfl (forall₂_congr fun i hi => ?_)
  rw [List.getD_eq_getElem _ _ hi, List.getElem?_eq_getElem hi, Option.some.injEq, eq_comm]

theorem lcEncode_append (zero one as bs : List Bool) :
    lcEncode zero one (as ++ bs) = lcEncode zero one as ++ lcEncode zero one bs := List.flatMap_append

theorem lcEncode_take_succ (zero one : List Bool) {data : List Bool} {k : Nat} (hk : k < data.length) :
    lcEncode zero one (data.take (k + 1)) = lcEncode zero one (data.take k) ++ lcTemplate zero one data[k] := by
  rw [← List.take_concat_get' data k hk, lcEncode_append]
  simp [lcEncode, lcTemplate]

theorem lcEncode_take_prefix (zero one data : List Bool) (k : Nat) :
    lcEncode zero one (data.take k) <+: lcEncode zero one data :=
  (List.take_prefix k data).flatMap _

/-- When neither template begins with the other, at most one of them matches at a position, and the symbol there is
its data bit (R213 (2)). -/
theorem lcSymbol_of_matchAt {x : BitBuffer} {zero one : List Bool} {pos : Nat} {v : Bool} (hzo : ¬ zero <+: one)
    (hoz : ¬ one <+: zero) (hpos : pos ≤ x.numbits.toNat) (h : matchAt x pos (lcTemplate zero one v) = true) :
    lcSymbol x zero one pos = some v := by
  cases v with
  | false => exact if_pos h
  | true =>
    have hzero : ¬ matchAt x pos zero = true := fun hz => by
      rcases List.prefix_or_prefix_of_prefix ((matchAt_iff_prefix hpos).1 hz) ((matchAt_iff_prefix hpos).1 h) with
        hp | hp
      · exact hzo hp
      · exact hoz hp
    exact (if_neg hzero).trans (if_pos h)

/-- An encoded sequence with no symbol after it is a chain of symbols that gives the sequence back (R213). -/
theorem LcChain.of_encode {x : BitBuffer} {zero one data : List Bool} {off room : Nat} (hzo : ¬ zero <+: one)
    (hoz : ¬ one <+: zero) (hend : off + (lcEncode zero one data).length ≤ x.numbits.toNat)
    (hsrc : lcEncode zero one data <+: x.validBits.drop off)
    (hstop : lcSymbol x zero one (off + (lcEncode zero one data).length) = none) (hroom : data.length ≤ room) :
    LcChain x zero one off room data.length (data.getD · false)
      (fun k => off + (lcEncode zero one (data.take k)).length) where
  start := rfl
  le := hroom
  stop := .inr (by rwa [List.take_length])
  emits k hk := by
    have htake := lcEncode_take_succ zero one hk
    have hpos : off + (lcEncode zero one (data.take k)).length ≤ x.numbits.toNat := by
      have := (lcEncode_take_prefix zero one data k).length_le
      omega
    have htemplate : lcTemplate zero one data[k] <+:
        x.validBits.drop (off + (lcEncode zero one (data.take k)).length) := by
      have h := ((lcEncode_take_prefix zero one data (k + 1)).trans hsrc).drop (lcEncode zero one (data.take k)).length
      rwa [htake, List.drop_left, List.drop_drop] at h
    rw [List.getD_eq_getElem _ _ hk]
    refine ⟨lcSymbol_of_matchAt hzo hoz hpos ((matchAt_iff_prefix hpos).2 htemplate), ?_⟩
    rw [htake, List.length_append, Nat.add_assoc]

/-- No symbol stands at numbits when both templates are non-empty. -/
theorem lcSymbol_at_numbits {x : BitBuffer} {zero one : List Bool} (hz : 1 ≤ zero.length) (ho : 1 ≤ one.length) :
    lcSymbol x zero one x.numbits.toNat = none :=
  lcSymbol_eq_none.2 ⟨matchAt_false_of_gt (by omega), matchAt_false_of_gt (by omega)⟩

/-- Settles O32: the encoded sequence is a chain of symbols, and LCDEC's is the only one. -/
theorem lineCodeRoundTrip : Obligations.LineCodeRoundTrip := by
  intro s b d z o data hinv hz ho hzo hoz hbits htail hroom
  obtain ⟨t, cur, hexec, hchain, hnumbits, -⟩ := exec_lcdec_chain (b := b) (d := d) hinv hz ho
  have hend : s.argNat 0 + (lcEncode (s.patElems z) (s.patElems o) data).length ≤ s.numbits b :=
    htail.elim Eq.ge fun ⟨hle, _⟩ => hle
  have hstop : lcSymbol (s.buf b) (s.patElems z) (s.patElems o)
      (s.argNat 0 + (lcEncode (s.patElems z) (s.patElems o) data).length) = none := by
    rcases htail with heq | ⟨-, hnotzero, hnotone⟩
    · rw [← heq]
      exact lcSymbol_at_numbits (s.patElems_length z ▸ hz) (s.patElems_length o ▸ ho)
    · exact lcSymbol_eq_none.2 ⟨matchAt_patElems_eq_false.2 hnotzero, matchAt_patElems_eq_false.2 hnotone⟩
  have hsrc := (isPrefix_validBits_iff (x := s.buf b) (Nat.le_of_add_right_le hend)).2 ⟨hend, hbits⟩
  obtain ⟨hcount, hout⟩ := (LcChain.of_encode hzo hoz hend hsrc hstop hroom).unique hchain
  refine ⟨t, hexec, hcount.symm, hnumbits.trans hcount.symm, fun k hk => ?_⟩
  rw [← hout k hk, List.getD_eq_getElem _ _ hk, List.getElem?_eq_getElem hk]

end Sys2Proof.Machine

/-! SUPPORT. DMDEC (44_diffmanchester.md, R230 to R236): what it leaves, read through the decode loop's specification;
then the encoder of R235 as a sequence of line levels, by which the default table gives an encoded stream back. -/

namespace Sys2Proof.Machine

/-! ### The command -/

/-- Settles O34: the eight rows of the table. -/
theorem defaultTableIsTheRule : Obligations.DefaultTableIsTheRule := dmAction_default

/-- DMDEC, in place or not, ends in a state that meets the loop's specification over the source as it stood; the
count fits RES and numbits because it is at most capbits (R233, R234). -/
theorem exec_dmdec_spec {s : State} (b d : BufIx) (hinv : s.Inv) : ∃ (t : State) (lv : Nat → Bool),
    exec (.dmdec b d) s = .next t ∧
    DmSpec s.cfg.dmTable (s.readBit b) (s.readBit d) (t.readBit d) (s.numbits b) (s.argNat 0) 0 (s.capBits d)
      t.res.toNat s.dmprev t.dmprev lv ∧
    t.numbits d = t.res.toNat ∧ OtherBufsSame d s t ∧
    t = { s with bufs := t.bufs, res := t.res, dmprev := t.dmprev, status := finishedStatus s .ok } := by
  obtain ⟨hdec, lv, hspec⟩ := dmState_spec s b d (s.argNat 0) s.dmprev (hinv.bufs d)
  generalize hr : dmState s b d (s.argNat 0) s.dmprev = r at hdec hspec
  let u := ((r.out.setNumbits d r.count).setRes r.count).setDmprev r.level
  have hc : Completes s (.dmdec b d) u .ok := .dmdec hr.symm
  obtain ⟨hframe, hothers⟩ := hc.dmdec_frame
  have hstatus : u.status = s.status := by rw [hframe]
  have hexec : exec (.dmdec b d) s = .next (u.setStatus (finishedStatus s .ok)) := by
    rw [hc.exec_eq, finishedStatus, hstatus]
    rfl
  have hle : r.count ≤ s.capBits d := by simpa using hspec.room_le
  have hcount : (BitVec.ofNat 32 r.count).toNat = r.count :=
    (BitVec.toNat_ofNat ..).trans (Nat.mod_eq_of_lt (hle.trans_lt (hinv.capBits_lt d)))
  have hres : u.res.toNat = r.count := hcount
  have hread : u.readBit d = r.out.readBit d := funext fun p => by simp [u]
  refine ⟨u.setStatus (finishedStatus s .ok), lv, hexec, ?_, ?_, hothers,
    congrArg (State.setStatus · (finishedStatus s .ok)) hframe⟩
  · rw [State.setStatus_res, hres]
    exact hread ▸ hspec
  · simp only [State.numbits, State.setStatus_buf_eq, State.setStatus_res, u, State.setDmprev_buf_eq,
      State.setRes_buf_eq, State.buf_setNumbits_self]
    rfl

/-- Settles O33: the loop's specification, from the first output position on. -/
theorem dmdecFollowsTheTable : Obligations.DmdecFollowsTheTable := by
  intro s b d hinv
  obtain ⟨t, lv, hexec, hspec, hnumbits, hothers, hframe⟩ := exec_dmdec_spec b d hinv
  have hstop := hspec.stop
  have hle := hspec.room_le
  rw [Nat.zero_add] at hstop hle
  exact ⟨t, t.res.toNat, lv, hexec, hspec.start, hle, fun k hk => hspec.emits k (Nat.zero_le k) hk, hstop, rfl,
    hnumbits, hspec.last, fun p hp => hspec.kept p (.inr hp), hothers, hframe⟩

/-! ### The encoder's line levels (R235) -/

/-- The line level at the end of a bit cell that starts from the level `pv`: every cell begins with a change, and
the cell of a 0 has a second one at its middle (R235). -/
def dmCellEnd (pv v : Bool) : Bool := if v then !pv else pv

/-- The line level after the cells of the first `k` data bits (R235). -/
def dmLevelAfter (pv : Bool) (data : List Bool) (k : Nat) : Bool := (data.take k).foldl dmCellEnd pv

theorem dmEncode_cons (pv v : Bool) (vs : List Bool) :
    dmEncode pv (v :: vs) = (!pv) :: dmCellEnd pv v :: dmEncode (dmCellEnd pv v) vs := by
  cases v <;> simp [dmEncode, dmCellEnd]

theorem dmLevelAfter_succ (pv : Bool) {data : List Bool} {k : Nat} (hk : k < data.length) :
    dmLevelAfter pv data (k + 1) = dmCellEnd (dmLevelAfter pv data k) data[k] := by
  rw [dmLevelAfter, ← List.take_concat_get' data k hk, List.foldl_append]
  rfl

/-- What the encoder writes after `k` cells is the encoding of the bits that remain. -/
theorem drop_dmEncode (pv : Bool) (data : List Bool) (k : Nat) :
    (dmEncode pv data).drop (2 * k) = dmEncode (dmLevelAfter pv data k) (data.drop k) := by
  induction k generalizing pv data with
  | zero => rfl
  | succ k ih =>
    cases data with
    | nil => rfl
    | cons v vs =>
      rw [dmEncode_cons, Nat.mul_succ]
      exact ih (dmCellEnd pv v) vs

/-- The two symbols of cell `k`: a change of level, then the level at the cell's end. -/
theorem dmEncode_cell (pv : Bool) {data : List Bool} {k : Nat} (hk : k < data.length) :
    (dmEncode pv data)[2 * k]? = some (!dmLevelAfter pv data k) ∧
    (dmEncode pv data)[2 * k + 1]? = some (dmLevelAfter pv data (k + 1)) := by
  have hdrop : (dmEncode pv data).drop (2 * k) =
      (!dmLevelAfter pv data k) :: dmLevelAfter pv data (k + 1) ::
        dmEncode (dmLevelAfter pv data (k + 1)) (data.drop (k + 1)) := by
    rw [drop_dmEncode, List.drop_eq_getElem_cons hk, dmEncode_cons, dmLevelAfter_succ pv hk]
  constructor
  · rw [← Nat.add_zero (2 * k), ← List.getElem?_drop, hdrop]
    rfl
  · rw [← List.getElem?_drop, hdrop]
    rfl

/-! ### The round trip (R236) -/

/-- The default table emits the data bit of a cell the encoder wrote. -/
theorem dmAction_default_cell (pv v : Bool) :
    dmAction DmTable.default pv (!pv) (dmCellEnd pv v) = if v then .emit1 else .emit0 := by
  cases pv <;> cases v <;> rfl

/-- An action emits one data bit. -/
theorem dmEmit_injective : ∀ {v w : Bool},
    (if v then DmAction.emit1 else .emit0) = (if w then .emit1 else .emit0) → v = w := by decide

/-- Under the default table a decode that has the room goes through an encoded stream and gives its bits back,
whatever follows the stream (R236). -/
theorem DmSpec.decodes_dmEncode {sym before after lv : Nat → Bool} {numbits off room n : Nat} {pv level : Bool}
    {data : List Bool} (h : DmSpec DmTable.default sym before after numbits off 0 room n pv level lv)
    (hsym : ∀ k, k < 2 * data.length → (dmEncode pv data)[k]? = some (sym (off + k)))
    (hend : off + 2 * data.length ≤ numbits) (hroom : data.length ≤ room) :
    data.length ≤ n ∧ ∀ k, k < data.length → data[k]? = some (after k) := by
  have hfirst {k : Nat} (hk : k < data.length) : sym (off + 2 * k) = !dmLevelAfter pv data k :=
    Option.some.inj ((hsym (2 * k) (by omega)).symm.trans (dmEncode_cell pv hk).1)
  have hsecond {k : Nat} (hk : k < data.length) : sym (off + 2 * k + 1) = dmLevelAfter pv data (k + 1) :=
    Option.some.inj ((hsym (2 * k + 1) (by omega)).symm.trans (dmEncode_cell pv hk).2)
  have hlevel {k : Nat} (hn : k ≤ n) (hk : k ≤ data.length) : lv k = dmLevelAfter pv data k := by
    cases k with
    | zero => exact h.start
    | succ k =>
      obtain ⟨-, hlv, -⟩ := h.emits k (Nat.zero_le k) hn
      exact hlv.trans (hsecond hk)
  have haction {k : Nat} (hn : k ≤ n) (hk : k < data.length) :
      dmAction DmTable.default (lv k) (sym (off + 2 * k)) (sym (off + 2 * k + 1)) =
        if data[k] then .emit1 else .emit0 := by
    rw [hlevel hn hk.le, hfirst hk, hsecond hk, dmLevelAfter_succ pv hk]
    exact dmAction_default_cell _ _
  have hcount : data.length ≤ n := by
    by_contra hlt
    have hn : n < data.length := Nat.lt_of_not_le hlt
    rcases h.stop with hfull | hshort | hstop
    · omega
    · omega
    · rw [haction le_rfl hn] at hstop
      split at hstop <;> cases hstop
  refine ⟨hcount, fun k hk => ?_⟩
  obtain ⟨-, hlv, hemit⟩ := h.emits k (Nat.zero_le k) (hk.trans_le hcount)
  rw [hlv, haction (hk.le.trans hcount) hk] at hemit
  rw [List.getElem?_eq_getElem hk, dmEmit_injective hemit]

/-- Settles O35: the decode goes through the stream, and no pair is left after it. -/
theorem diffManchesterRoundTrip : Obligations.DiffManchesterRoundTrip := by
  intro s b d data hinv htable hroom hsym hend
  obtain ⟨t, lv, hexec, hspec, hnumbits, -⟩ := exec_dmdec_spec b d hinv
  rw [htable] at hspec
  obtain ⟨hge, hbits⟩ := hspec.decodes_dmEncode hsym hend.ge hroom
  have hle : t.res.toNat ≤ data.length := by
    by_contra hlt
    obtain ⟨hpair, -⟩ := hspec.emits data.length (Nat.zero_le _) (Nat.lt_of_not_le hlt)
    omega
  have hres := le_antisymm hle hge
  exact ⟨t, hexec, hres, hnumbits.trans hres, hbits⟩

end Sys2Proof.Machine

/-! SUPPORT. The CRC function and CRC8 (45_crc8.md, R250 to R252): the function over a message cut in two, what each
of its arguments loses in a byte step, and the command's result. -/

namespace Sys2Proof.Machine

/-! ### The CRC function along a message -/

@[simp] theorem crc8_nil (init poly : Byte) : crc8 [] init poly = init := rfl

@[simp] theorem crc8_cons (x : Byte) (xs : List Byte) (init poly : Byte) :
    crc8 (x :: xs) init poly = crc8 xs (crcByte poly init x) poly := rfl

/-- The CRC of the first part is the initial value of the second (R252 (4)). -/
theorem crc8_append (xs ys : List Byte) (init poly : Byte) :
    crc8 (xs ++ ys) init poly = crc8 ys (crc8 xs init poly) poly := List.foldl_append

/-- The last byte's step ends the CRC. -/
theorem crc8_concat (xs : List Byte) (x init poly : Byte) :
    crc8 (xs ++ [x]) init poly = crcByte poly (crc8 xs init poly) x := crc8_append xs [x] init poly

/-- Without a polynomial the last byte's step already clears the remainder (R250). -/
theorem crc8_zero_poly {data : List Byte} (init : Byte) (h : data ≠ []) : crc8 data init 0#8 = 0#8 := by
  rw [← List.dropLast_append_getLast h, crc8_concat]
  exact crcShifts_zero_poly _

/-- Settles O37: chaining is the fold's, a remainder clears itself under any polynomial, and without a polynomial the
last step shifts everything out. -/
theorem crcChainsAndVanishesOnItself : Obligations.CrcChainsAndVanishesOnItself :=
  ⟨crc8_append, fun data init => (crc8_concat data _ init _).trans (crcByte_self _ _),
    fun _ init => crc8_zero_poly init⟩

/-! ### What an odd polynomial keeps apart -/

section

variable {poly : Byte}

theorem crcShifts_injective (h : poly.getLsbD 0 = true) (n : Nat) : Function.Injective (crcShifts poly n) := by
  induction n with
  | zero => exact fun _ _ hxy => hxy
  | succ n ih => exact fun _ _ hxy => crcShift_injective h (ih hxy)

/-- One step tells apart two bytes met by the same remainder. -/
theorem crcByte_injective (h : poly.getLsbD 0 = true) (crc : Byte) : Function.Injective (crcByte poly crc) :=
  fun _ _ hxy => (BitVec.xor_right_inj _).1 (crcShifts_injective h 8 hxy)

/-- One step keeps apart two remainders that meet the same byte. -/
theorem crcByte_remainder_injective (h : poly.getLsbD 0 = true) (byte : Byte) :
    Function.Injective (crcByte poly · byte) :=
  fun _ _ hxy => (BitVec.xor_left_inj _).1 (crcShifts_injective h 8 hxy)

/-- A message keeps two initial values apart, step by step. -/
theorem crc8_init_injective (h : poly.getLsbD 0 = true) (data : List Byte) :
    Function.Injective (crc8 data · poly) := by
  induction data with
  | nil => exact fun _ _ hxy => hxy
  | cons x xs ih => exact fun _ _ hxy => crcByte_remainder_injective h x (ih hxy)

end

/-- Settles O38: the changed byte gives two remainders, and the bytes after it keep them apart. -/
theorem crcDetectsEveryByteChange : Obligations.CrcDetectsEveryByteChange := by
  intro before after x y init poly hodd hne heq
  rw [crc8_append, crc8_append, crc8_cons, crc8_cons] at heq
  have hstep : crcByte poly (crc8 before init poly) x = crcByte poly (crc8 before init poly) y :=
    crc8_init_injective hodd after heq
  exact hne (crcByte_injective hodd _ hstep)

/-! ### The command -/

/-- No bytes are named by a length of 0. -/
@[simp] theorem memBytes_zero (m : Memory) (lo : Nat) : memBytes m lo 0 = [] := rfl

/-- CRC8 takes the low byte of an argument register (R251). -/
theorem State.argByte_eq_extractLsb' (s : State) (k : ArgIx) : s.argByte k = (s.args[k]).extractLsb' 0 8 :=
  BitVec.setWidth_eq_extractLsb' (by omega)

/-- Settles O36: CRC8 completes with the CRC function's byte in RES, which on no bytes is its initial value. -/
theorem crc8Completes : Obligations.Crc8Completes := by
  intro s b h
  have hexec := (Completes.crc8 h).exec_eq
  rw [State.setRes, BitVec.ofNat_toNat, State.argByte_eq_extractLsb', State.argByte_eq_extractLsb'] at hexec
  refine ⟨_, hexec, rfl, fun hlen => ?_, rfl⟩
  rw [hlen, memBytes_zero, crc8_nil]
  rfl

end Sys2Proof.Machine

/-! SUPPORT. The scanner (46_scanner.md, R270 to R286): the coherence measure, the copy and the scan window, then
what SCAN holds after its walk and why a second SCAN finds nothing. -/

namespace Sys2Proof.Machine

/-! ### The coherence measure -/

/-- Settles O39: each side of the comparison is one sign of the difference. -/
theorem durationDeltaIsSymmetric : Obligations.DurationDeltaIsSymmetric := by
  intro a b
  rcases le_total a b with h | h
  · rw [abs_of_nonpos (by omega), durationDelta, durationDelta]
    split_ifs <;> omega
  · rw [abs_of_nonneg (by omega), durationDelta, durationDelta]
    split_ifs <;> omega

theorem TimingClass.foldl_take_cnt (ds : List Nat) (c : TimingClass) :
    (ds.foldl TimingClass.take c).cnt = c.cnt + ds.length := by
  induction ds generalizing c with
  | nil => rfl
  | cons d ds ih =>
    have hcnt : (c.take d).cnt = c.cnt + 1 := rfl
    rw [List.foldl_cons, ih, hcnt, List.length_cons]
    omega

/-- Every duration a class takes keeps its average between two bounds of all of them (R276). -/
theorem TimingClass.foldl_take_bounds {lo hi : Nat} {ds : List Nat} {c : TimingClass}
    (hc : 1 ≤ c.cnt → lo ≤ c.avg ∧ c.avg ≤ hi) (hds : ∀ d ∈ ds, lo ≤ d ∧ d ≤ hi)
    (hcnt : 1 ≤ (ds.foldl TimingClass.take c).cnt) :
    lo ≤ (ds.foldl TimingClass.take c).avg ∧ (ds.foldl TimingClass.take c).avg ≤ hi := by
  induction ds generalizing c with
  | nil => exact hc hcnt
  | cons d ds ih =>
    obtain ⟨hd, hrest⟩ := List.forall_mem_cons.1 hds
    exact ih (fun _ => TimingClass.take_bounds hc hd) hrest hcnt

/-- Settles O40: one duration at a time, from an empty class. -/
theorem classAverageStaysBetweenItsDurations : Obligations.ClassAverageStaysBetweenItsDurations := by
  refine ⟨fun c d => ⟨rfl, rfl, fun h0 => by simp [TimingClass.take, h0]⟩, fun ds lo hi hne hds => ?_⟩
  have hcnt : (ds.foldl TimingClass.take ⟨0, 0⟩).cnt = ds.length := by
    rw [TimingClass.foldl_take_cnt, Nat.zero_add]
  have hpos := List.length_pos_iff.2 hne
  exact ⟨hcnt, TimingClass.foldl_take_bounds (fun h => absurd h (by simp)) hds (hcnt ▸ hpos)⟩

/-- The table with one level replaced is the one that has the new classes there and the old ones at the other
level. -/
theorem ClassTable.eq_setLevel_iff {t t' : ClassTable} {lv : Bool} {cs : List TimingClass} :
    t' = t.setLevel lv cs ↔ t'.level lv = cs ∧ t'.level (!lv) = t.level (!lv) := by
  cases t'
  cases lv <;> simp [ClassTable.setLevel, ClassTable.level, and_comm]

/-- A pulse joins when its duration is in range and a class of its level takes it (R275, R277). -/
theorem joinRun_eq_some_iff {c : Config} {t t' : ClassTable} {p : Pulse} :
    joinRun c t p = some t' ↔ c.durMin ≤ p.duration.toNat ∧ p.duration.toNat ≤ c.durMax ∧
      ∃ cs, joinClass c.tolDiv (t.level p.level) p.duration.toNat = some cs ∧ t' = t.setLevel p.level cs := by
  simp only [joinRun]
  split_ifs with hrange
  · simp only [false_iff]
    rintro ⟨hlo, hhi, -⟩
    omega
  · obtain ⟨hlo, hhi⟩ := not_or.1 hrange
    rw [Option.map_eq_some_iff]
    simp only [not_lt.1 hlo, not_lt.1 hhi, true_and, eq_comm]

/-- A pulse ends the run when its duration is out of range or no class of its level takes it (R277). -/
theorem joinRun_eq_none_iff {c : Config} {t : ClassTable} {p : Pulse} :
    joinRun c t p = none ↔ p.duration.toNat < c.durMin ∨ c.durMax < p.duration.toNat ∨
      joinClass c.tolDiv (t.level p.level) p.duration.toNat = none := by
  simp only [joinRun]
  split_ifs with hrange
  · simp only [true_iff]
    tauto
  · rw [Option.map_eq_none_iff]
    tauto

/-- A run without a pulse has no populated class, so its unit is 0 (R278). -/
theorem measureRun_unit_of_len_zero {c : Config} {ring : Word → Pulse} {k0 : Word} {maxn : Nat}
    (h : (measureRun c ring k0 maxn).len = 0) : (measureRun c ring k0 maxn).unit = 0 := by
  obtain ⟨-, -, htable, -⟩ := runLoop_spec (c := c) (ring := ring) (k0 := k0) (min maxn c.maxRun) 0 rfl
  obtain ⟨-, -, hempty⟩ := runTable_averages htable
  exact (ClassTable.unit_spec _).2 (hempty h)

/-- Settles O41: a pulse joins the first class that accepts it, and the run loop stops where the table does. -/
theorem runEndsAtItsFirstBoundary : Obligations.RunEndsAtItsFirstBoundary := by
  refine ⟨fun c t t' p => ?_, fun c t p => ?_, fun n lv => by cases lv <;> rfl, fun c ring k0 maxn => ?_⟩
  · rw [joinRun_eq_some_iff]
    simp only [joinClass_eq_some_iff, ClassTable.eq_setLevel_iff]
    refine and_congr_right fun _ => and_congr_right fun _ => ⟨?_, ?_⟩
    · rintro ⟨cs, ⟨i, x, hx, haccepts, hfirst, rfl⟩, hlevel, hother⟩
      exact ⟨i, x, hx, haccepts, hfirst, hlevel, hother⟩
    · rintro ⟨i, x, hx, haccepts, hfirst, hlevel, hother⟩
      exact ⟨_, ⟨i, x, hx, haccepts, hfirst, rfl⟩, hlevel, hother⟩
  · rw [joinRun_eq_none_iff, joinClass_eq_none_iff]
  · obtain ⟨hmaxn, hmaxRun⟩ := measureRun_len_le c ring k0 maxn
    obtain ⟨-, -, htable, hend⟩ := runLoop_spec (c := c) (ring := ring) (k0 := k0) (min maxn c.maxRun) 0 rfl
    refine ⟨rfl, hmaxn, hmaxRun, ⟨_, htable, rfl⟩, ?_, measureRun_unit_of_len_zero, measureRun_unit_bounds⟩
    rcases hend with hfull | hboundary
    · have hlen : (measureRun c ring k0 maxn).len = 0 + min maxn c.maxRun := hfull
      omega
    · exact .inr (.inr hboundary)

/-! ### The copy -/

/-- Settles O43: the copy of a whole run, from position 0 of an empty memory. -/
theorem conversionSamplesTheLevels : Obligations.ConversionSamplesTheLevels := by
  intro ring cap k0 r hcap
  obtain ⟨-, hcount, hbelow, habove⟩ := copyLoop_spec ring r.unit cap r.len k0 [] 0 Memory.wf_nil (Nat.zero_le _)
  rw [← runSymbols_eq, Nat.zero_add] at hcount
  rw [hcount, ← runSymbols_eq] at hbelow
  rw [hcount] at habove
  refine ⟨?_, fun p hp => hbelow p (Nat.zero_le p) hp, fun p hp => (habove p (.inr hp)).trans (bitRead_nil p)⟩
  rw [convertRun, hcount, BitVec.toNat_ofNat, Nat.mod_eq_of_lt (by omega)]

/-! ### The scan window and the producer -/

/-- A window of at most RING_SIZE pulses starts at SCAN_LAST (R279). -/
theorem State.scanWindow_of_le {s : State} (h : (s.widx - s.scanLast).toNat ≤ s.cfg.ringSize) :
    s.scanWindow = ⟨s.scanLast, (s.widx - s.scanLast).toNat⟩ := if_neg (not_lt.2 h)

/-- After an overrun the window is the RING_SIZE newest pulses (R279). -/
theorem State.scanWindow_of_lt {s : State} (h : s.cfg.ringSize < (s.widx - s.scanLast).toNat) :
    s.scanWindow = ⟨s.widx - BitVec.ofNat 32 s.cfg.ringSize, s.cfg.ringSize⟩ := if_pos h

/-- The scan window ends at WIDX (R279). -/
theorem State.scanWindow_end (s : State) :
    s.scanWindow.base + BitVec.ofNat 32 s.scanWindow.avail = s.widx := by
  rcases le_or_gt (s.widx - s.scanLast).toNat s.cfg.ringSize with h | h
  · rw [State.scanWindow_of_le h]
    simp only [BitVec.ofNat_toNat, BitVec.setWidth_eq]
    rw [BitVec.add_comm, BitVec.sub_add_cancel]
  · rw [State.scanWindow_of_lt h]
    exact BitVec.sub_add_cancel ..

/-- Settles O42: one case for each side of the clipping test. -/
theorem scanWindowHoldsOnlyLivePulses : Obligations.ScanWindowHoldsOnlyLivePulses := by
  intro s _
  refine ⟨s.scanWindow_end, ?_, fun h => by rw [State.scanWindow_of_le h]⟩
  rcases le_or_gt (s.widx - s.scanLast).toNat s.cfg.ringSize with h | h
  · rw [State.scanWindow_of_le h, min_eq_left h]
  · rw [State.scanWindow_of_lt h, min_eq_right h.le]

/-- Settles O57: the entry is one write of the ring's storage, at the slot of WIDX. -/
theorem producerWritesThenPublishes : Obligations.ProducerWritesThenPublishes := by
  intro s rest level duration hinv hp
  refine ⟨_, step_of_pending hp, BitVec.toNat_add .., ?_, fun j hj => ?_, rfl⟩
  · exact sparseRead_write_self hinv.ringCanonical
  · exact sparseRead_write_ne hj

/-! ### SRESET -/

/-- SRESET's clears find nothing left to clear, whatever STATUS is (R285). -/
theorem State.clearScanner_clearMi_setStatus (s : State) (v : Word) :
    (s.clearScanner.clearMi.setStatus v).clearScanner.clearMi = s.clearScanner.clearMi.setStatus v := by
  simp [State.clearScanner, State.clearMi, State.setStatus, State.setBuf]

/-- Ending twice with one code is ending once (R341). -/
theorem State.setStatus_finished_twice (s : State) (e : Err) :
    (s.setStatus (finishedStatus s e)).setStatus (finishedStatus (s.setStatus (finishedStatus s e)) e) =
      s.setStatus (finishedStatus s e) := congrArg s.setStatus (setErr_setErr s.status e e)

/-- Settles O47: SRESET's clears, and the same clears again on the cleared state. -/
theorem sresetClearsTheCurrentSignal : Obligations.SresetClearsTheCurrentSignal := by
  intro s
  have hbuf : s.clearScanner.clearMi.buf 0 = ⟨[], 0#32⟩ := s.buf_setBuf_self 0 ⟨[], 0#32⟩
  refine ⟨_, Completes.sreset.exec_eq, rfl, rfl, rfl, rfl, rfl, fun i => ?_, ?_, rfl,
    s.setBuf_otherBufsSame 0 _, rfl, ?_⟩
  · rw [State.setStatus_readByte_eq, State.readByte, hbuf, memRead_nil]
  · rw [State.setStatus_numbits_eq, State.numbits, hbuf]
    rfl
  · rw [Completes.sreset.exec_eq, State.clearScanner_clearMi_setStatus, State.setStatus_finished_twice]

section

variable {s t : State}

/-! ### The runs of the walk -/

/-- A run of the walk lies within the window, and so within RING_SIZE pulses (R279, R280). -/
theorem State.walkRun_len_le (s : State) (k : Nat) :
    (s.walkRun k).len ≤ s.scanWindow.avail - s.walkOffset k := (measureRun_len_le ..).1

/-- The length of a run fits SCAN_BEST (R6, R277). -/
theorem State.Inv.walkRun_len_lt (h : s.Inv) (k : Nat) : (s.walkRun k).len < 2 ^ 32 := by
  have hrun := s.walkRun_len_le k
  have havail := s.scanWindow_avail_le
  have hring := h.facts.ringSize_bounds.2
  omega

/-- Two runs of one walk start at different logical indexes: the window is shorter than 2^32 (R280). -/
theorem State.Inv.walkStart_ne (h : s.Inv) {j k : Nat} (hjk : j < k) (hk : s.walkVisits k) :
    s.walkStart k ≠ s.walkStart j := by
  intro heq
  have hlt := s.walkOffset_strictMono hjk
  have havail := s.scanWindow_avail_le
  have hring := h.facts.ringSize_bounds.2
  have hoffsets := congrArg BitVec.toNat (BitVec.add_right_inj _ |>.1 heq)
  simp only [State.walkVisits] at hk
  rw [BitVec.toNat_ofNat, BitVec.toNat_ofNat, Nat.mod_eq_of_lt (by omega), Nat.mod_eq_of_lt (by omega)] at hoffsets
  omega

/-- A run that reaches the end of the window is the walk's last (R280, R282). -/
theorem State.not_walkVisits_of_open {j k : Nat} (hopen : s.walkRunOpen j) (hjk : j < k) : ¬ s.walkVisits k := by
  obtain ⟨-, hend⟩ := hopen
  have hnext : s.walkOffset (j + 1) ≤ s.walkOffset k := s.walkOffset_strictMono.monotone hjk
  have hstep : s.walkOffset (j + 1) = s.walkOffset j + max (s.walkRun j).len 1 := rfl
  simp only [State.walkVisits]
  omega

/-! ### The copy condition -/

/-- The three conditions of R281. -/
theorem copyCondition_iff {u : State} {k0 : Word} {len : Nat} :
    copyCondition u k0 len = true ↔ u.cfg.minRun ≤ len ∧ u.scanBest.toNat ≤ len ∧
      ¬ (0 < u.scanBest.toNat ∧ k0 = u.sigStart ∧ len = u.scanBest.toNat) := by
  simp only [copyCondition, Bool.and_eq_true, Bool.not_eq_true', decide_eq_true_eq, ← Bool.not_eq_true, beq_iff_eq,
    and_assoc]

/-- SCAN's walk would not copy the run it has just visited: either it did not, or it holds it now (R281). -/
theorem copyCondition_scanVisit {ring : Word → Pulse} {k0 : Word} {r : Run} {atEnd : Bool} {a : ScanAcc}
    (hpos : 0 < r.len) (hlt : r.len < 2 ^ 32) :
    copyCondition (scanVisit ring k0 r atEnd a).st k0 r.len = false := by
  simp only [scanVisit]
  split_ifs with hcopies
  · have hbest : (a.st.takeSignal ring k0 r).scanBest.toNat = r.len := by
      rw [State.takeSignal_scanBest, BitVec.toNat_ofNat, Nat.mod_eq_of_lt hlt]
    rw [← Bool.not_eq_true, copyCondition_iff, hbest]
    exact fun ⟨_, _, hnew⟩ => hnew ⟨hpos, rfl, rfl⟩
  · exact Bool.eq_false_iff.2 hcopies

/-- SCAN_LAST moves to the start of a run that is not empty and reaches the end of the window (R282). -/
theorem scanVisit_newLast {ring : Word → Pulse} {k0 : Word} {r : Run} {i n : Nat} {a : ScanAcc} :
    (scanVisit ring k0 r (i + r.len == n) a).newLast = if 0 < r.len ∧ i + r.len = n then k0 else a.newLast := by
  simp [scanVisit]

/-! ### What the walk holds -/

/-- The detected signal of `u` is run number `k` of the walk that starts in `s` (R281, R283). -/
structure HoldsRun (s : State) (k : Nat) (u : State) : Prop where
  cfg : u.cfg = s.cfg
  best : u.scanBest.toNat = (s.walkRun k).len
  start : u.sigStart = s.walkStart k
  unit : u.sigUnit.toNat = (s.walkRun k).unit
  ready : u.sigReady = true
  buf : u.buf 0 = convertRun s.ringAt (s.capBits 0) (s.walkStart k) (s.walkRun k)

/-- Taking a run of at least MIN_RUN pulses holds it: its length and its unit fit their registers (R278). -/
theorem State.Inv.takeSignal_holdsRun (h : s.Inv) {u : State} {k : Nat} (hcfg : u.cfg = s.cfg)
    (hmin : s.cfg.minRun ≤ (s.walkRun k).len) :
    HoldsRun s k (u.takeSignal s.ringAt (s.walkStart k) (s.walkRun k)) where
  cfg := hcfg
  best := by rw [State.takeSignal_scanBest, BitVec.toNat_ofNat, Nat.mod_eq_of_lt (h.walkRun_len_lt k)]
  start := rfl
  unit := by
    have hunit : (s.walkRun k).unit < 2 ^ 32 := (measureRun_unit_bounds (h.facts.minRun.trans hmin)).2
    rw [State.takeSignal_sigUnit, BitVec.toNat_ofNat, Nat.mod_eq_of_lt hunit]
  ready := rfl
  buf := by
    have hcap : u.capBits 0 = s.capBits 0 := congrArg (Config.capBits · 0) hcfg
    rw [← hcap]
    exact u.buf_setBuf_self 0 _

/-- Run number `k` is the longest of at least MIN_RUN pulses among the first `m` of the walk, and the last one
among equals. -/
def State.LongestRun (s : State) (m k : Nat) : Prop :=
  k < m ∧ s.cfg.minRun ≤ (s.walkRun k).len ∧ ∀ j < m, s.cfg.minRun ≤ (s.walkRun j).len →
    (s.walkRun j).len ≤ (s.walkRun k).len ∧ (k < j → (s.walkRun j).len < (s.walkRun k).len)

/-- A run no shorter than those before it is the longest. -/
theorem State.LongestRun.last {k : Nat} (hmin : s.cfg.minRun ≤ (s.walkRun k).len)
    (hle : ∀ j < k, s.cfg.minRun ≤ (s.walkRun j).len → (s.walkRun j).len ≤ (s.walkRun k).len) :
    s.LongestRun (k + 1) k := by
  refine ⟨Nat.lt_succ_self k, hmin, fun j hj hjmin => ⟨?_, fun hkj => absurd hkj (by omega)⟩⟩
  rcases Nat.lt_succ_iff_lt_or_eq.1 hj with hj | rfl
  · exact hle j hj hjmin
  · exact le_rfl

/-- A shorter run leaves the longest as it was. -/
theorem State.LongestRun.succ {m k : Nat} (h : s.LongestRun m k)
    (hshort : s.cfg.minRun ≤ (s.walkRun m).len → (s.walkRun m).len < (s.walkRun k).len) :
    s.LongestRun (m + 1) k := by
  obtain ⟨hk, hmin, hall⟩ := h
  refine ⟨Nat.lt_succ_of_lt hk, hmin, fun j hj hjmin => ?_⟩
  rcases Nat.lt_succ_iff_lt_or_eq.1 hj with hj | rfl
  · exact hall j hj hjmin
  · exact ⟨(hshort hjmin).le, fun _ => hshort hjmin⟩

/-- What the walk carries once its first `m` runs are visited (R281, R282, R284). -/
structure Walked (s : State) (m : Nat) (a : ScanAcc) : Prop where
  untouched : a.copied = false → a.st = s ∧ ∀ k < m, ¬ s.walkQualifies k
  held : a.copied = true → (∃ k < m, s.walkQualifies k) ∧
    ∃ k, HoldsRun s k a.st ∧ s.LongestRun m k ∧ s.scanBest.toNat ≤ (s.walkRun k).len
  openRun : ∀ k < m, s.walkRunOpen k → a.newLast = s.walkStart k
  noOpenRun : (∀ k < m, ¬ s.walkRunOpen k) → a.newLast = s.widx

theorem Walked.start (s : State) : Walked s 0 ⟨s, s.widx, false⟩ where
  untouched := fun _ => ⟨rfl, nofun⟩
  held := nofun
  openRun := nofun
  noOpenRun := fun _ => rfl

/-- The signal held after one more run: the first that qualifies is taken over the one held when SCAN starts, and
a later one over a run no longer than itself (R281). -/
theorem Walked.held_succ {m : Nat} {a : ScanAcc} (hw : Walked s m a) (h : s.Inv)
    (hcopy : copyCondition a.st (s.walkStart m) (s.walkRun m).len = true) :
    HoldsRun s m (a.st.takeSignal s.ringAt (s.walkStart m) (s.walkRun m)) ∧ s.LongestRun (m + 1) m ∧
      s.scanBest.toNat ≤ (s.walkRun m).len ∧ ∃ k < m + 1, s.walkQualifies k := by
  obtain ⟨hmin, hbest, hnew⟩ := copyCondition_iff.1 hcopy
  cases hc : a.copied with
  | false =>
    obtain ⟨hst, hnone⟩ := hw.untouched hc
    rw [hst] at hmin hbest hnew ⊢
    refine ⟨h.takeSignal_holdsRun rfl hmin, .last hmin fun j hj hjmin => ?_, hbest,
      m, Nat.lt_succ_self m, hmin, hbest, hnew⟩
    by_contra hlonger
    exact hnone j hj ⟨hjmin, by omega, fun hheld => by omega⟩
  | true =>
    obtain ⟨⟨q, hq, hqual⟩, k, hk, ⟨-, -, hall⟩, hsig⟩ := hw.held hc
    rw [hk.cfg] at hmin
    rw [hk.best] at hbest
    refine ⟨h.takeSignal_holdsRun hk.cfg hmin, .last hmin fun j hj hjmin => (hall j hj hjmin).1.trans hbest,
      hsig.trans hbest, q, Nat.lt_succ_of_lt hq, hqual⟩

/-- The signal held stays the longest when the run visited is not copied (R281). -/
theorem Walked.kept_succ {m k : Nat} {u : State} (hk : HoldsRun s k u) (hlongest : s.LongestRun m k) (h : s.Inv)
    (hv : s.walkVisits m) (hcopy : ¬ copyCondition u (s.walkStart m) (s.walkRun m).len = true) :
    s.LongestRun (m + 1) k := by
  refine hlongest.succ fun hmin => ?_
  by_contra hlonger
  refine hcopy (copyCondition_iff.2 ⟨by rw [hk.cfg]; exact hmin, by rw [hk.best]; omega, ?_⟩)
  rintro ⟨-, hsame, -⟩
  obtain ⟨hkm, -, -⟩ := hlongest
  exact h.walkStart_ne hkm hv (hsame.trans hk.start)

/-- One more run of the walk (R280 to R282). -/
theorem Walked.succ {m : Nat} {a : ScanAcc} (hw : Walked s m a) (h : s.Inv) (hv : s.walkVisits m) :
    Walked s (m + 1) (scanVisit s.ringAt (s.walkStart m) (s.walkRun m)
      (s.walkOffset m + (s.walkRun m).len == s.scanWindow.avail) a) := by
  have hclosed : ∀ k < m, ¬ s.walkRunOpen k := fun k hk hopen => State.not_walkVisits_of_open hopen hk hv
  constructor
  · simp only [scanVisit, Bool.or_eq_false_iff]
    rintro ⟨hc, hcopy⟩
    obtain ⟨hst, hnone⟩ := hw.untouched hc
    rw [hst] at hcopy
    refine ⟨by rw [hst, hcopy]; rfl, fun k hk hqual => ?_⟩
    rcases Nat.lt_succ_iff_lt_or_eq.1 hk with hk | rfl
    · exact hnone k hk hqual
    · rw [copyCondition_iff.2 hqual] at hcopy
      cases hcopy
  · simp only [scanVisit, Bool.or_eq_true]
    intro hc
    split_ifs with hcopy
    · obtain ⟨hholds, hlongest, hsig, hqual⟩ := hw.held_succ h hcopy
      exact ⟨hqual, m, hholds, hlongest, hsig⟩
    · obtain ⟨⟨q, hq, hqual⟩, k, hk, hlongest, hsig⟩ := hw.held (hc.resolve_right hcopy)
      exact ⟨⟨q, Nat.lt_succ_of_lt hq, hqual⟩, k, hk, Walked.kept_succ hk hlongest h hv hcopy, hsig⟩
  · intro k hk hopen
    rcases Nat.lt_succ_iff_lt_or_eq.1 hk with hk | rfl
    · exact absurd hopen (hclosed k hk)
    · exact scanVisit_newLast.trans (if_pos hopen)
  · intro hnone
    exact scanVisit_newLast.trans ((if_neg (hnone m (Nat.lt_succ_self m))).trans (hw.noOpenRun hclosed))

/-- What SCAN's walk carries at its end, all its runs visited (R280). -/
theorem State.Inv.scanWalk_walked (h : s.Inv) : ∃ m, (∀ k, s.walkVisits k ↔ k < m) ∧
    Walked s m (scanWalk s.cfg s.ringAt s.scanWindow s.scanWindow.avail 0 ⟨s, s.widx, false⟩) :=
  scanWalk_indexed s (Walked s) (fun _ _ hv hw => hw.succ h hv) _ 0 _ (.start s) (Nat.sub_le ..) nofun

/-- Settles O44: the end of the walk, read from RES: nothing copied, or the longest run held. -/
theorem scanHoldsTheLongestRun : Obligations.ScanHoldsTheLongestRun := by
  intro s hinv
  obtain ⟨m, hvisits, hw⟩ := hinv.scanWalk_walked
  have hscan : Completes s .scan _ .ok := .scan rfl
  obtain ⟨hframe, hothers⟩ := hscan.scan_frame
  have hexec := hscan.exec_eq
  generalize scanWalk s.cfg s.ringAt s.scanWindow s.scanWindow.avail 0 ⟨s, s.widx, false⟩ = a at *
  refine ⟨_, hexec, fun hnone => ?_, fun ⟨q, hq, hqual⟩ => ?_, fun k hk => hw.openRun k ((hvisits k).1 hk),
    fun hnone => hw.noOpenRun fun k hk => hnone k ((hvisits k).2 hk), hothers, ?_⟩
  · cases hc : a.copied with
    | false =>
      obtain ⟨hst, -⟩ := hw.untouched hc
      obtain ⟨u, newLast, copied⟩ := a
      subst hst hc
      exact ⟨rfl, rfl, rfl, rfl, rfl, rfl⟩
    | true =>
      obtain ⟨⟨q, hq, hqual⟩, -⟩ := hw.held hc
      exact absurd hqual (hnone q ((hvisits q).2 hq))
  · cases hc : a.copied with
    | false => exact absurd hqual ((hw.untouched hc).2 q ((hvisits q).1 hq))
    | true =>
      obtain ⟨-, k, hk, ⟨hkm, hmin, hall⟩, hsig⟩ := hw.held hc
      refine ⟨rfl, hk.ready, hk.best ▸ hsig, k, (hvisits k).2 hkm, hmin, hk.start, hk.best, hk.unit, hk.buf,
        fun j hj => hall j ((hvisits j).1 hj)⟩
  · rw [hframe]
    rfl

/-! ### A second SCAN -/

/-- The number of pulses written since SCAN_LAST (R279). -/
def State.pulsesLeft (s : State) : Nat := (s.widx - s.scanLast).toNat

/-- A SCAN has nothing new to find: the pulses since SCAN_LAST lie in the ring, and either there are none or they
are one run up to WIDX that R281 excludes. -/
structure State.Settled (s : State) : Prop where
  inRing : s.pulsesLeft ≤ s.cfg.ringSize
  oneRun : 0 < s.pulsesLeft → (measureRun s.cfg s.ringAt s.scanLast s.pulsesLeft).len = s.pulsesLeft
  excluded : 0 < s.pulsesLeft → copyCondition s s.scanLast s.pulsesLeft = false

/-- The ring reads the same in every state that has the same one (R85). -/
theorem State.ringAt_congr (hring : t.ring = s.ring) (hcfg : t.cfg = s.cfg) : t.ringAt = s.ringAt := by
  funext j
  rw [State.ringAt, State.ringAt, hring, hcfg]

theorem State.Settled.of_done (h : s.scanLast = s.widx) : s.Settled := by
  have hleft : s.pulsesLeft = 0 := by rw [State.pulsesLeft, h, BitVec.sub_self, BitVec.toNat_zero]
  exact ⟨by omega, by omega, by omega⟩

theorem scanWalk_of_le {c : Config} {ring : Word → Pulse} {w : ScanWindow} {n i : Nat} {a : ScanAcc}
    (h : w.avail ≤ i) : scanWalk c ring w n i a = a := by
  cases n with
  | zero => rfl
  | succ n => exact if_pos h

/-- When the first run takes the whole window, the walk visits it alone (R280). -/
theorem scanWalk_of_oneRun {c : Config} {ring : Word → Pulse} {base : Word} {n : Nat} {a : ScanAcc} (hpos : 0 < n)
    (hrun : (measureRun c ring base n).len = n) :
    scanWalk c ring ⟨base, n⟩ n 0 a = scanVisit ring base (measureRun c ring base n) true a := by
  obtain ⟨m, rfl⟩ := Nat.exists_eq_succ_of_ne_zero hpos.ne'
  have hbase : base + BitVec.ofNat 32 0 = base := BitVec.add_zero _
  rw [scanWalk, if_neg (Nat.not_le.2 hpos)]
  simp only [hbase, Nat.sub_zero]
  rw [scanWalk_of_le (by simp [hrun])]
  simp [hrun]

/-- The pulses from window offset `i` to WIDX (R279). -/
theorem State.Inv.widx_sub_windowIndex (h : s.Inv) {i : Nat} (hi : i ≤ s.scanWindow.avail) :
    (s.widx - (s.scanWindow.base + BitVec.ofNat 32 i)).toNat = s.scanWindow.avail - i := by
  have havail := s.scanWindow_avail_le
  have hring := h.facts.ringSize_bounds.2
  have hsplit : BitVec.ofNat 32 s.scanWindow.avail =
      BitVec.ofNat 32 i + BitVec.ofNat 32 (s.scanWindow.avail - i) := by
    rw [← BitVec.ofNat_add, Nat.add_sub_cancel' hi]
  rw [← s.scanWindow_end, hsplit, ← BitVec.add_assoc, add_sub_cancel_left, BitVec.toNat_ofNat,
    Nat.mod_eq_of_lt (by omega)]

theorem State.Settled.of_openRun {r : Run} (hleft : s.pulsesLeft = r.len) (hring : r.len ≤ s.cfg.ringSize)
    (hr : measureRun s.cfg s.ringAt s.scanLast r.len = r) (hexcluded : copyCondition s s.scanLast r.len = false) :
    s.Settled where
  inRing := hleft ▸ hring
  oneRun := fun _ => by rw [hleft, hr]
  excluded := fun _ => by rw [hleft]; exact hexcluded

/-- What SCAN's next state keeps, and what it takes from the walk: SCAN_LAST and the signal held (R282, R284). -/
theorem exec_scan_next (hx : exec .scan s = .next t) :
    ∃ a, a = scanWalk s.cfg s.ringAt s.scanWindow s.scanWindow.avail 0 ⟨s, s.widx, false⟩ ∧
      t.cfg = s.cfg ∧ t.ringAt = s.ringAt ∧ t.widx = s.widx ∧ t.scanLast = a.newLast ∧
      ∀ k0 len, copyCondition t k0 len = copyCondition a.st k0 len := by
  obtain ⟨-, -, hring, hwidx, hcfg, -, -⟩ := commandsNeverWriteTheirOperands .scan s t hx
  refine ⟨_, rfl, hcfg, State.ringAt_congr hring hcfg, hwidx, ?_⟩
  have hexec := (Completes.scan rfl).exec_eq.symm.trans hx
  generalize scanWalk s.cfg s.ringAt s.scanWindow s.scanWindow.avail 0 ⟨s, s.widx, false⟩ = a at hexec ⊢
  obtain rfl := Host.Outcome.next.inj hexec
  exact ⟨rfl, fun _ _ => rfl⟩

/-- SCAN leaves SCAN_LAST at WIDX, or at the start of a run up to WIDX that it would not copy again (R281,
R282). -/
theorem State.Inv.scan_settles (h : s.Inv) (hx : exec .scan s = .next t) : t.Settled := by
  obtain ⟨a, ha, hcfg, hring, hwidx, hscanLast, hcopy⟩ := exec_scan_next hx
  rcases scanWalk_end (c := s.cfg) (ring := s.ringAt) (w := s.scanWindow) (fun _ => True) (fun _ _ _ _ => trivial)
      s.scanWindow.avail 0 ⟨s, s.widx, false⟩ trivial (Nat.sub_le ..) with
    ⟨-, hend⟩ | ⟨i, a', hi, -, hlast, -, hend⟩
  · rw [hend] at ha
    exact .of_done (hscanLast.trans (ha ▸ hwidx.symm))
  · have hleft := h.widx_sub_windowIndex hi.le
    have havail := s.scanWindow_avail_le
    have hsize := h.facts.ringSize_bounds.2
    rw [hend] at ha
    generalize s.scanWindow.base + BitVec.ofNat 32 i = k0 at ha hleft
    generalize hr : measureRun s.cfg s.ringAt k0 (s.scanWindow.avail - i) = r at ha
    have hnewLast : a.newLast = if 0 < r.len ∧ i + r.len = s.scanWindow.avail then k0 else a'.newLast :=
      ha ▸ scanVisit_newLast
    by_cases hopen : 0 < r.len ∧ i + r.len = s.scanWindow.avail
    · obtain rfl : t.scanLast = k0 := hscanLast.trans (hnewLast.trans (if_pos hopen))
      obtain ⟨hpos, hreach⟩ := hopen
      have hlen : s.scanWindow.avail - i = r.len := by omega
      have hexcluded : copyCondition a.st t.scanLast r.len = false :=
        ha ▸ copyCondition_scanVisit hpos (by omega)
      refine .of_openRun (r := r) ?_ (by rw [hcfg]; omega) ?_ ((hcopy ..).trans hexcluded)
      · rw [State.pulsesLeft, hwidx, hleft, hlen]
      · rw [hcfg, hring, ← hlen, hr]
    · exact .of_done (hscanLast.trans (hnewLast.trans ((if_neg hopen).trans (hlast.trans hwidx.symm))))

/-- A settled state has at most one run's pulses left (R277, R279). -/
theorem State.Settled.pulsesLeft_le (h : t.Settled) : t.pulsesLeft ≤ min t.cfg.ringSize t.cfg.maxRun := by
  refine le_min h.inRing ?_
  rcases Nat.eq_zero_or_pos t.pulsesLeft with h0 | hpos
  · omega
  · rw [← h.oneRun hpos]
    exact (measureRun_len_le ..).2

/-- Settles O46: what SCAN leaves is at most one run. -/
theorem scanLeavesAtMostOneOpenRun : Obligations.ScanLeavesAtMostOneOpenRun := by
  intro s t hinv hx
  obtain ⟨-, -, hcfg, -⟩ := exec_scan_next hx
  exact hcfg ▸ (hinv.scan_settles hx).pulsesLeft_le

/-- SCAN changes nothing but RES and ERR when it has nothing new to find (R286 (1)). -/
theorem State.Settled.exec_scan (h : t.Settled) :
    exec .scan t = .next { t with res := 0#32, status := finishedStatus t .ok } := by
  have hwindow : t.scanWindow = ⟨t.scanLast, t.pulsesLeft⟩ := State.scanWindow_of_le h.inRing
  have hwalk : scanWalk t.cfg t.ringAt t.scanWindow t.scanWindow.avail 0 ⟨t, t.widx, false⟩ =
      ⟨t, t.scanLast, false⟩ := by
    rw [hwindow]
    rcases Nat.eq_zero_or_pos t.pulsesLeft with h0 | hpos
    · have hdone : t.widx = t.scanLast := sub_eq_zero.1 (BitVec.eq_of_toNat_eq h0)
      rw [scanWalk_of_le h0.le, hdone]
    · have hrun := h.oneRun hpos
      rw [scanWalk_of_oneRun hpos hrun]
      simp [scanVisit, hrun, hpos, h.excluded hpos]
  exact (Completes.scan hwalk.symm).exec_eq

/-- Settles O45: the first SCAN settles the state, and on a settled state SCAN does nothing. -/
theorem scanIsIdempotent : Obligations.ScanIsIdempotent := fun _ _ hinv hx => (hinv.scan_settles hx).exec_scan

end

end Sys2Proof.Machine

/-! SUPPORT. The decoder registry and the Toyota TPMS decoder (47_registry.md, R300 to R317): what a field holds, how
DISPATCH ends, and when the Toyota decoder answers. -/

namespace Sys2Proof.Machine

/-! ### Publication (R301) -/

/-- Within the field a text's own characters stand first. -/
theorem fieldBytes_getElem?_text {n j : Nat} {text : List Byte} (hn : j < n) (ht : j < text.length) :
    (fieldBytes n text)[j]? = text[j]? := by
  rw [fieldBytes, List.getElem?_append_left (by simp [hn, ht]), List.getElem?_take_of_lt hn]

/-- After the text's characters the field holds 0x00. -/
theorem fieldBytes_getElem?_padding {n j : Nat} {text : List Byte} (hn : j < n) (ht : text.length ≤ j) :
    (fieldBytes n text)[j]? = some 0#8 := by
  rw [fieldBytes, List.take_of_length_le (ht.trans hn.le), List.getElem?_append_right ht, List.getElem?_replicate,
    if_pos (Nat.sub_lt_sub_right ht hn)]

/-- An empty text leaves padding only. -/
@[simp] theorem fieldBytes_nil (n : Nat) : fieldBytes n [] = List.replicate n 0#8 := by
  simp [fieldBytes]

/-- Settles O48: the characters of a field, then the record `publish` writes. -/
theorem publishTruncatesAndPads : Obligations.PublishTruncatesAndPads :=
  ⟨fun n text => ⟨fieldBytes_length n text, fun _ => fieldBytes_getElem?_text, fun _ => fieldBytes_getElem?_padding⟩,
    fun _ _ _ => ⟨_, rfl, rfl, rfl, rfl, rfl, rfl, rfl, rfl, rfl, rfl⟩⟩

/-! ### How DISPATCH ends (R303) -/

/-- The registry's walk answers FAIL when every decoder does (R303). -/
theorem firstDecoded_eq_none {c : Config} {b : BitBuffer} {numbytes : Nat} {ds : List DecoderEntry} {k : Nat}
    (h : ∀ e ∈ ds, runDecoder c e.fn b numbytes = none) : firstDecoded c b numbytes ds k = none := by
  by_contra hc
  obtain ⟨⟨n, m⟩, hsome⟩ := Option.ne_none_iff_exists'.1 hc
  obtain ⟨j, e, -, he, hclaims, -⟩ := (firstDecoded_spec c b numbytes ds k).1 n m hsome
  rw [h e (List.mem_of_getElem? he)] at hclaims
  cases hclaims

/-- DISPATCH when decoder `k` is the first to claim the buffer. -/
theorem exec_dispatch_of_claimed {s : State} {b : BufIx} {k : Nat} {m : MessageInfo}
    (h : firstDecoded s.cfg (s.buf b) (s.cap b) s.cfg.decoders 0 = some (k, m)) :
    exec (.dispatch b) s = .next { s with
      mi := (s.publish k m).mi
      sigReady := if b = 0 then false else s.sigReady
      res := BitVec.ofNat 32 k
      status := finishedStatus s .ok } :=
  (Completes.dispatchClaimed h).exec_eq

/-- DISPATCH when no decoder claims the buffer. -/
theorem exec_dispatch_of_unclaimed {s : State} {b : BufIx}
    (h : firstDecoded s.cfg (s.buf b) (s.cap b) s.cfg.decoders 0 = none) :
    exec (.dispatch b) s = .next { s with
      mi := MiRecord.cleared s.cfg
      sigReady := if b = 0 then false else s.sigReady
      res := notFound
      status := finishedStatus s .noMatch } :=
  (Completes.dispatchUnclaimed h).exec_eq

/-- Settles O49: the registry's walk answers the first decoder that claims the buffer, or none. -/
theorem dispatchFirstMatchWins : Obligations.DispatchFirstMatchWins := by
  intro s b
  refine ⟨fun k e m he hm hbefore => exec_dispatch_of_claimed ?_, fun h =>
    exec_dispatch_of_unclaimed (firstDecoded_eq_none h)⟩
  rw [firstDecoded_eq_some he hm hbefore, Nat.zero_add]

/-- A text character R300 allows is 1 to 255. -/
theorem MessageInfo.char_bounds {m : MessageInfo} (h : m.textsLegal = true) {x : Byte}
    (hx : x ∈ m.name ++ m.raw ++ m.info1 ++ m.info2 ++ m.info3 ++ m.info4) : 1 ≤ x.toNat ∧ x.toNat ≤ 255 := by
  have hne : x ≠ 0#8 := by simpa using List.all_eq_true.1 h x hx
  have hlt := x.isLt
  have hpos : x.toNat ≠ 0 := fun h0 => hne (BitVec.eq_of_toNat_eq h0)
  omega

/-- Settles O50: DISPATCH ends with one winner's record and OK, or with the cleared record and NO_MATCH. -/
theorem noPartialPublication : Obligations.NoPartialPublication := by
  intro s t b hexec
  cases hfirst : firstDecoded s.cfg (s.buf b) (s.cap b) s.cfg.decoders 0 with
  | some winner =>
    obtain ⟨k, m⟩ := winner
    obtain ⟨j, e, hk, he, hm, -⟩ := (firstDecoded_spec ..).1 k m hfirst
    obtain rfl : k = j := hk.trans (Nat.zero_add j)
    obtain rfl := Host.Outcome.next.inj ((exec_dispatch_of_claimed hfirst).symm.trans hexec)
    exact ⟨iff_of_true rfl (statusErr_setErr ..),
      fun _ => ⟨k, e, m, he, hm, fun _ hx => MessageInfo.char_bounds (runDecoder_textsLegal hm) hx, rfl⟩,
      fun hinvalid => Bool.noConfusion hinvalid⟩
  | none =>
    obtain rfl := Host.Outcome.next.inj ((exec_dispatch_of_unclaimed hfirst).symm.trans hexec)
    have herr : statusErr (finishedStatus s .noMatch) = Err.noMatch.code := statusErr_setErr ..
    refine ⟨iff_of_false Bool.false_ne_true fun hok => ?_, fun hvalid => Bool.noConfusion hvalid, fun _ => rfl⟩
    exact absurd (Err.code_injective (herr.symm.trans hok)) (by decide)

/-! ### The Toyota TPMS decoder (R311 to R317) -/

/-- The Toyota decoder answers exactly when a sync occurs, 72 bits follow it and the check byte is right; then its
result is that of the nine bytes decoded (R312 to R317). -/
theorem toyotaDecode_eq_some_iff {t : DmTable} {b : BitBuffer} {m : MessageInfo} :
    toyotaDecode t b = some m ↔ ∃ (off : Nat) (raw : List Byte), findSync b toyotaSyncs = some off ∧
      72 ≤ (dmPure t b 72 off true).count ∧ memBytes (dmPure t b 72 off true).out 0 9 = raw ∧
      crc8 (raw.take 8) 0x80#8 0x07#8 = raw.getD 8 0#8 ∧ toyotaResult raw off = m := by
  rw [toyotaDecode]
  cases hsync : findSync b toyotaSyncs with
  | none => simp
  | some off =>
    by_cases hcount : (dmPure t b 72 off true).count < 72
    · simp [hcount]
    · simp [hcount, not_lt.1 hcount]

/-- R316's temperature is one byte's value less 40. -/
theorem toyotaTemp_bounds (raw : List Byte) : -40 ≤ toyotaTemp raw ∧ toyotaTemp raw ≤ 215 := by
  have h := (((raw.getD 5 0#8 &&& 0x7F#8) <<< 1) ||| (raw.getD 6 0#8 >>> 7)).isLt
  rw [toyotaTemp]
  omega

/-- Settles O52: the decoder answers only past its check, and on nine bytes. -/
theorem toyotaChecksumGate : Obligations.ToyotaChecksumGate := by
  intro t b m h
  obtain ⟨off, raw, -, -, hraw, hcrc, hm⟩ := toyotaDecode_eq_some_iff.1 h
  have hlen : raw.length = 9 := by simp [← hraw, memBytes]
  exact ⟨raw, off, hlen, hcrc, hm.symm, toyotaTemp_bounds raw⟩

/-- Under the default table the decode into the scratch array gives back bytes that were differential Manchester
encoded (R314, R236). -/
theorem dmPure_decodes_bytes {b : BitBuffer} {raw : List Byte} {room off : Nat} {pv : Bool}
    (hsym : ∀ k, k < 2 * (8 * raw.length) → (dmEncode pv (streamBits raw))[k]? = some (bitRead b.data (off + k)))
    (hend : off + 2 * (8 * raw.length) ≤ b.numbits.toNat) (hroom : 8 * raw.length ≤ room) :
    8 * raw.length ≤ (dmPure DmTable.default b room off pv).count ∧
      memBytes (dmPure DmTable.default b room off pv).out 0 raw.length = raw := by
  obtain ⟨-, lv, hspec⟩ := dmPure_spec DmTable.default b room off pv
  rw [← streamBits_length] at hsym hend hroom ⊢
  obtain ⟨hcount, hbits⟩ := hspec.decodes_dmEncode hsym hend hroom
  exact ⟨hcount, memBytes_eq_of_bits fun p hp => hbits p (hp.trans_eq (streamBits_length raw).symm)⟩

theorem toyotaSyncs_length_pos : ∀ sync ∈ toyotaSyncs, 1 ≤ sync.length := by decide

/-- Settles O51: the sync search finds the frame's data, the decode gives its bytes back, and the first decoder's
result is published. -/
theorem toyotaFrameIsDecoded : Obligations.ToyotaFrameIsDecoded := by
  intro s b e es v p sync raw _ htable hdecoders hfn hv hearlier hmatch hlow hlen hcrc hend hsym
  have hsync : findSync (s.buf b) toyotaSyncs = some (p + sync.length - 2) :=
    findSync_eq_some hv (toyotaSyncs_length_pos sync (List.mem_of_getElem? hv)) hearlier hmatch hlow
  have hbits : 2 * (8 * raw.length) = 144 := by rw [hlen]
  obtain ⟨hcount, hraw⟩ := dmPure_decodes_bytes (room := 72) (hbits ▸ hsym) (hbits ▸ hend) (by rw [hlen])
  rw [hlen] at hcount hraw
  have hdecode : toyotaDecode DmTable.default (s.buf b) = some (toyotaResult raw (p + sync.length - 2)) :=
    toyotaDecode_eq_some_iff.2 ⟨_, raw, hsync, hcount, hraw, hcrc, rfl⟩
  have hrun : runDecoder s.cfg e.fn (s.buf b) (s.cap b) = some (toyotaResult raw (p + sync.length - 2)) := by
    rw [hfn, runDecoder, htable, hdecode]
  have hfirst : firstDecoded s.cfg (s.buf b) (s.cap b) s.cfg.decoders 0 =
      some (0, toyotaResult raw (p + sync.length - 2)) :=
    firstDecoded_eq_some (by rw [hdecoders]; rfl) hrun fun _ _ hj => absurd hj (Nat.not_lt_zero _)
  refine ⟨_, exec_dispatch_of_claimed hfirst, rfl, statusErr_setErr .., ?_⟩
  simp [State.publish, toyotaResult]

end Sys2Proof.Machine

/-! SUPPORT. How a command ends and what a step does to FAULT (60_exceptions.md, R340 to R344), and the spec's own
table of decodings (95_test_vectors.md). -/

namespace Sys2Proof.Machine

/-! ### How a command ends -/

/-- The writes a command makes before it ends leave STATUS as it was: its end alone writes STATUS (R142, R342). -/
theorem Completes.status_eq {s u : State} {i : Instr} {e : Err} (h : Completes s i u e) : u.status = s.status := by
  cases i with
  | lcdec b d z o => rw [h.lcdec_frame.1]
  | dmdec b d => rw [h.dmdec_frame.1]
  | scan => rw [h.scan_frame.1]
  | _ => cases h <;> simp

/-- The code a command finishes with is one R344 lists for it; within its bounds a bounded command has no other. -/
theorem Completes.mem_possibleErrs {s u : State} {i : Instr} {e : Err} (h : Completes s i u e) :
    e ∈ possibleErrs i s := by
  cases h with
  | getbit h | setbit h | rdbyte h | wrbyte h => simp [possibleErrs, Nat.not_le.2 h]
  | setlen h | crc8 h => simp [possibleErrs, Nat.not_lt.2 h]
  | _ => simp [possibleErrs]

/-- OUT_OF_BOUNDS is only ever raised: no command finishes with it (R142, R160, R251). -/
theorem Completes.ne_outOfBounds {s u : State} {i : Instr} {e : Err} (h : Completes s i u e) : e ≠ .outOfBounds := by
  cases h <;> nofun

/-- The end of a command as STATUS shows it (R142, R344): it has raised OUT_OF_BOUNDS, which R344 lists for it, or
finished with another code that R344 lists, FAULT as it was. -/
theorem exec_ends {i : Instr} {s t : State} (h : exec i s = .next t) :
    (.outOfBounds ∈ possibleErrs i s ∧ t = s.raised .outOfBounds) ∨
    ∃ e ∈ possibleErrs i s, e ≠ .outOfBounds ∧ statusErr t.status = e.code ∧
      statusFault t.status = statusFault s.status := by
  rcases exec_next h with ⟨hout, rfl⟩ | ⟨u, e, hu, rfl⟩
  · exact .inl ⟨hout ▸ List.mem_singleton_self _, rfl⟩
  · refine .inr ⟨e, hu.mem_possibleErrs, hu.ne_outOfBounds, statusErr_setErr .., ?_⟩
    rw [← hu.status_eq]
    exact statusFault_setErr ..

/-- Settles O13: a command ends with a code listed for it, and an illegal word raises ILLEGAL. -/
theorem outcomesAreThoseOfTheTable : Obligations.OutcomesAreThoseOfTheTable := by
  refine ⟨fun i s t h => ?_, fun w s t hw h => ?_⟩
  · rcases exec_ends h with ⟨hmem, rfl⟩ | ⟨e, hmem, -, herr, -⟩
    · exact ⟨.outOfBounds, hmem, s.raised_err _⟩
    · exact ⟨e, hmem, herr⟩
  · rw [issue_of_not_legal hw] at h
    cases h
    exact s.raised_err .illegal

/-- Settles O14: a command that finishes has another code in ERR, so this one has raised. -/
theorem outOfBoundsChangesOnlyStatus : Obligations.OutOfBoundsChangesOnlyStatus := by
  intro i s t h hout
  rcases exec_ends h with ⟨-, ht⟩ | ⟨e, -, hne, herr, -⟩
  · exact ht
  · exact absurd (Err.code_injective (herr.symm.trans hout)) hne

/-! ### FAULT (R343) -/

/-- What any step but the reset does to STATUS.FAULT (R343): it stays as it is, or `raise Error` sets it, with
OUT_OF_BOUNDS or ILLEGAL in ERR. -/
def FaultKeptOrRaised (s t : State) : Prop :=
  statusFault t.status = statusFault s.status ∨
    (statusFault t.status = true ∧
      (statusErr t.status = Err.outOfBounds.code ∨ statusErr t.status = Err.illegal.code))

theorem faultKeptOrRaised_of_exec {i : Instr} {s t : State} (h : exec i s = .next t) : FaultKeptOrRaised s t := by
  rcases exec_ends h with ⟨-, rfl⟩ | ⟨e, -, -, -, hfault⟩
  · exact .inr ⟨s.raised_fault _, .inl (s.raised_err _)⟩
  · exact .inl hfault

theorem faultKeptOrRaised_of_issue {w : Word} {s t : State} (h : issue w s = .next t) : FaultKeptOrRaised s t := by
  rcases issue_next h with ⟨i, -, hx⟩ | ⟨-, rfl⟩
  · exact faultKeptOrRaised_of_exec hx
  · exact .inr ⟨s.raised_fault _, .inr (s.raised_err _)⟩

/-- No host write to a register other than CMD writes STATUS (R87, R343). -/
theorem hostWriteReg_status (r : HostReg) (v : Word) (s : State) : (hostWriteReg r v s).status = s.status :=
  hostWriteReg_preserves (P := fun u => u.status = s.status) r v rfl (fun _ => rfl) rfl (fun _ => rfl) (fun _ => rfl)

/-- Of the events but the reset, only the issue of a command can write STATUS. -/
theorem faultKeptOrRaised_of_runEvent {e : Event} {s t : State} (he : e ≠ .reset) (h : runEvent e s = .next t) :
    FaultKeptOrRaised s t := by
  rcases runEvent_next h with
    ⟨w, o, -, rfl⟩ | ⟨w, o, v, -, -, hi⟩ | ⟨w, o, v, -, rfl⟩ | ⟨l, d, -, rfl⟩ | ⟨hreset, -⟩
  · exact .inl rfl
  · exact faultKeptOrRaised_of_issue hi
  · exact .inl (congrArg statusFault (hostWriteReg_status ..))
  · exact .inl rfl
  · exact absurd hreset he

theorem faultKeptOrRaised_of_step {s t : State} (hne : s.pending.head? ≠ some .reset) (h : step s = .next t) :
    FaultKeptOrRaised s t := by
  rcases step_next h with ⟨-, rfl⟩ | ⟨e, rest, hp, he⟩
  · exact .inl rfl
  · rw [hp, List.head?_cons] at hne
    exact faultKeptOrRaised_of_runEvent (s := { s with pending := rest }) (fun hr => hne (hr ▸ rfl)) he

/-- The step of the reset input clears STATUS, and FAULT with it (R45, R370). -/
theorem step_reset_status {s t : State} (hreset : s.pending.head? = some .reset) (h : step s = .next t) :
    t.status = 0#32 := by
  obtain ⟨rest, hp⟩ := List.head?_eq_some_iff.1 hreset
  rw [step_of_pending hp] at h
  cases h
  rfl

/-- Settles O12: `raise Error` and `finish` by their STATUS; a step by whether it is the reset. -/
theorem faultIsStickyUntilReset : Obligations.FaultIsStickyUntilReset := by
  refine ⟨fun s e => ⟨_, s.raise_eq e, s.raised_fault e⟩, fun s e => ⟨_, s.finish_eq e, statusFault_setErr ..⟩,
    fun s t h => ?_⟩
  have cleared (hreset : s.pending.head? = some .reset) : statusFault t.status = false := by
    rw [step_reset_status hreset h]
    rfl
  refine ⟨fun hne hset => ?_, cleared, fun hclear hset => ?_⟩
  · rcases faultKeptOrRaised_of_step hne h with hkept | ⟨hraised, -⟩
    · exact hkept.trans hset
    · exact hraised
  · have hne : s.pending.head? ≠ some .reset := fun hreset => by simp [cleared hreset] at hset
    rcases faultKeptOrRaised_of_step hne h with hkept | ⟨-, herr⟩
    · simp [hkept, hclear] at hset
    · exact herr

/-! ### The spec's table of decodings -/

/-- Settles O5: each legal word is the encoding of its command, and each illegal one has its reason of R112: an unused
field, a reserved opcode, a reserved bit. -/
theorem specWordsDecode : Obligations.SpecWordsDecode :=
  ⟨decodeOfEncode .nop, decodeOfEncode (.getbit 3), decodeOfEncode (.fill 3 7), decodeOfEncode (.lcdec 2 3 0 1),
    decodeOfEncode (.dmdec 3 3), decodeOfEncode .scan, decodeOfEncode (.dispatch 3),
    legal_false_iff.2 ⟨.unusedField .nop, by decide⟩, legal_false_iff.2 ⟨.reservedOpcode 0x17#8, by decide⟩,
    legal_false_iff.2 ⟨.reservedBits 1#14, by decide⟩⟩

end Sys2Proof.Machine
